-- ==== Sys2Proof/Word.lean ====
section
/-! DEFINITION. The widths of the PU's quantities (spec 00_scope.md R8 to R11, 10_state.md). -/

namespace Sys2Proof

/-- The 36-bit machine word (R8); bit 0 is the least significant (R12). -/
abbrev Word := BitVec 36

/-- A virtual address as a command carries it: 12 bits of section above 18 bits (R9). -/
abbrev VAddr := BitVec 30

/-- The program counter the execution loop supplies and receives (R41). -/
abbrev PcBits := BitVec 30

/-- The opaque processor flags, F_BITS = 13 (R11, R41). -/
abbrev FlagBits := BitVec 13

/-- A physical page number held in a translation entry or a base register, PPAGE_BITS = 13 (R10). -/
abbrev Ppn := BitVec 13

/-- A physical word address held in a register, 22 bits (R10, R27, R31). -/
abbrev BaseAddr := BitVec 22

end Sys2Proof
end

