-- ==== Sys2Proof/Config.lean ====
section
/-! DEFINITION. The configuration: every parameter of spec 00_scope.md R6 to R11, and the two functions the
environment supplies (MEMDIAG_REPLY R236, ExecUndo R266) as finite tables over their defaults. -/

namespace Sys2Proof

/-- GEN, the configured hardware generation (R6). -/
inductive Gen where
  | flatIts
  | flatMid
  | multi
  deriving DecidableEq, Repr

/-- ABK_GRANULE: what the address break compares (R222). -/
inductive Granule where
  | word
  | page
  deriving DecidableEq, Repr

/-- INTFAULT_POLICY (R268). -/
inductive IntFaultPolicy where
  | fatal
  | statusResume
  deriving DecidableEq, Repr

/-- TRAP_BASE: the process table that holds the trap locations (R271). -/
inductive TrapBase where
  | user
  | exec
  deriving DecidableEq, Repr

/-- The legal values of CTX.seq (R94); its codes 5 to 7 are reserved and never reach an instruction. -/
inductive Seq where
  | none
  | indirectFetch
  | trapInsn
  | intDelivery
  | singleStep
  deriving DecidableEq, Repr

/-- One point of ExecUndo at which it differs from the identity: the hook asked with (seq, pc, flags)
answers (pc', flags') (R266). -/
structure UndoRow where
  seq : Seq
  pc : PcBits
  flags : FlagBits
  pc' : PcBits
  flags' : FlagBits
  deriving DecidableEq, Repr

/-- What MEMDIAG_REPLY can say of a controller and function: "no such controller" (R238), or PRESENT and SIZE of the
reply word (R106). The rest of the word is fixed: the operand echoed, the other bits zero. -/
inductive MemdiagReply where
  | noController
  | controller (present : Bool) (size : BitVec 14)
  deriving DecidableEq, Repr

/-- One point of MEMDIAG_REPLY at which it differs from the default of R238. -/
structure MemdiagRow where
  ctl : BitVec 5
  fn : BitVec 5
  reply : MemdiagReply
  deriving DecidableEq, Repr

/-- The parameters of one PU. They are fixed at construction and no command writes them (R6, R46). -/
structure Config where
  gen : Gen
  /-- EXT (R7). -/
  ext : Bool
  /-- NSECT when EXT is true (R9); not read when EXT is false. -/
  nsect : Nat
  /-- PHYS_PAGES (R10). -/
  physPages : Nat
  /-- HAS_ABK (R215). -/
  hasAbk : Bool
  /-- ABK_GRANULE (R222). -/
  abkGranule : Granule
  /-- ABK_HIT_LIMIT (R226); `none` is unbounded. -/
  abkHitLimit : Option Nat
  /-- IND_LIMIT (R163); `none` is unbounded. -/
  indLimit : Option Nat
  /-- INTFAULT_POLICY (R268). -/
  intFault : IntFaultPolicy
  /-- HAS_SSTEP (R266). -/
  hasSstep : Bool
  /-- TRAP_BASE (R271). -/
  trapBase : TrapBase
  /-- PFW_OFF, OLD_OFF, NEW_OFF (R271). -/
  pfwOff : Nat
  oldOff : Nat
  newOff : Nat
  /-- SECT_OFF (R155). -/
  sectOff : Nat
  /-- MID_HI_OFF, MID_PP_OFF, MID_LO_OFF (R148). -/
  midHiOff : Nat
  midPpOff : Nat
  midLoOff : Nat
  /-- The points at which MEMDIAG_REPLY differs from R238. -/
  memdiag : List MemdiagRow
  /-- The points at which ExecUndo differs from the identity. -/
  undo : List UndoRow
  deriving DecidableEq, Repr

namespace Config

/-- PHYS_WORDS (R10): a physical address exists iff it is below this. -/
def physWords (c : Config) : Nat := c.physPages * 512

/-- The number of legal sections: 1 when EXT is false, NSECT when it is true (R9). -/
def sections (c : Config) : Nat := if c.ext then c.nsect else 1

/-- NVP, the number of virtual pages per mode (R9). -/
def nvp (c : Config) : Nat := c.sections * 512

/-- The words the trap sequence uses: one word for the old and one for the new pair when EXT is false,
two each when it is true (R271). -/
def trapOffsets (c : Config) : List Nat :=
  if c.ext then [c.pfwOff, c.oldOff, c.oldOff + 1, c.newOff, c.newOff + 1]
  else [c.pfwOff, c.oldOff, c.newOff]

/-- The constraints the spec puts on a configuration: EXT only with MULTI (R7), NSECT in 1..512 (R9),
PHYS_PAGES in 1..2^13 (R10), the trap locations distinct (R271, U23). -/
abbrev wf (c : Config) : Prop :=
  (c.ext = true → c.gen = .multi) ∧ 1 ≤ c.nsect ∧ c.nsect ≤ 512 ∧
  1 ≤ c.physPages ∧ c.physPages ≤ 8192 ∧ c.trapOffsets.Nodup

/-- Every parameter at the default R11 names for the generation. PHYS_PAGES is the value of the spec's
worked examples (R10). -/
def default (g : Gen) : Config where
  gen := g
  ext := false
  nsect := 1
  physPages := 0o100
  hasAbk := g == .multi
  abkGranule := .word
  abkHitLimit := none
  indLimit := none
  intFault := if g = .multi then .statusResume else .fatal
  hasSstep := g == .flatIts
  trapBase := .user
  pfwOff := 0o500
  oldOff := 0o501
  newOff := 0o502
  sectOff := 0o540
  midHiOff := 0o200
  midPpOff := 0o400
  midLoOff := 0o600
  memdiag := []
  undo := []

/-- The defaults with extended addressing: NSECT = 32 and the two-word trap format (R9, R271). -/
def defaultExt : Config := { default .multi with ext := true, nsect := 32, newOff := 0o503 }

end Config

end Sys2Proof
end

