-- ==== Sys2Proof/Syntax.lean ====
section
/-! DEFINITION. The commands of the PU as terms: one constructor of `Instr` per row of
spec/opcode_table.json, its operands already the fields the images of 30_encoding.md define; and what
stands on the command port (R90). -/

namespace Sys2Proof

/-- The two privilege contexts with a translation cache (R17, R286). -/
inductive Mode where
  | exec
  | user
  deriving DecidableEq, Repr

/-- The M field: the two cached maps and the physical map (R91). -/
inductive MapSel where
  | exec
  | user
  | phys
  deriving DecidableEq, Repr

/-- The K field, the access kind (R91). -/
inductive Kind where
  | fetch
  | read
  | write
  deriving DecidableEq, Repr

/-- The X field, the accumulator context (R91). -/
inductive AcCtx where
  | current
  | previous
  deriving DecidableEq, Repr

/-- CTX as XLATE and PROBE use it, its sequence code legal (R94). -/
structure Ctx where
  pc : PcBits
  flags : FlagBits
  seq : Seq
  nonint : Bool
  deriving DecidableEq, Repr

/-- The 20 operations of R96 with the operands R92 gives their formats. -/
inductive Instr where
  | xlate (m : MapSel) (k : Kind) (va : VAddr) (ctx : Ctx)
  | probe (m : MapSel) (k : Kind) (va : VAddr) (ctx : Ctx)
  | invalAll
  | invalOne (va : VAddr)
  /-- the EBR image, R102 -/
  | wrEbr (ebp : Ppn) (pge : Bool)
  | rdEbr
  /-- the UBR image, R103 -/
  | wrUbr (selAc : Bool) (ldUbr : Bool) (cab : BitVec 3) (pab : BitVec 3) (ubp : Ppn)
  | rdUbr
  | wrTb (idx : BitVec 4) (value : Word)
  | rdTb (idx : BitVec 4)
  /-- the SEL_ACB image, R104 -/
  | selAcb (cab : BitVec 3) (pab : BitVec 3)
  | acrd (x : AcCtx) (r : BitVec 4)
  | acwr (x : AcCtx) (r : BitVec 4) (value : Word)
  /-- the ARM_ABK image, R105: cond is F ++ R ++ W ++ U -/
  | armAbk (cond : BitVec 4) (va : VAddr)
  | disarmAbk
  | sweep
  /-- the MEMDIAG operand, R106 -/
  | memdiag (ctl : BitVec 5) (fn : BitVec 5)
  | rdSts
  /-- the STS image as a clear mask, R107 -/
  | clrSts (mask : BitVec 3)
  | reset
  deriving DecidableEq, Repr

/-- The raw context sideband (R94): `seq` may hold a reserved code. -/
structure CtxBits where
  pc : PcBits
  flags : FlagBits
  seq : BitVec 3
  nonint : Bool
  deriving DecidableEq, Repr

/-- What is presented on the command port: CMD, DATA and CTX (R90). -/
structure Command where
  cmd : Word
  data : Word
  ctx : CtxBits
  deriving DecidableEq, Repr

/-- One input from outside the PU: a command of the execution loop, or a store to PhysicalStore by another
user of it, which may come only between commands (R16, R315). -/
inductive Input where
  | command (c : Command)
  | store (pa : Nat) (w : Word)
  deriving DecidableEq, Repr

end Sys2Proof
end

