-- ==== Sys2Proof/WellFormed.lean ====
section
/-! DEFINITION. Which terms of `Instr` a command can encode. The types of the operands carry every bound but
one: the register index of WR_TB and RD_TB goes from 0 to 7 in a field of 4 bits (R91, R97). -/

namespace Sys2Proof

/-- The index field of WR_TB and RD_TB is at most 7 (R97). -/
def tableIndexOk (idx : BitVec 4) : Bool := decide (idx.toNat ≤ 7)

/-- An instruction some legal command encodes, whatever the generation (R97). -/
def Instr.wellFormed : Instr → Bool
  | .wrTb idx _ => tableIndexOk idx
  | .rdTb idx => tableIndexOk idx
  | .xlate _ _ _ _ => true
  | .probe _ _ _ _ => true
  | .invalAll => true
  | .invalOne _ => true
  | .wrEbr _ _ => true
  | .rdEbr => true
  | .wrUbr _ _ _ _ _ => true
  | .rdUbr => true
  | .selAcb _ _ => true
  | .acrd _ _ => true
  | .acwr _ _ _ => true
  | .armAbk _ _ => true
  | .disarmAbk => true
  | .sweep => true
  | .memdiag _ _ => true
  | .rdSts => true
  | .clrSts _ => true
  | .reset => true

end Sys2Proof
end

