-- ==== Sys2Proof/Decode.lean ====
section
/-! DEFINITION. From a command's bits to an instruction and back (spec 30_encoding.md R90 to R113), the
decoder total and rejecting by name, the encoder written from the same tables; then the assembler text of
R110 and the pseudo-commands of R111. -/

namespace Sys2Proof

/-- The operations of R96. -/
inductive Op where
  | xlate | probe | invalAll | invalOne | wrEbr | rdEbr | wrUbr | rdUbr | wrTb | rdTb
  | selAcb | acrd | acwr | armAbk | disarmAbk | sweep | memdiag | rdSts | clrSts | reset
  deriving DecidableEq, Repr

/-- The command formats of R92. -/
inductive Format where
  | n | t | v | d | i | a
  deriving DecidableEq, Repr

/-- One row of R96's table. -/
structure OpRow where
  op : Op
  code : BitVec 6
  format : Format
  mnemonic : String
  deriving DecidableEq, Repr

/-- The rows of R96, 0o01 to 0o10. -/
def opTableLow : List OpRow :=
  [⟨.xlate, 0o01, .t, "XLATE"⟩, ⟨.probe, 0o02, .t, "PROBE"⟩, ⟨.invalAll, 0o03, .n, "INVAL_ALL"⟩,
   ⟨.invalOne, 0o04, .v, "INVAL_ONE"⟩, ⟨.wrEbr, 0o05, .d, "WR_EBR"⟩, ⟨.rdEbr, 0o06, .n, "RD_EBR"⟩,
   ⟨.wrUbr, 0o07, .d, "WR_UBR"⟩, ⟨.rdUbr, 0o10, .n, "RD_UBR"⟩]

/-- The rows of R96, 0o11 to 0o77. -/
def opTableHigh : List OpRow :=
  [⟨.wrTb, 0o11, .i, "WR_TB"⟩, ⟨.rdTb, 0o12, .i, "RD_TB"⟩, ⟨.selAcb, 0o13, .d, "SEL_ACB"⟩,
   ⟨.acrd, 0o14, .a, "ACRD"⟩, ⟨.acwr, 0o15, .a, "ACWR"⟩, ⟨.armAbk, 0o16, .d, "ARM_ABK"⟩,
   ⟨.disarmAbk, 0o17, .n, "DISARM_ABK"⟩, ⟨.sweep, 0o20, .n, "SWEEP"⟩, ⟨.memdiag, 0o21, .d, "MEMDIAG"⟩,
   ⟨.rdSts, 0o22, .n, "RD_STS"⟩, ⟨.clrSts, 0o23, .d, "CLR_STS"⟩, ⟨.reset, 0o77, .n, "RESET"⟩]

/-- R96: the operations, their codes and formats. -/
def opTable : List OpRow := opTableLow ++ opTableHigh

/-- The row of an operation code; `none` for the reserved codes (R97). -/
def rowOfCode (code : BitVec 6) : Option OpRow := opTable.find? fun row => row.code == code

/-- The row of an operation. Every operation has one (`rowOfOp_complete`); the second branch is never taken. -/
def rowOfOp (op : Op) : OpRow := (opTable.find? fun row => row.op == op).getD ⟨op, 0, .n, ""⟩

/-! ## The fields of CMD (R91) -/

def cmdOp (w : Word) : BitVec 6 := w.extractLsb' 30 6
def cmdM (w : Word) : BitVec 2 := w.extractLsb' 28 2
def cmdK (w : Word) : BitVec 2 := w.extractLsb' 26 2
def cmdR (w : Word) : BitVec 4 := w.extractLsb' 22 4
def cmdX (w : Word) : BitVec 1 := w.extractLsb' 21 1
def cmdLow (w : Word) : BitVec 21 := w.extractLsb' 0 21

/-- CMD made of its fields, bits 20:0 zero (R91). -/
def cmdWord (op : BitVec 6) (m k : BitVec 2) (r : BitVec 4) (x : BitVec 1) : Word :=
  op ++ m ++ k ++ r ++ x ++ (0 : BitVec 21)

/-- The fields a format does not use are zero (R92, R97). -/
def Format.unusedClear (f : Format) (w : Word) : Bool :=
  match f with
  | .n | .v | .d => cmdM w == 0 && cmdK w == 0 && cmdR w == 0 && cmdX w == 0
  | .t => cmdR w == 0 && cmdX w == 0
  | .i => cmdM w == 0 && cmdK w == 0 && cmdX w == 0
  | .a => cmdM w == 0 && cmdK w == 0

/-! ## The codes of the enumerated fields (R91, R94) -/

def MapSel.code : MapSel → BitVec 2
  | .exec => 0
  | .user => 1
  | .phys => 2

def MapSel.ofCode (b : BitVec 2) : Option MapSel :=
  if b = 0 then some .exec else if b = 1 then some .user else if b = 2 then some .phys else none

def Kind.code : Kind → BitVec 2
  | .fetch => 0
  | .read => 1
  | .write => 2

def Kind.ofCode (b : BitVec 2) : Option Kind :=
  if b = 0 then some .fetch else if b = 1 then some .read else if b = 2 then some .write else none

def Seq.code : Seq → BitVec 3
  | .none => 0
  | .indirectFetch => 1
  | .trapInsn => 2
  | .intDelivery => 3
  | .singleStep => 4

def Seq.ofCode (b : BitVec 3) : Option Seq :=
  if b = 0 then some .none else if b = 1 then some .indirectFetch else if b = 2 then some .trapInsn
  else if b = 3 then some .intDelivery else if b = 4 then some .singleStep else Option.none

def AcCtx.code : AcCtx → BitVec 1
  | .current => 0
  | .previous => 1

def AcCtx.ofCode (b : BitVec 1) : AcCtx := if b = 0 then .current else .previous

/-! ## Decoding -/

/-- Why a command is illegal whatever the state and the generation (R97). -/
inductive Reject where
  /-- OP is not in R96's table -/
  | unknownOp
  /-- CMD[20:0] is nonzero -/
  | lowBits
  /-- a CMD field the format does not use is nonzero -/
  | unusedField
  /-- M = 3 -/
  | reservedMap
  /-- K = 3 -/
  | reservedKind
  /-- CTX.seq > 4 on XLATE or PROBE -/
  | reservedSeq
  /-- R > 7 on WR_TB or RD_TB -/
  | indexRange
  deriving DecidableEq, Repr

/-- The operands of format T: M, K, va = DATA[29:0] and CTX (R92, R94, R113). -/
def decodeReference (mk : MapSel → Kind → VAddr → Ctx → Instr) (c : Command) : Except Reject Instr :=
  match MapSel.ofCode (cmdM c.cmd) with
  | none => .error .reservedMap
  | some m =>
    match Kind.ofCode (cmdK c.cmd) with
    | none => .error .reservedKind
    | some k =>
      match Seq.ofCode c.ctx.seq with
      | none => .error .reservedSeq
      | some q => .ok (mk m k (c.data.extractLsb' 0 30) ⟨c.ctx.pc, c.ctx.flags, q, c.ctx.nonint⟩)

/-- The register index of format I (R97). -/
def decodeIndexed (mk : BitVec 4 → Instr) (c : Command) : Except Reject Instr :=
  if tableIndexOk (cmdR c.cmd) then .ok (mk (cmdR c.cmd)) else .error .indexRange

/-- The operands of an operation, each a field of CMD or of DATA's image; bits an image does not define are
ignored (R98, R102 to R107, R113). -/
def decodeOperands (op : Op) (c : Command) : Except Reject Instr :=
  let d := c.data
  match op with
  | .xlate => decodeReference .xlate c
  | .probe => decodeReference .probe c
  | .invalAll => .ok .invalAll
  | .invalOne => .ok (.invalOne (d.extractLsb' 0 30))
  | .wrEbr => .ok (.wrEbr (d.extractLsb' 0 13) (d.getLsbD 13))
  | .rdEbr => .ok .rdEbr
  | .wrUbr => .ok (.wrUbr (d.getLsbD 35) (d.getLsbD 33) (d.extractLsb' 27 3) (d.extractLsb' 24 3) (d.extractLsb' 0 13))
  | .rdUbr => .ok .rdUbr
  | .wrTb => decodeIndexed (fun idx => .wrTb idx d) c
  | .rdTb => decodeIndexed .rdTb c
  | .selAcb => .ok (.selAcb (d.extractLsb' 3 3) (d.extractLsb' 0 3))
  | .acrd => .ok (.acrd (AcCtx.ofCode (cmdX c.cmd)) (cmdR c.cmd))
  | .acwr => .ok (.acwr (AcCtx.ofCode (cmdX c.cmd)) (cmdR c.cmd) d)
  | .armAbk => .ok (.armAbk (d.extractLsb' 32 4) (d.extractLsb' 0 30))
  | .disarmAbk => .ok .disarmAbk
  | .sweep => .ok .sweep
  | .memdiag => .ok (.memdiag (d.extractLsb' 31 5) (d.extractLsb' 0 5))
  | .rdSts => .ok .rdSts
  | .clrSts => .ok (.clrSts (d.extractLsb' 0 3))
  | .reset => .ok .reset

/-- The decoder: total on any bits, independent of the state and of the configuration (R97, R129). -/
def decode (c : Command) : Except Reject Instr :=
  match rowOfCode (cmdOp c.cmd) with
  | none => .error .unknownOp
  | some row =>
    if cmdLow c.cmd ≠ 0 then .error .lowBits
    else if row.format.unusedClear c.cmd = false then .error .unusedField
    else decodeOperands row.op c

/-! ## Encoding -/

def Instr.op : Instr → Op
  | .xlate _ _ _ _ => .xlate
  | .probe _ _ _ _ => .probe
  | .invalAll => .invalAll
  | .invalOne _ => .invalOne
  | .wrEbr _ _ => .wrEbr
  | .rdEbr => .rdEbr
  | .wrUbr _ _ _ _ _ => .wrUbr
  | .rdUbr => .rdUbr
  | .wrTb _ _ => .wrTb
  | .rdTb _ => .rdTb
  | .selAcb _ _ => .selAcb
  | .acrd _ _ => .acrd
  | .acwr _ _ _ => .acwr
  | .armAbk _ _ => .armAbk
  | .disarmAbk => .disarmAbk
  | .sweep => .sweep
  | .memdiag _ _ => .memdiag
  | .rdSts => .rdSts
  | .clrSts _ => .clrSts
  | .reset => .reset

/-- The CMD word of an operation with the given fields; the code is R96's. -/
def encodeCmd (op : Op) (m k : BitVec 2) (r : BitVec 4) (x : BitVec 1) : Word :=
  cmdWord (rowOfOp op).code m k r x

def encodeBit (b : Bool) : BitVec 1 := BitVec.ofBool b

/-- A virtual address as the DATA word of formats T and V (R113). -/
def addressData (va : VAddr) : Word := (0 : BitVec 6) ++ va

/-- The EBR image (R102). -/
def ebrImage (ebp : Ppn) (pge : Bool) : Word := (0 : BitVec 22) ++ encodeBit pge ++ ebp

/-- The UBR image (R103). -/
def ubrImage (selAc ldUbr : Bool) (cab pab : BitVec 3) (ubp : Ppn) : Word :=
  encodeBit selAc ++ (0 : BitVec 1) ++ encodeBit ldUbr ++ (0 : BitVec 3) ++ cab ++ pab ++ (0 : BitVec 11) ++ ubp

/-- The SEL_ACB image (R104). -/
def acselImage (cab pab : BitVec 3) : Word := (0 : BitVec 30) ++ cab ++ pab

/-- The ARM_ABK image (R105). -/
def abkImage (cond : BitVec 4) (va : VAddr) : Word := cond ++ (0 : BitVec 2) ++ va

/-- The MEMDIAG operand (R106). -/
def memdiagImage (ctl fn : BitVec 5) : Word := ctl ++ (0 : BitVec 26) ++ fn

/-- The STS image (R107). -/
def stsImage (sts : BitVec 3) : Word := (0 : BitVec 33) ++ sts

/-- CMD of an instruction (R91, R92, R96). -/
def Instr.cmd (i : Instr) : Word :=
  match i with
  | .xlate m k _ _ => encodeCmd i.op m.code k.code 0 0
  | .probe m k _ _ => encodeCmd i.op m.code k.code 0 0
  | .wrTb idx _ => encodeCmd i.op 0 0 idx 0
  | .rdTb idx => encodeCmd i.op 0 0 idx 0
  | .acrd x r => encodeCmd i.op 0 0 r x.code
  | .acwr x r _ => encodeCmd i.op 0 0 r x.code
  | .invalAll => encodeCmd i.op 0 0 0 0
  | .invalOne _ => encodeCmd i.op 0 0 0 0
  | .wrEbr _ _ => encodeCmd i.op 0 0 0 0
  | .rdEbr => encodeCmd i.op 0 0 0 0
  | .wrUbr _ _ _ _ _ => encodeCmd i.op 0 0 0 0
  | .rdUbr => encodeCmd i.op 0 0 0 0
  | .selAcb _ _ => encodeCmd i.op 0 0 0 0
  | .armAbk _ _ => encodeCmd i.op 0 0 0 0
  | .disarmAbk => encodeCmd i.op 0 0 0 0
  | .sweep => encodeCmd i.op 0 0 0 0
  | .memdiag _ _ => encodeCmd i.op 0 0 0 0
  | .rdSts => encodeCmd i.op 0 0 0 0
  | .clrSts _ => encodeCmd i.op 0 0 0 0
  | .reset => encodeCmd i.op 0 0 0 0

/-- DATA of an instruction, zero where its format ignores it (R92). -/
def Instr.data : Instr → Word
  | .xlate _ _ va _ => addressData va
  | .probe _ _ va _ => addressData va
  | .invalAll => 0
  | .invalOne va => addressData va
  | .wrEbr ebp pge => ebrImage ebp pge
  | .rdEbr => 0
  | .wrUbr selAc ldUbr cab pab ubp => ubrImage selAc ldUbr cab pab ubp
  | .rdUbr => 0
  | .wrTb _ value => value
  | .rdTb _ => 0
  | .selAcb cab pab => acselImage cab pab
  | .acrd _ _ => 0
  | .acwr _ _ value => value
  | .armAbk cond va => abkImage cond va
  | .disarmAbk => 0
  | .sweep => 0
  | .memdiag ctl fn => memdiagImage ctl fn
  | .rdSts => 0
  | .clrSts mask => stsImage mask
  | .reset => 0

def CtxBits.zero : CtxBits := ⟨0, 0, 0, false⟩

def Ctx.bits (c : Ctx) : CtxBits := ⟨c.pc, c.flags, c.seq.code, c.nonint⟩

/-- CTX of an instruction; only XLATE and PROBE read it (R94). -/
def Instr.ctxBits : Instr → CtxBits
  | .xlate _ _ _ ctx => ctx.bits
  | .probe _ _ _ ctx => ctx.bits
  | .invalAll => .zero
  | .invalOne _ => .zero
  | .wrEbr _ _ => .zero
  | .rdEbr => .zero
  | .wrUbr _ _ _ _ _ => .zero
  | .rdUbr => .zero
  | .wrTb _ _ => .zero
  | .rdTb _ => .zero
  | .selAcb _ _ => .zero
  | .acrd _ _ => .zero
  | .acwr _ _ _ => .zero
  | .armAbk _ _ => .zero
  | .disarmAbk => .zero
  | .sweep => .zero
  | .memdiag _ _ => .zero
  | .rdSts => .zero
  | .clrSts _ => .zero
  | .reset => .zero

/-- The command that stands for an instruction. -/
def encode (i : Instr) : Command := ⟨i.cmd, i.data, i.ctxBits⟩

/-! ## The host's view: a command as one number -/

/-- The command a table word of `nbits` bits stands for: CMD in bits 35:0, DATA in bits 71:36, then CTX.pc,
CTX.flags, CTX.seq and CTX.nonint; bits at and above `nbits` are zero. DESIGN CHOICE (A8). -/
def Command.ofTableWord (nbits w : Nat) : Command :=
  let b := w % 2 ^ nbits
  { cmd := BitVec.ofNat 36 b
    data := BitVec.ofNat 36 (b / 2 ^ 36)
    ctx := { pc := BitVec.ofNat 30 (b / 2 ^ 72)
             flags := BitVec.ofNat 13 (b / 2 ^ 102)
             seq := BitVec.ofNat 3 (b / 2 ^ 115)
             nonint := b / 2 ^ 118 % 2 == 1 } }

/-- The instruction the decoder reads from a table word. -/
def decodeTableWord (nbits w : Nat) : Option Instr :=
  match decode (Command.ofTableWord nbits w) with
  | .ok i => some i
  | .error _ => none

/-! ## Pseudo-commands (R111) -/

namespace Pseudo

def pagingOn (ebp : Ppn) : Instr := .wrEbr ebp true
def pagingOff (ebp : Ppn) : Instr := .wrEbr ebp false
def setUbr (ubp : Ppn) : Instr := .wrUbr false true 0 0 ubp
def setAcb (cab pab : BitVec 3) : Instr := .wrUbr true false cab pab 0
def clrpt (va : VAddr) : Instr := .invalOne va
def watch (cond : BitVec 4) (va : VAddr) : Instr := .armAbk cond va
def unwatch : Instr := .armAbk 0 0

end Pseudo

/-! ## Assembler text (R110) -/

/-- A number as R12 writes octal. -/
def octal (n : Nat) : String := "0o" ++ String.ofList (Nat.toDigits 8 n)

def MapSel.text : MapSel → String
  | .exec => "E"
  | .user => "U"
  | .phys => "P"

def Kind.text : Kind → String
  | .fetch => "F"
  | .read => "R"
  | .write => "W"

def AcCtx.text : AcCtx → String
  | .current => "C"
  | .previous => "P"

/-- The operands of an instruction as text, in the order of R110. -/
def Instr.operandText : Instr → List String
  | .xlate m k va _ => [m.text, k.text, octal va.toNat]
  | .probe m k va _ => [m.text, k.text, octal va.toNat]
  | .invalAll => []
  | .invalOne va => [octal va.toNat]
  | .wrEbr ebp pge => [octal (ebrImage ebp pge).toNat]
  | .rdEbr => []
  | .wrUbr selAc ldUbr cab pab ubp => [octal (ubrImage selAc ldUbr cab pab ubp).toNat]
  | .rdUbr => []
  | .wrTb idx value => [octal idx.toNat, octal value.toNat]
  | .rdTb idx => [octal idx.toNat]
  | .selAcb cab pab => [octal (acselImage cab pab).toNat]
  | .acrd x r => [x.text, octal r.toNat]
  | .acwr x r value => [x.text, octal r.toNat, octal value.toNat]
  | .armAbk cond va => [octal (abkImage cond va).toNat]
  | .disarmAbk => []
  | .sweep => []
  | .memdiag ctl fn => [octal (memdiagImage ctl fn).toNat]
  | .rdSts => []
  | .clrSts mask => [octal (stsImage mask).toNat]
  | .reset => []

/-- The name of a sequence code (R94). -/
def Seq.text : Seq → String
  | .none => "NONE"
  | .indirectFetch => "INDIRECT_FETCH"
  | .trapInsn => "TRAP_INSN"
  | .intDelivery => "INT_DELIVERY"
  | .singleStep => "SINGLE_STEP"

/-- The items of the optional context (R110); an item that is zero is left out. -/
def Ctx.text (c : Ctx) : List String :=
  (if c.pc = 0 then [] else ["pc=" ++ octal c.pc.toNat]) ++
  (if c.flags = 0 then [] else ["flags=" ++ octal c.flags.toNat]) ++
  (if c.seq = .none then [] else ["seq=" ++ c.seq.text]) ++
  (if c.nonint then ["nonint=1"] else [])

/-- The context text of an instruction; only XLATE and PROBE carry one. -/
def Instr.contextText : Instr → List String
  | .xlate _ _ _ ctx => ctx.text
  | .probe _ _ _ ctx => ctx.text
  | .invalAll => []
  | .invalOne _ => []
  | .wrEbr _ _ => []
  | .rdEbr => []
  | .wrUbr _ _ _ _ _ => []
  | .rdUbr => []
  | .wrTb _ _ => []
  | .rdTb _ => []
  | .selAcb _ _ => []
  | .acrd _ _ => []
  | .acwr _ _ _ => []
  | .armAbk _ _ => []
  | .disarmAbk => []
  | .sweep => []
  | .memdiag _ _ => []
  | .rdSts => []
  | .clrSts _ => []
  | .reset => []

/-- One line of assembler text (R110): the mnemonic, the operands separated by commas, then the context in
braces when some item of it is given. -/
def Instr.text (i : Instr) : String :=
  let ops := ", ".intercalate i.operandText
  let ctx := i.contextText
  (rowOfOp i.op).mnemonic ++ (if ops = "" then "" else " " ++ ops) ++
  (if ctx = [] then ""
   else " " ++ String.singleton (Char.ofNat 123) ++ ", ".intercalate ctx ++ String.singleton (Char.ofNat 125))

end Sys2Proof
end

