-- ==== Sys2Proof/Machine/State.lean ====
section
/-! DEFINITION. The state of the PU (spec 10_state.md R20 to R48) with the configuration, PhysicalStore and the
ports a run needs beside it, all plain data; the reasons a step can stop; and the state after reset (R47). -/

namespace Sys2Proof.Machine

open Sys2Proof

/-! ## Translation caches (R21 to R23) -/

/-- The access portion of an entry, the pair (vr, vw) (R22, R220). -/
structure Access where
  vr : Bool
  vw : Bool
  deriving DecidableEq, Repr

def Access.none : Access := ⟨false, false⟩

/-- A TranslationEntry (R22). -/
structure Entry where
  acc : Access
  ppn : Ppn
  deriving DecidableEq, Repr

/-- What invalidation and reset write: (vr 0, vw 0, ppn 0) (R23, R47). -/
def Entry.invalid : Entry := ⟨.none, 0⟩

/-- One mode's cache, by virtual page number: strictly rising pages, no entry equal to `Entry.invalid`, which
every unlisted page holds (R21). -/
abbrev Tlb := List (Nat × Entry)

/-- TLB[EXEC] and TLB[USER] (R21). -/
structure Tlbs where
  exec : Tlb
  user : Tlb
  deriving DecidableEq, Repr

/-! ## Pager registers (R26 to R33) -/

/-- The four FLAT_ITS table-base registers, indices 0 to 3 (R31). -/
structure TableBases where
  userLow : BaseAddr
  userHigh : BaseAddr
  execLow : BaseAddr
  execHigh : BaseAddr
  deriving DecidableEq, Repr

/-- The source's "PagerRegisters" (R20). The registers of a generation the PU is not stand at 0 (A15). -/
structure Pager where
  /-- EBR.EBP and EBR.PGE (R26) -/
  ebp : Ppn
  pge : Bool
  /-- EBASE, cached (R27) -/
  ebase : BaseAddr
  /-- UBR.UBP (R28) -/
  ubp : Ppn
  /-- UBASE, cached (R29) -/
  ubase : BaseAddr
  /-- TB (R31) -/
  tb : TableBases
  /-- SPB, CSB, CSM, PUR (R32) -/
  spb : BaseAddr
  csb : BaseAddr
  csm : Word
  pur : Word
  deriving DecidableEq, Repr

/-! ## Accumulator blocks (R30, R35 to R38) -/

/-- One block of 16 registers (R8). -/
abbrev AcBlock := Vector Word 16

/-- The source's "AccumulatorBlockState" (R20). -/
structure AcFile where
  /-- ACSEL.CAB and ACSEL.PAB (R30) -/
  cab : BitVec 3
  pab : BitVec 3
  /-- PLIVE, the "previous block addressing table" (R37) -/
  plive : Bool
  /-- BLK (R35) -/
  blk : Vector AcBlock 8
  /-- SHADOW (R36) -/
  shadow : AcBlock
  deriving DecidableEq, Repr

/-! ## Fault descriptor (R39, R251, R252) -/

/-- FD.tag (R251). -/
inductive Tag where
  | none
  | access
  | walk
  | age
  | abk
  deriving DecidableEq, Repr

/-- FD.cause (R252). -/
inductive Cause where
  | none
  | itsNoAccess
  | itsWriteRo
  | midNoAccess
  | midWriteRo
  | mlSectNoAccess
  | mlPageNoAccess
  | mlWriteRo
  | mlIllSect
  | mlBadType
  | mlNoncore
  | mlAged
  | nxmFlatEntry
  | nxmSectPtr
  | nxmSpt
  | nxmIndirect
  | nxmPagePtr
  | nxmCst
  | ppnRange
  | physmapNxm
  | abk
  deriving DecidableEq, Repr

/-- FD (R39). -/
structure FaultDesc where
  addr : VAddr
  kind : Kind
  map : MapSel
  tag : Tag
  cause : Cause
  nxm : Bool
  isn : Bool
  deriving DecidableEq, Repr

/-- Every field 0 (R47). -/
def FaultDesc.idle : FaultDesc := ⟨0, .fetch, .exec, .none, .none, false, false⟩

/-! ## Address break (R40) -/

structure Abk where
  active : Bool
  page : Nat
  addr : VAddr
  /-- F ++ R ++ W ++ U (R105) -/
  cond : BitVec 4
  /-- ABK.saved[EXEC] and ABK.saved[USER] -/
  savedExec : Access
  savedUser : Access
  deriving DecidableEq, Repr

def Abk.idle : Abk := ⟨false, 0, 0, 0, .none, .none⟩

/-! ## Halt, responses and events -/

/-- FATAL_CODE (R281). -/
inductive FatalCode where
  | none
  | intFault
  | refault
  | abkLimit
  deriving DecidableEq, Repr

/-- The status codes of a response (R101). -/
inductive Status where
  | ok
  | trap
  | softfail
  | intresume
  | fatal
  | illegal
  deriving DecidableEq, Repr

/-- The response (st, r0, r1) (R100). -/
structure Response where
  st : Status
  r0 : Word
  r1 : Word
  deriving DecidableEq, Repr

/-- What a command does that another agent sees as it happens: a word written at the memory port, the undo
handshake (R266), the diagnostic record of a fatal stop (R282). -/
inductive Event where
  | memWrite (pa : Nat) (w : Word)
  | undoReq (seq : Seq) (pc : PcBits) (flags : FlagBits)
  | diag (code : FatalCode) (fd : FaultDesc)
  deriving DecidableEq, Repr

/-! ## The state -/

/-- PhysicalStore: 36-bit words by word address, strictly rising, no word equal to what an unlisted address
reads as (A4, A5). -/
abbrev Memory := List (Nat × Word)

structure State where
  /-- GEN, EXT and every parameter; no step changes it (R6, R46; A1) -/
  cfg : Config
  /-- PhysicalStore (R4f, R60) -/
  mem : Memory
  tlb : Tlbs
  pager : Pager
  acs : AcFile
  fd : FaultDesc
  abk : Abk
  /-- ABK_HITS (R44) -/
  abkHits : Nat
  /-- STS: SWEEP_DONE 0, NXM 1, IOPF 2 (R42) -/
  sts : BitVec 3
  /-- HALTED, FATAL_CODE, IN_TRAP (R43) -/
  halted : Bool
  fatalCode : FatalCode
  inTrap : Bool
  /-- inputs not yet taken, the next first (R90, R16; A6, A7) -/
  port : List Input
  /-- the last response; none before the first (R100; A10) -/
  resp : Option Response
  /-- the events of the last command, the earliest first (A10) -/
  events : List Event
  deriving DecidableEq, Repr

/-- Why a step has no next state. -/
inductive Fault where
  /-- Raised by XLATE and PROBE of a MULTI PU whose walk follows indirect pointers past IND_LIMIT, or for ever
  when IND_LIMIT is unbounded: the command never responds and the machine hangs (R163, U15; A13). Safe: the
  hardware has no next state either. -/
  | indirectChainNeverEnds
  deriving DecidableEq, Repr

/-- Why a step is refused. -/
inductive Refusal where
  /-- Raised by exec's arm of an instruction that has no meaning yet, by its mnemonic. Safe. No arm raises it
  in this model. -/
  | notModelled (mnemonic : String)
  deriving DecidableEq, Repr

/-- The configuration of `State.reset`: MULTI at every default (A2). -/
def Config.atReset : Config := .default .multi

/-- Every pager register at reset, paging off (R47). -/
def Pager.reset : Pager :=
  { ebp := 0, pge := false, ebase := 0, ubp := 0, ubase := 0, tb := ⟨0, 0, 0, 0⟩, spb := 0, csb := 0, csm := 0, pur := 0 }

/-- Blocks (0, 0) selected, PLIVE = 1 (R47). The contents of BLK and SHADOW at power-up are arbitrary in the
spec and 0 here: DESIGN CHOICE (A3), unsafe. -/
def AcFile.reset : AcFile :=
  { cab := 0, pab := 0, plive := true, blk := Vector.replicate 8 (Vector.replicate 16 0), shadow := Vector.replicate 16 0 }

/-- The machine at power-up and after reset (R47, R300, R301), nothing on its port and nothing listed in
memory. -/
def State.reset : State :=
  { cfg := Config.atReset, mem := [], tlb := ⟨[], []⟩, pager := Pager.reset, acs := AcFile.reset, fd := FaultDesc.idle,
    abk := Abk.idle, abkHits := 0, sts := 0, halted := false, fatalCode := .none, inTrap := false, port := [],
    resp := none, events := [] }

end Sys2Proof.Machine
end

