-- ==== Sys2Proof/Machine/Operands.lean ====
section
/-! DEFINITION. Operand forms: the decomposition and composition of addresses (spec 20_memory.md R72, R73), the
words a command returns (30_encoding.md R102 to R108), the fault word and its codes (60_exceptions.md R251 to
R255), the saved and loaded program counter and flags (R272, R273), and the two functions the environment
supplies (R238, R266). -/

namespace Sys2Proof.Machine

open Sys2Proof

/-! ## Virtual addresses -/

/-- A decomposed virtual address: `va` normalised, section, page in the section, offset, virtual page number. -/
structure VParts where
  va : VAddr
  sect : Nat
  pg : BitVec 9
  off : BitVec 9
  vp : Nat
  deriving DecidableEq, Repr

/-- The address an EXT-false PU uses: its low 18 bits (R72). -/
def normaliseVa (cfg : Config) (va : VAddr) : VAddr :=
  if cfg.ext then va else (0 : BitVec 12) ++ va.extractLsb' 0 18

/-- `decompose` of R72. With EXT false the section is 0, since the address has been reduced. -/
def decompose (cfg : Config) (va : VAddr) : VParts :=
  let va := normaliseVa cfg va
  let sect := (va.extractLsb' 18 12).toNat
  let pg := va.extractLsb' 9 9
  { va := va, sect := sect, pg := pg, off := va.extractLsb' 0 9, vp := sect * 512 + pg.toNat }

/-- EXT and sect >= NSECT: the address is in an illegal section and names no entry (R72, R140, R181, R217). -/
def illegalSection (cfg : Config) (p : VParts) : Bool := cfg.ext && decide (cfg.nsect ≤ p.sect)

/-! ## Maps and table halves -/

/-- The map a mode's references name (R91, R95). -/
def modeMap : Mode → MapSel
  | .exec => .exec
  | .user => .user

/-- The 18-bit entry of a word of a flat table: high half for an even page, low half for an odd one (R61). -/
def halfEntry (w : Word) (odd : Bool) : BitVec 18 := if odd then w.extractLsb' 0 18 else w.extractLsb' 18 18

/-! ## Response words -/

/-- ppn << 9 | off as a response word (R73). -/
def physWord (ppn : Nat) (off : BitVec 9) : Word := BitVec.ofNat 36 (ppn * 512 + off.toNat)

/-- The PROBE result: the physical address, CW in bit 34, TW in bit 35 (R108). -/
def probeWord (pa : Word) (tw cw : Bool) : Word := encodeBit tw ++ encodeBit cw ++ pa.extractLsb' 0 34

/-- DATA of a 22-bit table register on write, and its value on read (R186, R187). -/
def baseOfWord (w : Word) : BaseAddr := w.extractLsb' 0 22

def wordOfBase (b : BaseAddr) : Word := (0 : BitVec 14) ++ b

/-- EBP << 9 or UBP << 9, the cached base address (R27, R29). -/
def baseOfPage (p : Ppn) : BaseAddr := p ++ (0 : BitVec 9)

def fatalCodeWord : FatalCode → Word
  | .none => 0
  | .intFault => 1
  | .refault => 2
  | .abkLimit => 3

/-- The number of a status code (R101). -/
def statusCode : Status → BitVec 3
  | .ok => 0
  | .trap => 1
  | .softfail => 2
  | .intresume => 3
  | .fatal => 4
  | .illegal => 5

/-! ## The fault word -/

/-- FD.tag as bits (R251). -/
def tagCode : Tag → BitVec 3
  | .none => 0
  | .access => 1
  | .walk => 2
  | .age => 3
  | .abk => 4

/-- FaultWord(FD) (R255), one layout for every generation (R256; A18). -/
def faultWord (fd : FaultDesc) : Word :=
  fd.map.code ++ fd.kind.code ++ tagCode fd.tag ++ encodeBit fd.isn ++ encodeBit fd.nxm ++ fd.addr.extractLsb' 0 27

/-- FD.cause as a number (R252). -/
def causeCode : Cause → BitVec 6
  | .none => 0
  | .itsNoAccess => 1
  | .itsWriteRo => 2
  | .midNoAccess => 3
  | .midWriteRo => 4
  | .mlSectNoAccess => 5
  | .mlPageNoAccess => 6
  | .mlWriteRo => 7
  | .mlIllSect => 8
  | .mlBadType => 9
  | .mlNoncore => 10
  | .mlAged => 11
  | .nxmFlatEntry => 12
  | .nxmSectPtr => 13
  | .nxmSpt => 14
  | .nxmIndirect => 15
  | .nxmPagePtr => 16
  | .nxmCst => 17
  | .ppnRange => 18
  | .physmapNxm => 19
  | .abk => 20

/-- The human-readable cause string (R252). -/
def causeText : Cause → String
  | .none => ""
  | .itsNoAccess => "ITS: access code is no-access"
  | .itsWriteRo => "ITS: write to read-only page"
  | .midNoAccess => "MID: access bit clear"
  | .midWriteRo => "MID: write bit clear"
  | .mlSectNoAccess => "ML: section pointer is no-access"
  | .mlPageNoAccess => "ML: page pointer is no-access"
  | .mlWriteRo => "ML: accumulated rights lack write"
  | .mlIllSect => "ML: illegal section number"
  | .mlBadType => "ML: reserved pointer type"
  | .mlNoncore => "ML: non-core storage medium"
  | .mlAged => "ML: page aged out"
  | .nxmFlatEntry => "NXM reading flat table entry"
  | .nxmSectPtr => "NXM reading section pointer"
  | .nxmSpt => "NXM reading shared-pointer table"
  | .nxmIndirect => "NXM reading indirect pointer"
  | .nxmPagePtr => "NXM reading page pointer"
  | .nxmCst => "NXM reading status record"
  | .ppnRange => "resolved page beyond physical memory"
  | .physmapNxm => "physical-map address beyond physical memory"
  | .abk => "address break"

/-! ## Program counter and flags in memory -/

/-- The one-word format: flags 35:23, zero 22:18, pc 17:0 (R272). -/
def savedPair (pc : PcBits) (flags : FlagBits) : Word := flags ++ (0 : BitVec 5) ++ pc.extractLsb' 0 18

/-- The flags word of the two-word format (R272). -/
def savedFlags (flags : FlagBits) : Word := flags ++ (0 : BitVec 23)

/-- The PC word of the two-word format (R272). -/
def savedPc (pc : PcBits) : Word := (0 : BitVec 6) ++ pc

/-- The flags of a new-pair word or a new-flags word (R273). -/
def loadedFlags (w : Word) : FlagBits := w.extractLsb' 23 13

/-- The program counter of a one-word new pair (R273). -/
def loadedPcShort (w : Word) : PcBits := (0 : BitVec 12) ++ w.extractLsb' 0 18

/-- The program counter of a two-word new pair (R273). -/
def loadedPc (w : Word) : PcBits := w.extractLsb' 0 30

/-- r0 and r1 of the TRAP response (R101). -/
def pcWord (pc : PcBits) : Word := (0 : BitVec 6) ++ pc

def flagsWord (flags : FlagBits) : Word := (0 : BitVec 23) ++ flags

/-! ## What the environment supplies -/

/-- ExecUndo (R266): the identity on (pc, flags) but where the configuration lists another answer (A11). -/
def execUndo (cfg : Config) (seq : Seq) (pc : PcBits) (flags : FlagBits) : PcBits × FlagBits :=
  match cfg.undo.find? fun row => row.seq == seq && row.pc == pc && row.flags == flags with
  | some row => (row.pc', row.flags')
  | none => (pc, flags)

/-- The default of MEMDIAG_REPLY: controller 0 present with 2^13 pages, every other absent (R238). -/
def memdiagDefault (ctl : BitVec 5) : MemdiagReply := if ctl = 0 then .controller true 0o20000 else .noController

/-- The reply word: PRESENT 35, CTL 34:30 and FN 29:25 echoed, SIZE 13:0, the rest zero (R106); 0 where there is no
such controller (R238). -/
def memdiagWord (ctl fn : BitVec 5) : MemdiagReply → Word
  | .noController => 0
  | .controller present size => BitVec.ofBool present ++ ctl ++ fn ++ (0 : BitVec 11) ++ size

/-- MEMDIAG_REPLY (R236): the default but where the configuration lists another reply (A12). -/
def memdiagReply (cfg : Config) (ctl fn : BitVec 5) : Word :=
  memdiagWord ctl fn
    (match cfg.memdiag.find? fun row => row.ctl == ctl && row.fn == fn with
     | some row => row.reply
     | none => memdiagDefault ctl)

/-- WR_TB and RD_TB with this index exist in the generation: 0 to 3 when FLAT_ITS, 4 to 7 when MULTI (R99). -/
def tableRegisterExists (cfg : Config) (idx : BitVec 4) : Bool :=
  match cfg.gen with
  | .flatIts => decide (idx.toNat ≤ 3)
  | .flatMid => false
  | .multi => decide (4 ≤ idx.toNat ∧ idx.toNat ≤ 7)

end Sys2Proof.Machine
end

