-- ==== Sys2Proof/Machine/Flags.lean ====
section
/-! DEFINITION. Status bits and condition bits: STS (spec 10_state.md R42, 45_diagnostic.md R235 to R242) and the
classification of a fault's cause (60_exceptions.md R253). -/

namespace Sys2Proof.Machine

open Sys2Proof

/-! ## STS (R42, R107) -/

def stsSweepDone : BitVec 3 := 0b001
def stsNxm : BitVec 3 := 0b010
def stsIopf : BitVec 3 := 0b100

/-- A status bit set; the bits are sticky (R240). -/
def setSts (bits : BitVec 3) (s : State) : State := { s with sts := s.sts ||| bits }

/-- STS & ~mask (R240). -/
def clearSts (mask : BitVec 3) (s : State) : State := { s with sts := s.sts &&& ~~~mask }

/-- The three level outputs to the interrupt-priority logic (R242, R285). -/
def stsOutputs (s : State) : Bool × Bool × Bool := (s.sts.getLsbD 0, s.sts.getLsbD 1, s.sts.getLsbD 2)

/-! ## Classify (R253) -/

/-- The condition bits and the tag a cause carries. -/
structure Class where
  tag : Tag
  nxm : Bool
  isn : Bool
  deriving DecidableEq, Repr

def classify : Cause → Class
  | .none => ⟨.none, false, false⟩
  | .itsNoAccess => ⟨.access, false, false⟩
  | .itsWriteRo => ⟨.access, false, false⟩
  | .midNoAccess => ⟨.access, false, false⟩
  | .midWriteRo => ⟨.access, false, false⟩
  | .mlSectNoAccess => ⟨.access, false, false⟩
  | .mlPageNoAccess => ⟨.access, false, false⟩
  | .mlWriteRo => ⟨.access, false, false⟩
  | .mlIllSect => ⟨.walk, false, true⟩
  | .mlBadType => ⟨.walk, false, false⟩
  | .mlNoncore => ⟨.walk, false, false⟩
  | .mlAged => ⟨.age, false, false⟩
  | .nxmFlatEntry => ⟨.walk, true, false⟩
  | .nxmSectPtr => ⟨.walk, true, false⟩
  | .nxmSpt => ⟨.walk, true, false⟩
  | .nxmIndirect => ⟨.walk, true, false⟩
  | .nxmPagePtr => ⟨.walk, true, false⟩
  | .nxmCst => ⟨.walk, true, false⟩
  | .ppnRange => ⟨.walk, true, false⟩
  | .physmapNxm => ⟨.walk, true, false⟩
  | .abk => ⟨.abk, false, false⟩

/-- The descriptor of a failing reference (R254). -/
def describeFault (addr : VAddr) (kind : Kind) (map : MapSel) (cause : Cause) : FaultDesc :=
  let c := classify cause
  { addr := addr, kind := kind, map := map, tag := c.tag, cause := cause, nxm := c.nxm, isn := c.isn }

end Sys2Proof.Machine
end

