-- ==== Sys2Proof/Machine/Sparse.lean ====
section
/-! DEFINITION. Sparse data by a natural-number key in one canonical form: strictly rising keys, no value equal
to the default that an unlisted key holds. PhysicalStore and the translation caches are kept so. -/

namespace Sys2Proof.Machine

/-- The value at key `a`, the default `d` where the key is not listed. -/
def sparseGet {α : Type} (d : α) (m : List (Nat × α)) (a : Nat) : α :=
  match m with
  | [] => d
  | (k, v) :: rest => if a = k then v else sparseGet d rest a

/-- The same data with value `v` at key `a`; storing the default removes the key. -/
def sparsePut {α : Type} [DecidableEq α] (d : α) (a : Nat) (v : α) (m : List (Nat × α)) : List (Nat × α) :=
  match m with
  | [] => if v = d then [] else [(a, v)]
  | (k, w) :: rest =>
    if a < k then (if v = d then (k, w) :: rest else (a, v) :: (k, w) :: rest)
    else if a = k then (if v = d then rest else (a, v) :: rest)
    else (k, w) :: sparsePut d a v rest

/-- The canonical form. -/
abbrev sparseWf {α : Type} (d : α) (m : List (Nat × α)) : Prop :=
  m.Pairwise (fun x y => x.1 < y.1) ∧ ∀ x ∈ m, x.2 ≠ d

end Sys2Proof.Machine
end

