-- ==== Sys2Proof/Machine/Ops.lean ====
section
/-! DEFINITION. The named operations over the state: the prologue and the response of a command, PhysicalStore,
the cache primitives, the accumulator blocks, the address break, and TAKING A FAULT: declare, soft-fail, the
trap sequence, the fatal stop (spec 60_exceptions.md R262 to R280). There is no return from a trap to model
beside it: the PU has no such command (R276). -/

namespace Sys2Proof.Machine

open Sys2Proof

/-! ## Commands and responses -/

/-- What the step of a command answers. -/
abbrev Result := Host.Outcome State Fault Refusal

/-- `respond(st, r0, r1)` (R100). -/
def respond (st : Status) (r0 r1 : Word) (s : State) : State := { s with resp := some ⟨st, r0, r1⟩ }

/-- `respond(OK, r0, 0)`. -/
def respondOk (r0 : Word) (s : State) : State := respond .ok r0 0 s

/-- The event list starts afresh with each command (A10). -/
def beginCommand (s : State) : State := { s with events := [] }

def logEvent (e : Event) (s : State) : State := { s with events := s.events ++ [e] }

/-- An illegal command is answered ILLEGAL and changes no state (R97, R129). -/
def answerIllegal (s : State) : State := respond .illegal 0 0 (beginCommand s)

/-- A command given to a halted PU is answered FATAL and changes nothing (R43, R129). -/
def answerHalted (s : State) : State := respond .fatal (fatalCodeWord s.fatalCode) 0 (beginCommand s)

/-- The prologue every command but RESET begins with (R129): illegal in this configuration, halted, else the
command's own effect. -/
def runCommand (legal : Bool) (effect : State → Result) (s : State) : Result :=
  if legal = false then .next (answerIllegal s)
  else if s.halted then .next (answerHalted s)
  else effect (beginCommand s)

/-! ## The port -/

/-- What a word of PhysicalStore that nothing has stored reads as. DESIGN CHOICE (A4), unsafe. -/
def unlistedWord : Word := 0

/-- PhysicalStore after another user of it stores a word; a store beyond its end writes nothing (R315;
DESIGN CHOICE, A7). -/
def storedMem (cfg : Config) (pa : Nat) (w : Word) (mem : Memory) : Memory :=
  if pa < cfg.physWords then sparsePut unlistedWord pa w mem else mem

/-- A store of another agent between commands (R16, R67, R315; A7). -/
def otherStore (pa : Nat) (w : Word) (s : State) : State := { s with mem := storedMem s.cfg pa w s.mem }

/-! ## PhysicalStore (R13) -/

/-- The canonical form of PhysicalStore. -/
abbrev Memory.wf (m : Memory) : Prop := sparseWf unlistedWord m

/-- The word at an existing address; an unlisted word reads as `unlistedWord` (A4). -/
def memWord (s : State) (pa : Nat) : Word := sparseGet unlistedWord s.mem pa

/-- `MemRead(pa, 1)`; `none` is NXM (R13). -/
def memRead (s : State) (pa : Nat) : Option Word :=
  if pa < s.cfg.physWords then some (memWord s pa) else none

/-- `MemWrite(pa, 1, v)`; `none` is NXM, and then nothing is written (R13). -/
def memWrite (pa : Nat) (w : Word) (s : State) : Option State :=
  if pa < s.cfg.physWords then
    some { s with mem := sparsePut unlistedWord pa w s.mem, events := s.events ++ [.memWrite pa w] }
  else none

/-! ## The cache primitives (R120 to R126) -/

def tlbOf (s : State) : Mode → Tlb
  | .exec => s.tlb.exec
  | .user => s.tlb.user

def setTlb (m : Mode) (t : Tlb) (s : State) : State :=
  match m with
  | .exec => { s with tlb := { s.tlb with exec := t } }
  | .user => { s with tlb := { s.tlb with user := t } }

/-- `Lookup(m, vp)` (R120). -/
def lookup (s : State) (m : Mode) (vp : Nat) : Entry := sparseGet Entry.invalid (tlbOf s m) vp

/-- TLB[m][vp] <- e; `Install` (R125) and the primitives below are made of it. -/
def setEntry (m : Mode) (vp : Nat) (e : Entry) (s : State) : State :=
  setTlb m (sparsePut Entry.invalid vp e (tlbOf s m)) s

/-- The access portion of an entry written, its ppn untouched (R220). -/
def setAccess (m : Mode) (vp : Nat) (a : Access) (s : State) : State :=
  setEntry m vp { lookup s m vp with acc := a } s

/-- `Hit(e, k)` (R121). -/
def hit (e : Entry) (k : Kind) : Bool :=
  match k with
  | .write => e.acc.vw
  | .fetch => e.acc.vr
  | .read => e.acc.vr

/-! ## Address-break state (R40, R219) -/

def condF (cond : BitVec 4) : Bool := cond.getLsbD 3
def condR (cond : BitVec 4) : Bool := cond.getLsbD 2
def condW (cond : BitVec 4) : Bool := cond.getLsbD 1
def condU (cond : BitVec 4) : Bool := cond.getLsbD 0

/-- The mask watches something: one of F, R, W is set (R105). -/
def condNonEmpty (cond : BitVec 4) : Bool := condF cond || condR cond || condW cond

/-- The affected maps of a condition mask (R219). -/
def affected (cond : BitVec 4) (m : Mode) : Bool :=
  match m with
  | .exec => !condU cond
  | .user => true

def savedOf (a : Abk) : Mode → Access
  | .exec => a.savedExec
  | .user => a.savedUser

def setSaved (m : Mode) (v : Access) (s : State) : State :=
  match m with
  | .exec => { s with abk := { s.abk with savedExec := v } }
  | .user => { s with abk := { s.abk with savedUser := v } }

/-- `watched(m, vp)` (R140). -/
def watched (s : State) (m : Mode) (vp : Nat) : Bool :=
  s.cfg.hasAbk && s.abk.active && decide (vp = s.abk.page) && affected s.abk.cond m

/-! ## Invalidation (R126) -/

/-- `InvalidateAll(m)`; the break stays armed, its saved bits of the map become (0, 0) (R224). -/
def invalidateMap (m : Mode) (s : State) : State :=
  let s := setTlb m [] s
  if s.cfg.hasAbk then setSaved m .none s else s

/-- Both caches wholesale, as every command that invalidates does it (R180, R182). -/
def invalidateBoth (s : State) : State := invalidateMap .user (invalidateMap .exec s)

/-- `InvalidateOne(m, vp)` (R126, R224). -/
def invalidatePage (m : Mode) (vp : Nat) (s : State) : State :=
  let s := setEntry m vp Entry.invalid s
  if s.cfg.hasAbk && s.abk.active && decide (vp = s.abk.page) then setSaved m .none s else s

/-! ## Arming and disarming (R216, R217) -/

/-- Disarm's restoring of one map's access bits (R216). -/
def restoreAccess (m : Mode) (s : State) : State :=
  if s.abk.active && affected s.abk.cond m then setAccess m s.abk.page (savedOf s.abk m) s else s

/-- `Disarm()` (R216). -/
def disarm (s : State) : State :=
  let s := restoreAccess .user (restoreAccess .exec s)
  { s with abk := Abk.idle, abkHits := 0 }

/-- Arming's saving and forcing of one map's access bits (R217, R220). -/
def forceAccess (cond : BitVec 4) (vp : Nat) (m : Mode) (s : State) : State :=
  if affected cond m then setAccess m vp .none (setSaved m (lookup s m vp).acc s) else s

/-- The arming of a legal page under a nonempty mask, the prior watch already cleared (R217). -/
def armWatch (cond : BitVec 4) (p : VParts) (s : State) : State :=
  let s := { s with abk := { s.abk with cond := cond, addr := p.va, page := p.vp, active := true } }
  forceAccess cond p.vp .user (forceAccess cond p.vp .exec s)

/-! ## Accumulator blocks (R200 to R203) -/

/-- `Select(nc, np)` on the accumulator file: flush, load, recompute PLIVE (R200). -/
def selectBlocks (nc np : BitVec 3) (f : AcFile) : AcFile :=
  let f :=
    if nc ≠ f.cab then
      let flushed := f.blk.set f.cab.toNat f.shadow
      { f with blk := flushed, shadow := flushed[nc.toNat], cab := nc }
    else f
  { f with pab := np, plive := np == f.cab }

def select (nc np : BitVec 3) (s : State) : State := { s with acs := selectBlocks nc np s.acs }

/-- A register access in context X goes to SHADOW: the current context, or the previous one with PLIVE = 1
(R202, R203). -/
def acUsesShadow (f : AcFile) (x : AcCtx) : Bool :=
  match x with
  | .current => true
  | .previous => f.plive

/-- The value ACRD answers (R202). -/
def acRead (f : AcFile) (x : AcCtx) (r : BitVec 4) : Word :=
  if acUsesShadow f x then f.shadow[r.toNat] else f.blk[f.pab.toNat][r.toNat]

/-- The accumulator file after ACWR (R203). -/
def acWrite (f : AcFile) (x : AcCtx) (r : BitVec 4) (d : Word) : AcFile :=
  if acUsesShadow f x then { f with shadow := f.shadow.set r.toNat d }
  else { f with blk := f.blk.set f.pab.toNat (f.blk[f.pab.toNat].set r.toNat d) }

/-! ## Fatal stop (R280) -/

/-- `raise FatalStop(code)`: halt, emit the diagnostic record (R282), answer FATAL; the rest of the state stays
as the stop found it. -/
def fatalStop (code : FatalCode) (s : State) : State :=
  respond .fatal (fatalCodeWord code) 0
    (logEvent (.diag code s.fd) { s with halted := true, fatalCode := code, inTrap := false })

/-! ## The trap sequence (R264) -/

/-- The sequence code the trap acts on: SINGLE_STEP counts as NONE unless HAS_SSTEP (R264, R266). -/
def effectiveSeq (cfg : Config) (q : Seq) : Seq :=
  if q = .singleStep ∧ cfg.hasSstep = false then .none else q

/-- Step 1, the undo handshake: the request is an event, the answer the pair to save (R266). -/
def undoState (q : Seq) (ctx : Ctx) (s : State) : State :=
  if q = .none then s else logEvent (.undoReq q ctx.pc ctx.flags) s

/-- The program counter and flags to save: as supplied, or as the hook answers (R264, R266). -/
def undoPair (cfg : Config) (q : Seq) (ctx : Ctx) : PcBits × FlagBits :=
  if q = .none then (ctx.pc, ctx.flags) else execUndo cfg q ctx.pc ctx.flags

/-- tbase (R271). -/
def trapTableBase (s : State) : Nat :=
  match s.cfg.trapBase with
  | .user => s.pager.ubase.toNat
  | .exec => s.pager.ebase.toNat

/-- Step 6: the response TRAP with the new program counter and flags (R264, R274). -/
def trapReturn (npc : PcBits) (nfl : FlagBits) (s : State) : State :=
  respond .trap (pcWord npc) (flagsWord nfl) { s with inTrap := false }

/-- Steps 4 to 6 when EXT is false: one word saved, one word loaded (R264, R272, R273). -/
def trapShort (tbase : Nat) (pc : PcBits) (flags : FlagBits) (s : State) : State :=
  match memWrite (tbase + s.cfg.oldOff) (savedPair pc flags) s with
  | none => fatalStop .refault s
  | some s =>
    match memRead s (tbase + s.cfg.newOff) with
    | none => fatalStop .refault s
    | some w => trapReturn (loadedPcShort w) (loadedFlags w) s

/-- Step 5 when EXT is true (R264, R273). -/
def trapLoadLong (tbase : Nat) (s : State) : State :=
  match memRead s (tbase + s.cfg.newOff) with
  | none => fatalStop .refault s
  | some w0 =>
    match memRead s (tbase + s.cfg.newOff + 1) with
    | none => fatalStop .refault s
    | some w1 => trapReturn (loadedPc w1) (loadedFlags w0) s

/-- Steps 4 to 6 when EXT is true: two words saved, two loaded (R264, R272, R273). -/
def trapLong (tbase : Nat) (pc : PcBits) (flags : FlagBits) (s : State) : State :=
  match memWrite (tbase + s.cfg.oldOff) (savedFlags flags) s with
  | none => fatalStop .refault s
  | some s =>
    match memWrite (tbase + s.cfg.oldOff + 1) (savedPc pc) s with
    | none => fatalStop .refault s
    | some s => trapLoadLong tbase s

/-- Steps 3 to 6: the fault word, then the old pair, then the new pair (R264). Writes already made stay made
when a later step stops fatally. -/
def trapDeliver (fw : Word) (pc : PcBits) (flags : FlagBits) (s : State) : State :=
  let tbase := trapTableBase s
  match memWrite (tbase + s.cfg.pfwOff) fw s with
  | none => fatalStop .refault s
  | some s => if s.cfg.ext then trapLong tbase pc flags s else trapShort tbase pc flags s

/-- Step 2, a fault inside interrupt delivery (R268). -/
def interruptAnomaly (fw : Word) (s : State) : State :=
  match s.cfg.intFault with
  | .fatal => fatalStop .intFault s
  | .statusResume => respond .intresume fw 0 { setSts stsIopf s with inTrap := false }

/-- The count of a fault with tag ABK about to be delivered (R226, R270). -/
def countBreak (s : State) : State := if s.fd.tag = .abk then { s with abkHits := s.abkHits + 1 } else s

/-- The count exceeds ABK_HIT_LIMIT (R270); never with the unbounded limit. -/
def breakLimitExceeded (s : State) : Bool :=
  match s.cfg.abkHitLimit with
  | none => false
  | some n => decide (s.fd.tag = .abk) && decide (n < s.abkHits)

/-- `Trap(fw, CTX)`, the steps in order (R264). -/
def trap (fw : Word) (ctx : Ctx) (s : State) : State :=
  let q := effectiveSeq s.cfg ctx.seq
  let pair := undoPair s.cfg q ctx
  let s := undoState q ctx { s with inTrap := true }
  if q = .intDelivery then interruptAnomaly fw s
  else
    let s := countBreak s
    if breakLimitExceeded s then fatalStop .abkLimit s
    else trapDeliver fw pair.1 pair.2 s

/-! ## Declaring a fault (R262) -/

/-- FD overwritten and STS.NXM set where the cause carries the NXM condition (R262). -/
def recordFault (fd : FaultDesc) (s : State) : State :=
  let s := { s with fd := fd }
  if fd.nxm then setSts stsNxm s else s

/-- `raise PageFault(addr, kind, map, cause) with trapAllowed` (R262): the one way a fault is taken. -/
def declareFault (addr : VAddr) (kind : Kind) (map : MapSel) (cause : Cause) (ctx : Ctx) (trapAllowed : Bool)
    (s : State) : State :=
  let fd := describeFault addr kind map cause
  let s := recordFault fd s
  if trapAllowed then trap (faultWord fd) ctx s else respond .softfail (faultWord fd) 0 s

end Sys2Proof.Machine
end

