-- ==== Sys2Proof/Machine/AcBlocks.lean ====
section
/-! DEFINITION. The accumulator-block commands (spec 43_acblocks.md): SEL_ACB, ACRD, ACWR. -/

namespace Sys2Proof.Machine

open Sys2Proof

/-- SEL_ACB (R201). -/
def execSelAcb (cab pab : BitVec 3) (s : State) : Result :=
  runCommand true (fun s => .next (respondOk 0 (select cab pab s))) s

/-- ACRD (R202). -/
def execAcrd (x : AcCtx) (r : BitVec 4) (s : State) : Result :=
  runCommand true (fun s => .next (respondOk (acRead s.acs x r) s)) s

/-- ACWR (R203). -/
def execAcwr (x : AcCtx) (r : BitVec 4) (d : Word) (s : State) : Result :=
  runCommand true (fun s => .next (respondOk 0 { s with acs := acWrite s.acs x r d })) s

end Sys2Proof.Machine
end

