-- ==== Sys2Proof/Machine/AddrBreak.lean ====
section
/-! DEFINITION. The address-break commands (spec 44_addrbreak.md): ARM_ABK, DISARM_ABK. The comparator stands in
the refill (Refill.lean, R222). -/

namespace Sys2Proof.Machine

open Sys2Proof

/-- The effect of ARM_ABK: any prior watch is cleared; an empty mask or an illegal section leaves the break
disarmed (R217). -/
def arm (cond : BitVec 4) (va : VAddr) (s : State) : State :=
  let s := disarm s
  let p := decompose s.cfg va
  if condNonEmpty cond && !illegalSection s.cfg p then armWatch cond p s else s

/-- ARM_ABK, illegal where HAS_ABK is false (R99, R217). -/
def execArmAbk (cond : BitVec 4) (va : VAddr) (s : State) : Result :=
  runCommand s.cfg.hasAbk (fun s => .next (respondOk 0 (arm cond va s))) s

/-- DISARM_ABK, illegal where HAS_ABK is false (R99, R218). -/
def execDisarmAbk (s : State) : Result :=
  runCommand s.cfg.hasAbk (fun s => .next (respondOk 0 (disarm s))) s

end Sys2Proof.Machine
end

