-- ==== Sys2Proof/Machine/Diagnostic.lean ====
section
/-! DEFINITION. The diagnostic operations and the status register (spec 45_diagnostic.md): SWEEP, MEMDIAG, RD_STS,
CLR_STS. -/

namespace Sys2Proof.Machine

open Sys2Proof

/-- SWEEP: a status bit and nothing else (R235). -/
def execSweep (s : State) : Result :=
  runCommand true (fun s => .next (respondOk 0 (setSts stsSweepDone s))) s

/-- MEMDIAG: a fixed function of the operand (R236, R238). -/
def execMemdiag (ctl fn : BitVec 5) (s : State) : Result :=
  runCommand true (fun s => .next (respondOk (memdiagReply s.cfg ctl fn) s)) s

/-- RD_STS: reading does not clear (R239). -/
def execRdSts (s : State) : Result :=
  runCommand true (fun s => .next (respondOk (stsImage s.sts) s)) s

/-- CLR_STS (R240). -/
def execClrSts (mask : BitVec 3) (s : State) : Result :=
  runCommand true (fun s => .next (respondOk 0 (clearSts mask s))) s

end Sys2Proof.Machine
end

