-- ==== Sys2Proof/Machine/Maintenance.lean ====
section
/-! DEFINITION. Cache maintenance and the pager registers (spec 42_maintenance.md): INVAL_ALL, INVAL_ONE, WR_EBR,
RD_EBR, WR_UBR, RD_UBR, WR_TB, RD_TB. -/

namespace Sys2Proof.Machine

open Sys2Proof

/-- INVAL_ALL (R180). -/
def execInvalAll (s : State) : Result :=
  runCommand true (fun s => .next (respondOk 0 (invalidateBoth s))) s

/-- The page of an address invalidated in both maps; an illegal section names no entry (R181). -/
def invalidateAddress (va : VAddr) (s : State) : State :=
  let p := decompose s.cfg va
  if illegalSection s.cfg p then s else invalidatePage .user p.vp (invalidatePage .exec p.vp s)

/-- INVAL_ONE (R181). -/
def execInvalOne (va : VAddr) (s : State) : Result :=
  runCommand true (fun s => .next (respondOk 0 (invalidateAddress va s))) s

/-- EBR and the cached EBASE written (R27, R182). -/
def loadEbr (ebp : Ppn) (pge : Bool) (s : State) : State :=
  { s with pager := { s.pager with ebp := ebp, pge := pge, ebase := baseOfPage ebp } }

/-- WR_EBR: the invalidation is unconditional (R182). -/
def execWrEbr (ebp : Ppn) (pge : Bool) (s : State) : Result :=
  runCommand true (fun s => .next (respondOk 0 (invalidateBoth (loadEbr ebp pge s)))) s

/-- RD_EBR (R183). -/
def execRdEbr (s : State) : Result :=
  runCommand true (fun s => .next (respondOk (ebrImage s.pager.ebp s.pager.pge) s)) s

/-- UBR and the cached UBASE written (R29, R184). -/
def loadUbr (ubp : Ppn) (s : State) : State :=
  { s with pager := { s.pager with ubp := ubp, ubase := baseOfPage ubp } }

/-- The effect of WR_UBR: each flag by itself, Select whatever PGE is (R184, R205). -/
def writeUbr (selAc ldUbr : Bool) (cab pab : BitVec 3) (ubp : Ppn) (s : State) : State :=
  let s := if selAc then select cab pab s else s
  if ldUbr then invalidateBoth (loadUbr ubp s) else s

/-- WR_UBR (R184). -/
def execWrUbr (selAc ldUbr : Bool) (cab pab : BitVec 3) (ubp : Ppn) (s : State) : Result :=
  runCommand true (fun s => .next (respondOk 0 (writeUbr selAc ldUbr cab pab ubp s))) s

/-- RD_UBR: both flags read as 1 (R103, R185). -/
def execRdUbr (s : State) : Result :=
  runCommand true (fun s => .next (respondOk (ubrImage true true s.acs.cab s.acs.pab s.pager.ubp) s)) s

/-- The table registers with register `idx` written; a 22-bit register keeps DATA[21:0] (R186). -/
def writeTable (idx : BitVec 4) (d : Word) (p : Pager) : Pager :=
  let b := baseOfWord d
  match idx.toNat with
  | 0 => { p with tb := { p.tb with userLow := b } }
  | 1 => { p with tb := { p.tb with userHigh := b } }
  | 2 => { p with tb := { p.tb with execLow := b } }
  | 3 => { p with tb := { p.tb with execHigh := b } }
  | 4 => { p with spb := b }
  | 5 => { p with csb := b }
  | 6 => { p with csm := d }
  | 7 => { p with pur := d }
  | _ => p

def loadTable (idx : BitVec 4) (d : Word) (s : State) : State := { s with pager := writeTable idx d s.pager }

/-- WR_TB: illegal where the generation lacks the register; every write invalidates (R99, R186). -/
def execWrTb (idx : BitVec 4) (d : Word) (s : State) : Result :=
  runCommand (tableRegisterExists s.cfg idx) (fun s => .next (respondOk 0 (invalidateBoth (loadTable idx d s)))) s

/-- The value of table register `idx`, zero-extended to 36 bits (R187). -/
def readTable (idx : BitVec 4) (p : Pager) : Word :=
  match idx.toNat with
  | 0 => wordOfBase p.tb.userLow
  | 1 => wordOfBase p.tb.userHigh
  | 2 => wordOfBase p.tb.execLow
  | 3 => wordOfBase p.tb.execHigh
  | 4 => wordOfBase p.spb
  | 5 => wordOfBase p.csb
  | 6 => p.csm
  | 7 => p.pur
  | _ => 0

/-- RD_TB (R99, R187). -/
def execRdTb (idx : BitVec 4) (s : State) : Result :=
  runCommand (tableRegisterExists s.cfg idx) (fun s => .next (respondOk (readTable idx s.pager) s)) s

end Sys2Proof.Machine
end

