-- ==== Sys2Proof/Machine/ResetCmd.lean ====
section
/-! DEFINITION. The RESET command (spec 70_reset_and_hazards.md R301). -/

namespace Sys2Proof.Machine

open Sys2Proof

/-- The "global pager reset" (R301): Select(0, 0) keeps every accumulator's architectural value, the address break
is dropped and not disarmed, PhysicalStore is not touched. -/
def pagerReset (s : State) : State :=
  let s := select 0 0 s
  { s with
    tlb := ⟨[], []⟩
    pager := { ebp := 0, pge := false, ebase := 0, ubp := 0, ubase := 0, tb := ⟨0, 0, 0, 0⟩, spb := 0, csb := 0, csm := 0, pur := 0 }
    fd := FaultDesc.idle
    abk := Abk.idle
    abkHits := 0
    sts := 0
    halted := false
    fatalCode := .none
    inTrap := false }

/-- RESET, the one command a halted PU accepts (R129, R301). -/
def execReset (s : State) : Result := .next (respondOk 0 (pagerReset (beginCommand s)))

end Sys2Proof.Machine
end

