-- ==== Sys2Proof/Machine/Refill.lean ====
section
/-! DEFINITION. The refill engine (spec 41_refill.md): the three walkers' resolve phases, the address-break
comparator (44_addrbreak.md R222), the commit phase and the frame that joins them (R140). -/

namespace Sys2Proof.Machine

open Sys2Proof

/-- The result of a resolve phase (R142): a failure by cause, a page with its write permission and the status
record (address and word) to be updated, or a walk that never ends (R163). -/
inductive Resolved where
  | ok (ppn : Nat) (wperm : Bool) (status : Option (Nat × Word))
  | fail (c : Cause)
  | diverge
  deriving DecidableEq, Repr

/-- The final range test of every resolve phase (R168): a page at or beyond PHYS_PAGES fails. -/
def inRange (cfg : Config) (ppn : Nat) (r : Resolved) : Resolved :=
  if cfg.physPages ≤ ppn then .fail .ppnRange else r

/-! ## Paging off (R141) -/

def resolveIdentity (s : State) (vp : Nat) : Resolved := inRange s.cfg vp (.ok vp true none)

/-! ## FLAT_ITS (R144 to R147) -/

/-- TB[m][half]; the half is the top bit of the page number (R31, R144). -/
def itsBase (s : State) (m : Mode) (high : Bool) : BaseAddr :=
  match m with
  | .user => if high then s.pager.tb.userHigh else s.pager.tb.userLow
  | .exec => if high then s.pager.tb.execHigh else s.pager.tb.execLow

/-- The word address of the entry pair of a page (R146). -/
def itsEntryAddress (s : State) (m : Mode) (pg : BitVec 9) : Nat :=
  (itsBase s m (pg.getLsbD 8)).toNat + (pg.extractLsb' 0 8).toNat / 2

/-- The checks on a FLAT_ITS entry: ACC 17:16, PPN 12:0 (R145, R146). -/
def itsEntry (s : State) (e : BitVec 18) (k : Kind) : Resolved :=
  let acc := e.extractLsb' 16 2
  let ppn := (e.extractLsb' 0 13).toNat
  if acc = 0 then .fail .itsNoAccess
  else if k = .write ∧ acc ≠ 3 then .fail .itsWriteRo
  else inRange s.cfg ppn (.ok ppn (acc == 3) none)

/-- `ResolveIts` (R146). -/
def resolveIts (s : State) (m : Mode) (pg : BitVec 9) (k : Kind) : Resolved :=
  match memRead s (itsEntryAddress s m pg) with
  | none => .fail .nxmFlatEntry
  | some w => itsEntry s (halfEntry w (pg.getLsbD 0)) k

/-! ## FLAT_MID (R148 to R151) -/

/-- The word address of the entry pair of a page, the four rows of R148. -/
def midEntryAddress (s : State) (m : Mode) (pg : BitVec 9) : Nat :=
  let ubase := s.pager.ubase.toNat
  let ebase := s.pager.ebase.toNat
  let n := pg.toNat
  match m with
  | .user => ubase + n / 2
  | .exec =>
    if 0o400 ≤ n then ebase + s.cfg.midHiOff + (n - 0o400) / 2
    else if 0o340 ≤ n then ubase + s.cfg.midPpOff + (n - 0o340) / 2
    else ebase + s.cfg.midLoOff + n / 2

/-- The checks on a FLAT_MID entry: A 17, W 15, PPN 12:0 (R149, R150). -/
def midEntry (s : State) (e : BitVec 18) (k : Kind) : Resolved :=
  let ppn := (e.extractLsb' 0 13).toNat
  if e.getLsbD 17 = false then .fail .midNoAccess
  else if k = .write ∧ e.getLsbD 15 = false then .fail .midWriteRo
  else inRange s.cfg ppn (.ok ppn (e.getLsbD 15) none)

/-- `ResolveMid` (R150). -/
def resolveMid (s : State) (m : Mode) (pg : BitVec 9) (k : Kind) : Resolved :=
  match memRead s (midEntryAddress s m pg) with
  | none => .fail .nxmFlatEntry
  | some w => midEntry s (halfEntry w (pg.getLsbD 0)) k

/-! ## MULTI: pointers (R155 to R161) -/

/-- The fields of a pointer word (R156); MEDIUM and PAGE of an SPT entry stand at the same bits (R158). -/
def ptrType (w : Word) : BitVec 3 := w.extractLsb' 33 3
def ptrRights (w : Word) : BitVec 4 := w.extractLsb' 29 4
def ptrIndex (w : Word) : Nat := (w.extractLsb' 18 9).toNat
def ptrMedium (w : Word) : BitVec 6 := w.extractLsb' 18 6
def ptrPage (w : Word) : Nat := (w.extractLsb' 0 18).toNat

/-- Which no-access cause a walk reports (R157). -/
inductive Level where
  | sect
  | page
  deriving DecidableEq, Repr

def noAccessCause : Level → Cause
  | .sect => .mlSectNoAccess
  | .page => .mlPageNoAccess

/-- One turn of EvalPtr's loop (R159): a failure, the page reached, or an indirect pointer's next pointer to be
read at `a`; the rights are those accumulated with this pointer's (R161). -/
inductive PtrStep where
  | fail (c : Cause)
  | page (pn : Nat) (rts : BitVec 4)
  | follow (a : Nat) (rts : BitVec 4)
  deriving DecidableEq, Repr

/-- The shared-pointer-table part of a turn, types 2 and 3 (R158, R159). -/
def ptrThroughSpt (s : State) (ptr : Word) (rts : BitVec 4) : PtrStep :=
  match memRead s (s.pager.spb.toNat + ptrPage ptr) with
  | none => .fail .nxmSpt
  | some e =>
    if ptrMedium e ≠ 0 then .fail .mlNoncore
    else if ptrType ptr = 2 then .page (ptrPage e) rts
    else .follow (ptrPage e * 512 + ptrIndex ptr) rts

/-- One turn of EvalPtr's loop (R157, R159, R161). -/
def ptrStep (s : State) (level : Level) (ptr : Word) (rts : BitVec 4) : PtrStep :=
  let t := ptrType ptr
  if t = 0 then .fail (noAccessCause level)
  else if 4 ≤ t.toNat then .fail .mlBadType
  else
    let rts := rts &&& ptrRights ptr
    if t = 1 then (if ptrMedium ptr ≠ 0 then .fail .mlNoncore else .page (ptrPage ptr) rts)
    else ptrThroughSpt s ptr rts

/-- What EvalPtr gives (R159): a page with the rights and the indirect steps still allowed, a failure, or no
end. -/
inductive PtrResult where
  | page (pn : Nat) (rts : BitVec 4) (left : Nat)
  | fail (c : Cause)
  | diverge
  deriving DecidableEq, Repr

/-- `EvalPtr` (R159); `left` is how many more indirect steps the walk may take, IND_LIMIT − n (R163). -/
def evalPtr (s : State) (level : Level) (left : Nat) (ptr : Word) (rts : BitVec 4) : PtrResult :=
  match ptrStep s level ptr rts with
  | .fail c => .fail c
  | .page pn rts => .page pn rts left
  | .follow a rts =>
    match left with
    | 0 => .diverge
    | left + 1 =>
      match memRead s a with
      | none => .fail .nxmIndirect
      | some next => evalPtr s level left next rts

/-- The indirect steps one walk may take (R163). Unbounded: a walk that takes more than PHYS_WORDS steps at one
level has read some pointer twice and never ends, so twice PHYS_WORDS + 1, for the two levels, tells the walks
that end from those that do not (A13). -/
def indirectAllowance (cfg : Config) : Nat :=
  match cfg.indLimit with
  | some n => n
  | none => 2 * (cfg.physWords + 1)

/-! ## MULTI: the walk and its final level (R160, R162, R164, R166) -/

/-- The AGE field of a status record (R162). -/
def statusAge (w : Word) : BitVec 6 := w.extractLsb' 30 6

/-- The age and write-permission tests of the final level (R164). -/
def checkStatus (ppn : Nat) (wperm : Bool) (k : Kind) (ca : Nat) (c : Word) : Resolved :=
  if statusAge c = 0 then .fail .mlAged
  else if k = .write ∧ wperm = false then .fail .mlWriteRo
  else .ok ppn wperm (some (ca, c))

/-- `ResolveFinal` (R164); with CSB = 0 there is no status table (R166). -/
def resolveFinal (s : State) (ppn : Nat) (rts : BitVec 4) (k : Kind) : Resolved :=
  let wperm := rts.getLsbD 2
  inRange s.cfg ppn
    (if s.pager.csb = 0 then (if k = .write ∧ wperm = false then .fail .mlWriteRo else .ok ppn wperm none)
     else
      match memRead s (s.pager.csb.toNat + ppn) with
      | none => .fail .nxmCst
      | some c => checkStatus ppn wperm k (s.pager.csb.toNat + ppn) c)

/-- The page-pointer half of the walk, the page table being page `pt` (R160). -/
def resolvePagePointer (s : State) (pt : Nat) (rts : BitVec 4) (left : Nat) (pg : BitVec 9) (k : Kind) : Resolved :=
  match memRead s (pt * 512 + pg.toNat) with
  | none => .fail .nxmPagePtr
  | some pp =>
    match evalPtr s .page left pp rts with
    | .fail c => .fail c
    | .diverge => .diverge
    | .page ppn rts _ => resolveFinal s ppn rts k

/-- base(m) + SECT_OFF + s, the word of a section's pointer (R155). -/
def sectionPointerAddress (s : State) (m : Mode) (sect : Nat) : Nat :=
  (match m with
   | .user => s.pager.ubase.toNat
   | .exec => s.pager.ebase.toNat) + s.cfg.sectOff + sect

/-- `ResolveMulti` (R160). -/
def resolveMulti (s : State) (m : Mode) (sect : Nat) (pg : BitVec 9) (k : Kind) : Resolved :=
  match memRead s (sectionPointerAddress s m sect) with
  | none => .fail .nxmSectPtr
  | some sp =>
    match evalPtr s .sect (indirectAllowance s.cfg) sp 0b1111 with
    | .fail c => .fail c
    | .diverge => .diverge
    | .page pt rts left => resolvePagePointer s pt rts left pg k

/-! ## The refill frame (R140) -/

/-- The resolve phase of the state: the identity map while paging is off, else the walker of GEN (R140). -/
def resolve (s : State) (m : Mode) (p : VParts) (k : Kind) : Resolved :=
  if s.pager.pge = false then resolveIdentity s p.vp
  else
    match s.cfg.gen with
    | .flatIts => resolveIts s m p.pg k
    | .flatMid => resolveMid s m p.pg k
    | .multi => resolveMulti s m p.sect p.pg k

/-- The kind's bit of the condition mask (R222). -/
def condKind (cond : BitVec 4) (k : Kind) : Bool :=
  match k with
  | .fetch => condF cond
  | .read => condR cond
  | .write => condW cond

/-- `AbkMatch` (R222). -/
def abkMatch (s : State) (m : Mode) (p : VParts) (k : Kind) (nonint : Bool) : Bool :=
  s.cfg.hasAbk && s.abk.active && decide (p.vp = s.abk.page) &&
  (decide (s.cfg.abkGranule = .page) || p.va == s.abk.addr) &&
  condKind s.abk.cond k && (!condU s.abk.cond || decide (m = .user)) && !nonint

/-- The status record as the commit phase writes it (R165). -/
def statusUpdate (s : State) (c : Word) (k : Kind) : Word :=
  let c2 := (c &&& s.pager.csm) ||| s.pager.pur
  if k = .write then c2 ||| 1 else c2

/-- The write permission of the entry a commit installs: wperm, and with a status record also M as just written
(R141, R147, R151, R165). -/
def grantedWrite (s : State) (wperm : Bool) (status : Option (Nat × Word)) (k : Kind) : Bool :=
  match status with
  | none => wperm
  | some (_, c) => wperm && (statusUpdate s c k).getLsbD 0

/-- The memory part of the commit phase. The record was read in the resolve phase, so its write cannot be NXM
(R165); the second branch is never taken. -/
def commitStatus (status : Option (Nat × Word)) (k : Kind) (s : State) : State :=
  match status with
  | none => s
  | some (ca, c) => (memWrite ca (statusUpdate s c k) s).getD s

/-- The entry a refill installs: vr = 1, vw as granted (R140). -/
def refillEntry (ppn : Nat) (vw : Bool) : Entry := ⟨⟨true, vw⟩, BitVec.ofNat 13 ppn⟩

/-- ABK.saved[m] follows the entry installed over the watched page (R223). -/
def followSaved (m : Mode) (vp : Nat) (acc : Access) (s : State) : State :=
  if watched s m vp then setSaved m acc s else s

/-- The commit phase and the installation (R140, R165, R223). -/
def commitRefill (m : Mode) (vp : Nat) (k : Kind) (ppn : Nat) (wperm : Bool) (status : Option (Nat × Word))
    (s : State) : State :=
  let e := refillEntry ppn (grantedWrite s wperm status k)
  followSaved m vp e.acc (setEntry m vp e (commitStatus status k s))

/-- r0 of a completed refill: the physical address, or PROBE's word (R108, R140). -/
def refillWord (isProbe : Bool) (ppn : Nat) (off : BitVec 9) (wperm vw : Bool) : Word :=
  if isProbe then probeWord (physWord ppn off) wperm vw else physWord ppn off

/-- A resolved reference completed, or stopped by the address break (R140, R221). -/
def finishRefill (isProbe : Bool) (m : Mode) (p : VParts) (k : Kind) (ctx : Ctx) (ppn : Nat) (wperm : Bool)
    (status : Option (Nat × Word)) (s : State) : State :=
  if abkMatch s m p k ctx.nonint then declareFault p.va k (modeMap m) .abk ctx (!isProbe) s
  else
    respondOk (refillWord isProbe ppn p.off wperm (grantedWrite s wperm status k))
      (commitRefill m p.vp k ppn wperm status s)

/-- `Refill(m, va, k, CTX, trapAllowed)` with trapAllowed false for PROBE (R140). -/
def refill (isProbe : Bool) (m : Mode) (va : VAddr) (k : Kind) (ctx : Ctx) (s : State) : Result :=
  let p := decompose s.cfg va
  if illegalSection s.cfg p then .next (declareFault p.va k (modeMap m) .mlIllSect ctx (!isProbe) s)
  else
    match resolve s m p k with
    | .diverge => .fault .indirectChainNeverEnds
    | .fail c => .next (declareFault p.va k (modeMap m) c ctx (!isProbe) s)
    | .ok ppn wperm status => .next (finishRefill isProbe m p k ctx ppn wperm status s)

end Sys2Proof.Machine
end

