-- ==== Sys2Proof/Machine/Translate.lean ====
section
/-! DEFINITION. XLATE and PROBE (spec 40_translate.md). -/

namespace Sys2Proof.Machine

open Sys2Proof

/-- pa = va[21:0] of a reference through the physical map (R124). -/
def physMapAddress (va : VAddr) : BitVec 22 := va.extractLsb' 0 22

/-- `PhysMap(K, va, CTX, trapAllowed)` (R124); PROBE's word has TW = CW = 1. -/
def physMap (isProbe : Bool) (k : Kind) (va : VAddr) (ctx : Ctx) (s : State) : State :=
  let pa := physMapAddress va
  let word : Word := (0 : BitVec 14) ++ pa
  if pa.toNat < s.cfg.physWords then respondOk (if isProbe then probeWord word true true else word) s
  else declareFault ((0 : BitVec 8) ++ pa) k .phys .physmapNxm ctx (!isProbe) s

/-- A reference to a cached map: answered by the cache on a hit, else refilled. An address in an illegal section
has no entry and goes to the refill (R122). -/
def translate (m : Mode) (k : Kind) (va : VAddr) (ctx : Ctx) (s : State) : Result :=
  let p := decompose s.cfg va
  let e := lookup s m p.vp
  if illegalSection s.cfg p = false ∧ hit e k then .next (respondOk (physWord e.ppn.toNat p.off) s)
  else refill false m va k ctx s

/-- The effect of XLATE (R122). -/
def xlateEffect (m : MapSel) (k : Kind) (va : VAddr) (ctx : Ctx) (s : State) : Result :=
  match m with
  | .phys => .next (physMap false k va ctx s)
  | .exec => translate .exec k va ctx s
  | .user => translate .user k va ctx s

/-- The effect of PROBE: the tables are always walked, nothing traps (R127). -/
def probeEffect (m : MapSel) (k : Kind) (va : VAddr) (ctx : Ctx) (s : State) : Result :=
  match m with
  | .phys => .next (physMap true k va ctx s)
  | .exec => refill true .exec va k ctx s
  | .user => refill true .user va k ctx s

/-- XLATE (R122). -/
def execXlate (m : MapSel) (k : Kind) (va : VAddr) (ctx : Ctx) (s : State) : Result :=
  runCommand true (xlateEffect m k va ctx) s

/-- PROBE (R127). -/
def execProbe (m : MapSel) (k : Kind) (va : VAddr) (ctx : Ctx) (s : State) : Result :=
  runCommand true (probeEffect m k va ctx) s

end Sys2Proof.Machine
end

