-- ==== Sys2Proof/Machine/Dispatch.lean ====
section
/-! DEFINITION. From each instruction to its meaning, one arm per constructor of Instr. -/

namespace Sys2Proof.Machine

open Sys2Proof

def exec (i : Instr) (s : State) : Host.Outcome State Fault Refusal :=
  match i with
  | .xlate m k va ctx => Sys2Proof.Machine.execXlate m k va ctx s
  | .probe m k va ctx => Sys2Proof.Machine.execProbe m k va ctx s
  | .invalAll => Sys2Proof.Machine.execInvalAll s
  | .invalOne va => Sys2Proof.Machine.execInvalOne va s
  | .wrEbr ebp pge => Sys2Proof.Machine.execWrEbr ebp pge s
  | .rdEbr => Sys2Proof.Machine.execRdEbr s
  | .wrUbr selAc ldUbr cab pab ubp => Sys2Proof.Machine.execWrUbr selAc ldUbr cab pab ubp s
  | .rdUbr => Sys2Proof.Machine.execRdUbr s
  | .wrTb idx value => Sys2Proof.Machine.execWrTb idx value s
  | .rdTb idx => Sys2Proof.Machine.execRdTb idx s
  | .selAcb cab pab => Sys2Proof.Machine.execSelAcb cab pab s
  | .acrd x r => Sys2Proof.Machine.execAcrd x r s
  | .acwr x r value => Sys2Proof.Machine.execAcwr x r value s
  | .armAbk cond va => Sys2Proof.Machine.execArmAbk cond va s
  | .disarmAbk => Sys2Proof.Machine.execDisarmAbk s
  | .sweep => Sys2Proof.Machine.execSweep s
  | .memdiag ctl fn => Sys2Proof.Machine.execMemdiag ctl fn s
  | .rdSts => Sys2Proof.Machine.execRdSts s
  | .clrSts mask => Sys2Proof.Machine.execClrSts mask s
  | .reset => Sys2Proof.Machine.execReset s

end Sys2Proof.Machine
end

