-- ==== Sys2Proof/Machine/Step.lean ====
section
/-! DEFINITION. One step: the next input of the port is taken (spec 30_encoding.md R90, 00_scope.md R15, R16;
A6, A7). A command is decoded and performed whole; one that does not decode is answered ILLEGAL (R97, R129);
another agent's store changes PhysicalStore; with nothing on the port the PU does nothing. -/

namespace Sys2Proof.Machine

open Sys2Proof

def step (s : State) : Host.Outcome State Fault Refusal :=
  match s.port with
  | [] => .next s
  | .store pa w :: rest => .next (otherStore pa w { s with port := rest })
  | .command c :: rest =>
    match decode c with
    | .ok i => exec i { s with port := rest }
    | .error _ => .next (answerIllegal { s with port := rest })

/-- The command a table word stands for, presented next (A8). -/
def State.withFetchWord (s : State) (nbits w : Nat) : State :=
  { s with port := .command (Command.ofTableWord nbits w) :: s.port }

end Sys2Proof.Machine
end

