-- ==== Sys2Proof/Safety.lean ====
section
/-! DEFINITION. What counts as a safe run, in the terms the statements use: which instructions are legal, what an
instruction leaves unchanged, the architectural accumulators, pointer chains as a relation, the outcomes of a
reference, and the invariant every step keeps. -/

namespace Sys2Proof.Machine

open Sys2Proof

/-! ## Legality -/

/-- The instruction exists in this configuration (R99). -/
def legalHere (cfg : Config) : Instr → Bool
  | .wrTb idx _ => tableRegisterExists cfg idx
  | .rdTb idx => tableRegisterExists cfg idx
  | .armAbk _ _ => cfg.hasAbk
  | .disarmAbk => cfg.hasAbk
  | .xlate _ _ _ _ => true
  | .probe _ _ _ _ => true
  | .invalAll => true
  | .invalOne _ => true
  | .wrEbr _ _ => true
  | .rdEbr => true
  | .wrUbr _ _ _ _ _ => true
  | .rdUbr => true
  | .selAcb _ _ => true
  | .acrd _ _ => true
  | .acwr _ _ _ => true
  | .sweep => true
  | .memdiag _ _ => true
  | .rdSts => true
  | .clrSts _ => true
  | .reset => true

/-- The operation codes of R96, and those whose format uses M and K, R, X (R92). -/
def legalCodes : List Nat :=
  [0o01, 0o02, 0o03, 0o04, 0o05, 0o06, 0o07, 0o10, 0o11, 0o12] ++
  [0o13, 0o14, 0o15, 0o16, 0o17, 0o20, 0o21, 0o22, 0o23, 0o77]

def referenceCodes : List Nat := [0o01, 0o02]
def indexCodes : List Nat := [0o11, 0o12]
def accumulatorCodes : List Nat := [0o14, 0o15]

/-- R97, clause by clause, on the numbers of the fields of CMD and on CTX.seq. -/
def IllegalCommand (c : Command) : Prop :=
  let w := c.cmd.toNat
  let op := w / 2 ^ 30
  let m := w / 2 ^ 28 % 4
  let k := w / 2 ^ 26 % 4
  let r := w / 2 ^ 22 % 16
  let x := w / 2 ^ 21 % 2
  op ∉ legalCodes ∨ w % 2 ^ 21 ≠ 0 ∨
  ((m ≠ 0 ∨ k ≠ 0) ∧ op ∉ referenceCodes) ∨
  (r ≠ 0 ∧ op ∉ indexCodes ∧ op ∉ accumulatorCodes) ∨
  (x ≠ 0 ∧ op ∉ accumulatorCodes) ∨
  (op ∈ referenceCodes ∧ (m = 3 ∨ k = 3 ∨ 4 < c.ctx.seq.toNat)) ∨
  (op ∈ indexCodes ∧ 7 < r)

/-- The bits of DATA an instruction's image defines (R98, R102 to R107, R113); the others are ignored. -/
def definedData : Instr → Word
  | .xlate _ _ _ _ => 0o007777777777
  | .probe _ _ _ _ => 0o007777777777
  | .invalAll => 0
  | .invalOne _ => 0o007777777777
  | .wrEbr _ _ => 0o000000037777
  | .rdEbr => 0
  | .wrUbr _ _ _ _ _ => 0o507700017777
  | .rdUbr => 0
  | .wrTb _ _ => 0o777777777777
  | .rdTb _ => 0
  | .selAcb _ _ => 0o000000000077
  | .acrd _ _ => 0
  | .acwr _ _ _ => 0o777777777777
  | .armAbk _ _ => 0o747777777777
  | .disarmAbk => 0
  | .sweep => 0
  | .memdiag _ _ => 0o760000000037
  | .rdSts => 0
  | .clrSts _ => 0o000000000007
  | .reset => 0

/-! ## Frames -/

/-- The parts of the state a frame names. -/
inductive Part where
  | mem | tlb | pager | acs | fd | abk | abkHits | sts | halt
  deriving DecidableEq, Repr

/-- The part reads in `t` as in `s`: memory and the caches through their reads, the others whole. -/
def samePart (s t : State) : Part → Prop
  | .mem => ∀ pa, memRead t pa = memRead s pa
  | .tlb => ∀ m vp, lookup t m vp = lookup s m vp
  | .pager => t.pager = s.pager
  | .acs => t.acs = s.acs
  | .fd => t.fd = s.fd
  | .abk => t.abk = s.abk
  | .abkHits => t.abkHits = s.abkHits
  | .sts => t.sts = s.sts
  | .halt => t.halted = s.halted ∧ t.fatalCode = s.fatalCode ∧ t.inTrap = s.inTrap

/-- Everything but the named parts is unchanged; the configuration and the inputs still to come always are. -/
def Unchanged (changed : List Part) (s t : State) : Prop :=
  t.cfg = s.cfg ∧ t.port = s.port ∧ ∀ p, p ∉ changed → samePart s t p

/-- `t` answers (st, r0, r1). -/
abbrev Answers (t : State) (st : Status) (r0 r1 : Word) : Prop := t.resp = some ⟨st, r0, r1⟩

/-- Every entry of both caches is invalid (R23). -/
def AllInvalid (t : State) : Prop := ∀ m vp, lookup t m vp = Entry.invalid

/-- The saved access bits after an invalidation of both maps: (0, 0) where there is an address break, the rest
of the break as it was (R126, R224). -/
def SavedCleared (s t : State) : Prop :=
  t.abk = if s.cfg.hasAbk then { s.abk with savedExec := .none, savedUser := .none } else s.abk

/-- The command is answered ILLEGAL and changes nothing (R97, R99). -/
def AnswersIllegal (i : Instr) (s : State) : Prop :=
  ∃ t, exec i s = .next t ∧ Answers t .illegal 0 0 ∧ t.events = [] ∧ Unchanged [] s t

/-- WR_TB and RD_TB with this index exist: 0 to 3 when FLAT_ITS, 4 to 7 when MULTI (R99, R186). -/
def LegalTableIndex (cfg : Config) (idx : BitVec 4) : Prop :=
  (cfg.gen = .flatIts ∧ idx.toNat ≤ 3) ∨ (cfg.gen = .multi ∧ 4 ≤ idx.toNat ∧ idx.toNat ≤ 7)

/-- The entries as clearing the watch leaves them: the saved pairs back in the affected maps (R216). -/
def entryDisarmed (s : State) (m : Mode) (vp : Nat) : Entry :=
  if s.abk.active = true ∧ vp = s.abk.page ∧ (m = .user ∨ s.abk.cond.getLsbD 0 = false)
  then { lookup s m vp with acc := savedOf s.abk m } else lookup s m vp

/-! ## Accumulators -/

/-- The architectural value of register `r` of block `b` (R38a). -/
def archReg (f : AcFile) (b : BitVec 3) (r : BitVec 4) : Word :=
  if b = f.cab then f.shadow[r.toNat] else f.blk[b.toNat][r.toNat]

/-- The block an access in context `x` is about (R37, R202). -/
def contextBlock (f : AcFile) : AcCtx → BitVec 3
  | .current => f.cab
  | .previous => f.pab

/-! ## Pointer chains (R156 to R161) -/

/-- The chain of pointers from `p` ends at page `pn` after `n` indirect steps, `rs` the rights of the pointers
traversed. -/
inductive PtrChain (s : State) : Word → List (BitVec 4) → Nat → Nat → Prop where
  | immediate (p : Word) : ptrType p = 1 → ptrMedium p = 0 → PtrChain s p [ptrRights p] (ptrPage p) 0
  | shared (p e : Word) : ptrType p = 2 → memRead s (s.pager.spb.toNat + ptrPage p) = some e → ptrMedium e = 0 →
      PtrChain s p [ptrRights p] (ptrPage e) 0
  | indirect (p e next : Word) (rs : List (BitVec 4)) (pn n : Nat) : ptrType p = 3 →
      memRead s (s.pager.spb.toNat + ptrPage p) = some e → ptrMedium e = 0 →
      memRead s (ptrPage e * 512 + ptrIndex p) = some next → PtrChain s next rs pn n →
      PtrChain s p (ptrRights p :: rs) pn (n + 1)

/-- The chain of pointers from `p` breaks with cause `c`, `n` indirect steps taken; a step whose pointer word does not
exist counts, as R159 counts it (R157, R158, R167). -/
inductive PtrFails (s : State) (level : Level) : Word → Cause → Nat → Prop where
  | sectNoAccess (p : Word) : ptrType p = 0 → level = .sect → PtrFails s level p .mlSectNoAccess 0
  | pageNoAccess (p : Word) : ptrType p = 0 → level = .page → PtrFails s level p .mlPageNoAccess 0
  | badType (p : Word) : 4 ≤ (ptrType p).toNat → PtrFails s level p .mlBadType 0
  | immediateNoncore (p : Word) : ptrType p = 1 → ptrMedium p ≠ 0 → PtrFails s level p .mlNoncore 0
  | noShared (p : Word) : ptrType p = 2 ∨ ptrType p = 3 → memRead s (s.pager.spb.toNat + ptrPage p) = none →
      PtrFails s level p .nxmSpt 0
  | sharedNoncore (p e : Word) : ptrType p = 2 ∨ ptrType p = 3 →
      memRead s (s.pager.spb.toNat + ptrPage p) = some e → ptrMedium e ≠ 0 → PtrFails s level p .mlNoncore 0
  | noNext (p e : Word) : ptrType p = 3 → memRead s (s.pager.spb.toNat + ptrPage p) = some e → ptrMedium e = 0 →
      memRead s (ptrPage e * 512 + ptrIndex p) = none → PtrFails s level p .nxmIndirect 1
  | indirect (p e next : Word) (c : Cause) (n : Nat) : ptrType p = 3 →
      memRead s (s.pager.spb.toNat + ptrPage p) = some e → ptrMedium e = 0 →
      memRead s (ptrPage e * 512 + ptrIndex p) = some next → PtrFails s level next c n →
      PtrFails s level p c (n + 1)

/-- The rights of a walk: the AND of all traversed (R161). -/
def allRights (start : BitVec 4) (rs : List (BitVec 4)) : BitVec 4 := rs.foldl (fun a r => a &&& r) start

/-! ## Outcomes of a reference -/

/-- A fault declared with trapping suppressed (R262): FD and STS.NXM and nothing else, the fault word returned. -/
def SoftFailed (s t : State) (addr : VAddr) (k : Kind) (m : MapSel) (c : Cause) : Prop :=
  t.fd = describeFault addr k m c ∧ Answers t .softfail (faultWord t.fd) 0 ∧
  t.sts = (if t.fd.nxm then s.sts ||| stsNxm else s.sts) ∧ t.events = [] ∧ Unchanged [.fd, .sts] s t

/-- The break's saved bits of map `m` follow an entry installed over the watched page, and only then (R223). -/
def SavedFollows (s t : State) (m : Mode) (vp : Nat) (acc : Access) : Prop :=
  t.abk = if watched s m vp then (setSaved m acc s).abk else s.abk

/-- A refill installed `e` at (m, vp) and answered `r0`; memory apart, nothing else changed (R140). -/
def Installed (s t : State) (m : Mode) (vp : Nat) (e : Entry) (r0 : Word) : Prop :=
  Answers t .ok r0 0 ∧ lookup t m vp = e ∧ (∀ m' vp', (m', vp') ≠ (m, vp) → lookup t m' vp' = lookup s m' vp') ∧
  SavedFollows s t m vp e.acc ∧ Unchanged [.mem, .tlb, .abk] s t

/-- The reference is not answered by a cache: the physical map, an illegal section, or a miss (R121, R122). -/
def NotCached (s : State) (m : MapSel) (k : Kind) (va : VAddr) : Prop :=
  let p := decompose s.cfg va
  match m with
  | .phys => True
  | .exec => illegalSection s.cfg p = true ∨ hit (lookup s .exec p.vp) k = false
  | .user => illegalSection s.cfg p = true ∨ hit (lookup s .user p.vp) k = false

/-- A reference to map `m` that the tables refuse: PROBE of it soft-fails with fault word `w`, and no cache
answers it (R122, R127). -/
def FailingReference (s : State) (m : MapSel) (k : Kind) (va : VAddr) (ctx : Ctx) (u : State) (w : Word) : Prop :=
  exec (.probe m k va ctx) s = .next u ∧ Answers u .softfail w 0 ∧ NotCached s m k va

/-- The hit limit lets the break of descriptor `fd` be delivered (R270). -/
def WithinHitLimit (s : State) (fd : FaultDesc) : Prop :=
  fd.tag = .abk → ∀ n, s.cfg.abkHitLimit = some n → s.abkHits + 1 ≤ n

/-- Every trap location exists (R271). -/
def TrapAreaExists (s : State) : Prop :=
  ∀ off ∈ s.cfg.trapOffsets, trapTableBase s + off < s.cfg.physWords

/-- The words a trap stores to: the fault word and the old pair (R264, R271). -/
def trapStores (s : State) : List Nat :=
  let b := trapTableBase s
  if s.cfg.ext then [b + s.cfg.pfwOff, b + s.cfg.oldOff, b + s.cfg.oldOff + 1] else [b + s.cfg.pfwOff, b + s.cfg.oldOff]

/-! ## The invariant -/

/-- An entry a cache may hold: its page exists, and valid for write implies valid for read (R24, R125). -/
def entryOk (cfg : Config) (e : Entry) : Prop := e.ppn.toNat < cfg.physPages ∧ (e.acc.vw = true → e.acc.vr = true)

/-- What every step keeps. -/
structure Inv (s : State) : Prop where
  /-- the configuration obeys R7, R9, R10, R271 -/
  config : s.cfg.wf
  /-- PhysicalStore is in canonical form and lists no word beyond its end (R10, R13) -/
  memCanonical : Memory.wf s.mem
  memInside : ∀ pa, memWord s pa ≠ unlistedWord → pa < s.cfg.physWords
  /-- the caches are in canonical form, hold pages below NVP only (R21) and legal entries only (R24, R125) -/
  tlbCanonical : ∀ m, sparseWf Entry.invalid (tlbOf s m)
  tlbPages : ∀ m vp, lookup s m vp ≠ Entry.invalid → vp < s.cfg.nvp
  tlbEntries : ∀ m vp, entryOk s.cfg (lookup s m vp)
  /-- the cached bases follow the raw registers (R27, R29) -/
  execBase : s.pager.ebase = baseOfPage s.pager.ebp
  userBase : s.pager.ubase = baseOfPage s.pager.ubp
  /-- the registers of other generations stand at 0 (R31, R32) -/
  noTables : s.cfg.gen ≠ .flatIts → s.pager.tb = ⟨0, 0, 0, 0⟩
  noMulti : s.cfg.gen ≠ .multi → s.pager.spb = 0 ∧ s.pager.csb = 0 ∧ s.pager.csm = 0 ∧ s.pager.pur = 0
  /-- PLIVE = 1 iff PAB = CAB (R37) -/
  prevTable : s.acs.plive = (s.acs.pab == s.acs.cab)
  /-- FATAL_CODE is 0 exactly when the PU is not halted (R43, R281) -/
  haltCode : s.halted = true ↔ s.fatalCode ≠ .none
  /-- IN_TRAP is 0 at every command boundary (R43) -/
  notInTrap : s.inTrap = false
  /-- without HAS_ABK, or with no watch armed, the break is idle and nothing is counted (R40, R215, R216) -/
  abkPresent : s.abk.active = true → s.cfg.hasAbk = true
  abkIdle : s.abk.active = false → s.abk = Abk.idle ∧ s.abkHits = 0
  /-- an armed watch has a nonempty mask and watches the page of its address (R217) -/
  abkWatch : s.abk.active = true → condNonEmpty s.abk.cond = true ∧ s.abk.page < s.cfg.nvp ∧
    normaliseVa s.cfg s.abk.addr = s.abk.addr ∧ (decompose s.cfg s.abk.addr).vp = s.abk.page
  /-- the saved pairs are access pairs of entries, and (0, 0) for a map the watch does not touch (R220, R225d) -/
  abkSaved : ∀ m, (savedOf s.abk m).vw = true → (savedOf s.abk m).vr = true
  abkUntouched : ∀ m, affected s.abk.cond m = false → savedOf s.abk m = .none
  /-- the watched page's entry is forced off, or its access bits are the saved pair: Disarm never writes an older
  pair over a newer one (R223, R224) -/
  abkTrue : s.abk.active = true → ∀ m, affected s.abk.cond m = true →
    (lookup s m s.abk.page).acc = .none ∨ (lookup s m s.abk.page).acc = savedOf s.abk m

end Sys2Proof.Machine
end

