-- ==== Sys2Proof/Certificates/Slice0/Obligations.lean ====
section
/-! DEFINITION. The statements for the provers, from the numbered rules of spec/. -/

open Sys2Proof Sys2Proof.Machine

/-! ## Decoding and the step -/

/-- R91, R92, R96: no bit of an encoding is dropped, for every well-formed instruction and every operand. -/
def Obligations.DecodeOfEncodeIsTheInstruction : Prop :=
  ∀ i : Instr, i.wellFormed = true → decode (encode i) = .ok i

/-- R91, R98, R102 to R107, R113: the other direction. Whatever decodes is well-formed, its own encoding has the same
CMD word, the same DATA in the bits the image defines, and for XLATE and PROBE the same CTX; the DATA bits the image
does not define are ignored. -/
def Obligations.DecodedCommandWordIsItsEncoding : Prop :=
  ∀ (c : Command) (i : Instr), decode c = .ok i →
    i.wellFormed = true ∧ (encode i).cmd = c.cmd ∧ (encode i).data = c.data &&& definedData i ∧
    (i.op = .xlate ∨ i.op = .probe → (encode i).ctx = c.ctx)

/-- R97: a command is illegal exactly in the cases the rule lists; it is answered ILLEGAL, and but for the answer
and the emptied event list nothing changes; every other command decodes. -/
def Obligations.IllegalCommandAnswersIllegal : Prop :=
  ∀ (s : State) (c : Command) (rest : List Input), s.port = .command c :: rest →
    (IllegalCommand c →
      step s = .next { s with port := rest, resp := some ⟨.illegal, 0, 0⟩, events := [] }) ∧
    (¬ IllegalCommand c → ∃ i, decode c = .ok i)

/-- R15, R90: a step takes the next command and performs the instruction it decodes to; a table word set up by
`withFetchWord` is run next. Which other inputs there are, and that an empty port leaves the PU as it is, is the
model's choice (A6, A7). -/
def Obligations.StepRunsTheDecodedInstruction : Prop :=
  (∀ (s : State) (c : Command) (rest : List Input) (i : Instr), s.port = .command c :: rest → decode c = .ok i →
    step s = exec i { s with port := rest }) ∧
  (∀ (s : State) (nbits w : Nat) (i : Instr), decodeTableWord nbits w = some i →
    step (s.withFetchWord nbits w) = exec i s) ∧
  (∀ (s : State), s.port = [] → step s = .next s)

/-- The CMD and DATA words of spec 95_test_vectors.md part 2 and of the rules' examples decode to the
instructions they stand for. -/
def Obligations.SpecCommandWordsDecode : Prop :=
  decode ⟨0o012400000000, 0o000000001234, .zero⟩ = .ok (.xlate .user .read 0o1234 ⟨0, 0, .none, false⟩) ∧
  decode ⟨0o023000000000, 0o000000001234, .zero⟩ = .ok (.probe .user .write 0o1234 ⟨0, 0, .none, false⟩) ∧
  decode ⟨0o040000000000, 0o000000001777, .zero⟩ = .ok (.invalOne 0o1777) ∧
  decode ⟨0o050000000000, 0o000000020002, .zero⟩ = .ok (.wrEbr 2 true) ∧
  decode ⟨0o070000000000, 0o501000000003, .zero⟩ = .ok (.wrUbr true true 1 0 3) ∧
  decode ⟨0o110100000000, 0o000000005000, .zero⟩ = .ok (.wrTb 4 0o5000) ∧
  decode ⟨0o130000000000, 0o000000000012, .zero⟩ = .ok (.selAcb 1 2) ∧
  decode ⟨0o140370000000, 0, .zero⟩ = .ok (.acrd .previous 15) ∧
  decode ⟨0o160000000000, 0o100000001234, .zero⟩ = .ok (.armAbk 0b0010 0o1234) ∧
  decode ⟨0o210000000000, 0o020000000000, .zero⟩ = .ok (.memdiag 1 0) ∧
  decode ⟨0o230000000000, 0o000000000001, .zero⟩ = .ok (.clrSts 1) ∧
  decode ⟨0o770000000000, 0, .zero⟩ = .ok .reset

/-- R67: what another agent, or the loop, stores between two commands is what the next read of that word gives,
whatever the PU did before, and the PU's own state does not change. Three clauses are the model's choices and no rule's:
that a store beyond the end of PhysicalStore has no effect (DESIGN CHOICE, log entry 7), and that the last response and
the event list stay as they were over the store (DESIGN CHOICE, log entry 19). -/
def Obligations.OtherAgentsStoreIsReadBack : Prop :=
  ∀ (s : State) (pa : Nat) (w : Word) (rest : List Input), Memory.wf s.mem → s.port = .store pa w :: rest →
    ∃ t, step s = .next t ∧
      (∀ a, memRead t a = if a = pa ∧ pa < s.cfg.physWords then some w else memRead s a) ∧
      Unchanged [.mem] { s with port := rest } t ∧ t.resp = s.resp ∧ t.events = s.events

/-! ## The invariant -/

/-- Every step from a state with the invariant leads to a state with it: canonical memory and caches, existing
pages only, vw implies vr (R24), the cached bases (R27, R29), PLIVE (R37), the halt code (R43), the idle address
break without a watch and the true saved bits with one (R223, R224). And the configuration never changes (R6, R46). -/
def Obligations.EveryStepKeepsTheInvariant : Prop :=
  ∀ s t : State, Inv s → step s = .next t → Inv t ∧ t.cfg = s.cfg

/-- The reset state of the model's chosen configuration (A2) has the invariant. -/
def Obligations.ResetStateHasTheInvariant : Prop := Inv State.reset

/-! ## Whole-machine rules -/

/-- R15, R163: every command is answered, whatever the state; the one exception is an XLATE that no cache answers, or a
PROBE, of a paged MULTI PU, to a legal section, whose walk follows more indirect pointers than the configuration allows
it (EvalPtrFollowsPointerChains and ExhaustedWalkNeverEnds say which walks these are). Nothing is refused. -/
def Obligations.EveryCommandIsAnsweredUnlessTheWalkHangs : Prop :=
  ∀ (i : Instr) (s : State),
    (∃ t, exec i s = .next t ∧ t.resp ≠ none) ∨
    (exec i s = .fault .indirectChainNeverEnds ∧ s.cfg.gen = .multi ∧ s.pager.pge = true ∧ s.halted = false ∧
      ∃ (m : Mode) (k : Kind) (va : VAddr) (ctx : Ctx),
        illegalSection s.cfg (decompose s.cfg va) = false ∧ resolve s m (decompose s.cfg va) k = .diverge ∧
        ((i = .xlate (modeMap m) k va ctx ∧ NotCached s (modeMap m) k va) ∨ i = .probe (modeMap m) k va ctx))

/-- R99, R129: WR_TB and RD_TB with an index the generation lacks, and ARM_ABK and DISARM_ABK without HAS_ABK, are
answered ILLEGAL, halted or not; then a halted PU answers FATAL with its code to everything but RESET; neither changes
anything. -/
def Obligations.PrologueAnswersIllegalThenFatal : Prop :=
  ∀ (i : Instr) (s : State),
    let absent := (∃ idx, ((∃ d, i = .wrTb idx d) ∨ i = .rdTb idx) ∧
        ¬ ((s.cfg.gen = .flatIts ∧ idx.toNat ≤ 3) ∨ (s.cfg.gen = .multi ∧ 4 ≤ idx.toNat ∧ idx.toNat ≤ 7))) ∨
      (((∃ cond va, i = .armAbk cond va) ∨ i = .disarmAbk) ∧ s.cfg.hasAbk = false)
    (absent → ∃ t, exec i s = .next t ∧ Answers t .illegal 0 0 ∧ t.events = [] ∧ Unchanged [] s t) ∧
    (¬ absent → s.halted = true → i ≠ .reset →
      ∃ t, exec i s = .next t ∧ Answers t .fatal (fatalCodeWord s.fatalCode) 0 ∧ t.events = [] ∧ Unchanged [] s t)

/-- R64, of writes: only XLATE and PROBE write PhysicalStore; and of PROBE only a MULTI refill with a status table
writes. -/
def Obligations.OnlyReferencesWritePhysicalStore : Prop :=
  ∀ (i : Instr) (s t : State), exec i s = .next t →
    ((∀ m k va ctx, i ≠ .xlate m k va ctx) → (∀ m k va ctx, i ≠ .probe m k va ctx) → t.mem = s.mem ∧ t.events = []) ∧
    (∀ m k va ctx, i = .probe m k va ctx → (s.cfg.gen ≠ .multi ∨ s.pager.csb = 0) → t.mem = s.mem ∧ t.events = [])

/-- R250: only XLATE and PROBE raise a fault: no other command but RESET, which clears it, writes FD, and no other
answers TRAP, SOFTFAIL or INTRESUME or halts the PU. -/
def Obligations.OnlyReferencesRaiseFaults : Prop :=
  ∀ (i : Instr) (s t : State), exec i s = .next t →
    (∀ m k va ctx, i ≠ .xlate m k va ctx) → (∀ m k va ctx, i ≠ .probe m k va ctx) →
    (i = .reset ∧ t.fd = FaultDesc.idle ∨ t.fd = s.fd) ∧ (t.halted = true → s.halted = true) ∧
    (∀ r, t.resp = some r → r.st ≠ .trap ∧ r.st ≠ .softfail ∧ r.st ≠ .intresume)

/-- R205, R204: ACSEL changes by RESET, WR_UBR and SEL_ACB only, and the architectural value of a register by ACWR
only. -/
def Obligations.AccumulatorsChangeOnlyByTheirCommands : Prop :=
  ∀ (i : Instr) (s t : State), exec i s = .next t →
    ((t.acs.cab ≠ s.acs.cab ∨ t.acs.pab ≠ s.acs.pab) →
      i = .reset ∨ (∃ c p, i = .selAcb c p) ∨ (∃ l c p u, i = .wrUbr true l c p u)) ∧
    ((∀ x r d, i ≠ .acwr x r d) → ∀ b r, archReg t.acs b r = archReg s.acs b r)

/-- R241: SWEEP_DONE is set by SWEEP only, NXM by XLATE and PROBE only, IOPF by XLATE only; a bit is cleared by
CLR_STS and RESET only. -/
def Obligations.StatusBitsAreSetAndClearedByTheirCommandsOnly : Prop :=
  ∀ (i : Instr) (s t : State), exec i s = .next t →
    (s.sts.getLsbD 0 = false → t.sts.getLsbD 0 = true → i = .sweep) ∧
    (s.sts.getLsbD 1 = false → t.sts.getLsbD 1 = true →
      (∃ m k va ctx, i = .xlate m k va ctx) ∨ (∃ m k va ctx, i = .probe m k va ctx)) ∧
    (s.sts.getLsbD 2 = false → t.sts.getLsbD 2 = true → ∃ m k va ctx, i = .xlate m k va ctx) ∧
    (∀ b : Nat, s.sts.getLsbD b = true → t.sts.getLsbD b = false → i = .reset ∨ ∃ mask, i = .clrSts mask)

/-- R43: HALTED is set by XLATE only, with one of the three codes of R281 and the answer FATAL, and cleared by RESET
only. -/
def Obligations.HaltIsSetByXlateAndClearedByReset : Prop :=
  ∀ (i : Instr) (s t : State), exec i s = .next t →
    (s.halted = false → t.halted = true →
      (∃ m k va ctx, i = .xlate m k va ctx) ∧ t.fatalCode ≠ .none ∧ Answers t .fatal (fatalCodeWord t.fatalCode) 0) ∧
    (s.halted = true → t.halted = false → i = .reset)

/-- R188c: a command that is not one of the discarding ones of R188a and R188b, nor ARM_ABK, discards no valid
entry, but that a refill replaces the one entry it installs. -/
def Obligations.NoOtherCommandDiscardsAnEntry : Prop :=
  ∀ (i : Instr) (s t : State), Inv s → exec i s = .next t →
    i ≠ .invalAll → (∀ va, i ≠ .invalOne va) → (∀ e p, i ≠ .wrEbr e p) → (∀ a c p u, i ≠ .wrUbr a true c p u) →
    (∀ x d, i ≠ .wrTb x d) → i ≠ .reset → (∀ c va, i ≠ .armAbk c va) →
    ∀ m vp, (lookup s m vp).acc ≠ .none →
      lookup t m vp = lookup s m vp ∨
      ∃ k va ctx, (i = .xlate (modeMap m) k va ctx ∨ i = .probe (modeMap m) k va ctx) ∧
        vp = (decompose s.cfg va).vp ∧ (lookup t m vp).acc.vr = true

/-! ## Translation: the cache and the physical map -/

/-- R121, R122: a reference a cache answers completes with ppn << 9 | off; nothing is written and PhysicalStore is not
touched. FETCH and READ need vr, WRITE needs vw. -/
def Obligations.XlateHitAnswersFromTheCache : Prop :=
  ∀ (s : State) (m : Mode) (k : Kind) (va : VAddr) (ctx : Ctx), s.halted = false →
    let p := decompose s.cfg va
    illegalSection s.cfg p = false →
    ((k = .write ∧ (lookup s m p.vp).acc.vw = true) ∨ ((k = .fetch ∨ k = .read) ∧ (lookup s m p.vp).acc.vr = true)) →
    ∃ t, exec (.xlate (modeMap m) k va ctx) s = .next t ∧
      t.resp = some ⟨.ok, BitVec.ofNat 36 ((lookup s m p.vp).ppn.toNat * 512 + p.off.toNat), 0⟩ ∧
      t.events = [] ∧ t.mem = s.mem ∧ Unchanged [] s t

/-- R124: the physical map answers every existing address, whatever the tables and PGE, and PROBE with TW = CW = 1;
beyond the end PROBE soft-fails with PHYSMAP_NXM. (XLATE beyond the end traps: the trap statements.) -/
def Obligations.PhysicalMapIsTheIdentityWhereMemoryExists : Prop :=
  ∀ (s : State) (k : Kind) (va : VAddr) (ctx : Ctx), s.halted = false →
    let pa := va.toNat % 2 ^ 22
    (pa < s.cfg.physWords →
      (∃ t, exec (.xlate .phys k va ctx) s = .next t ∧ Answers t .ok (BitVec.ofNat 36 pa) 0 ∧ t.events = [] ∧
        Unchanged [] s t) ∧
      (∃ t, exec (.probe .phys k va ctx) s = .next t ∧
        Answers t .ok (BitVec.ofNat 36 (2 ^ 35 + 2 ^ 34 + pa)) 0 ∧ t.events = [] ∧ Unchanged [] s t)) ∧
    (s.cfg.physWords ≤ pa →
      ∃ t, exec (.probe .phys k va ctx) s = .next t ∧ SoftFailed s t (BitVec.ofNat 30 pa) k .phys .physmapNxm)

/-- R122 corner case b, R21: after a reference that completed, every reference of that kind to that page in that
mode, with nothing between, is answered by the cache: same page, its own offset, nothing written. -/
def Obligations.SecondReferenceToAPageHits : Prop :=
  ∀ (s t : State) (m : Mode) (k : Kind) (va va' : VAddr) (ctx ctx' : Ctx) (r0 r1 : Word),
    Inv s → s.halted = false →
    exec (.xlate (modeMap m) k va ctx) s = .next t → Answers t .ok r0 r1 →
    (decompose s.cfg va').vp = (decompose s.cfg va).vp →
    ∃ u, exec (.xlate (modeMap m) k va' ctx') t = .next u ∧
      Answers u .ok (BitVec.ofNat 36 (r0.toNat / 512 * 512 + (decompose s.cfg va').off.toNat)) 0 ∧
      u.events = [] ∧ Unchanged [] t u

/-- R127: PROBE answers OK or SOFTFAIL and nothing else; when it soft-fails, only FD and STS.NXM change, the word is
FD's fault word, and no undo and no memory write happens, whatever CTX.seq is. -/
def Obligations.ProbeCompletesOrSoftFails : Prop :=
  ∀ (s t : State) (m : MapSel) (k : Kind) (va : VAddr) (ctx : Ctx), s.halted = false →
    exec (.probe m k va ctx) s = .next t →
    (∃ r0, Answers t .ok r0 0) ∨
    (Answers t .softfail (faultWord t.fd) 0 ∧ t.events = [] ∧ Unchanged [.fd, .sts] s t ∧
      t.sts = (if t.fd.nxm then s.sts ||| 0b010 else s.sts))

/-- R122, R127, R140: where no cache answers, XLATE does with PROBE's walk: it completes with the same entry
installed and the same memory, its answer the address without TW and CW. -/
def Obligations.XlateMissInstallsWhatProbeInstalls : Prop :=
  ∀ (s u : State) (m : MapSel) (k : Kind) (va : VAddr) (ctx : Ctx) (w : Word), Inv s → s.halted = false →
    NotCached s m k va → exec (.probe m k va ctx) s = .next u → Answers u .ok w 0 →
    exec (.xlate m k va ctx) s = .next { u with resp := some ⟨.ok, BitVec.ofNat 36 (w.toNat % 2 ^ 22), 0⟩ }

/-! ## The walkers (each read through PROBE, which always walks, R127) -/

/-- R141: with paging off a page below PHYS_PAGES is mapped to itself, read and write, no word of memory read or
written; a page beyond fails with PPN_RANGE. -/
def Obligations.PagingOffIsTheIdentityMap : Prop :=
  ∀ (s : State) (m : Mode) (k : Kind) (va : VAddr) (ctx : Ctx), Inv s → s.halted = false → s.pager.pge = false →
    let p := decompose s.cfg va
    illegalSection s.cfg p = false →
    (p.vp < s.cfg.physPages → abkMatch s m p k ctx.nonint = false →
      ∃ t, exec (.probe (modeMap m) k va ctx) s = .next t ∧
        Installed s t m p.vp ⟨⟨true, true⟩, BitVec.ofNat 13 p.vp⟩
          (BitVec.ofNat 36 (2 ^ 35 + 2 ^ 34 + p.vp * 512 + p.off.toNat)) ∧ t.mem = s.mem ∧ t.events = []) ∧
    (s.cfg.physPages ≤ p.vp →
      ∃ t, exec (.probe (modeMap m) k va ctx) s = .next t ∧ SoftFailed s t p.va k (modeMap m) .ppnRange)

/-- R144 to R147: the FLAT_ITS walk. With pg the page number, the word at TB[m][half] + (idx >> 1) holds the entry,
the left half for an even page; ACC 0 refuses, ACC other than 3 refuses a write, a page beyond PHYS_PAGES fails;
else the entry (1, ACC = 3, PPN) is installed and memory is not written. -/
def Obligations.FlatItsWalk : Prop :=
  ∀ (s : State) (m : Mode) (k : Kind) (va : VAddr) (ctx : Ctx), Inv s → s.halted = false → s.pager.pge = true →
    s.cfg.gen = .flatIts →
    let p := decompose s.cfg va
    let pg := p.pg.toNat
    let tb := s.pager.tb
    let base := match m with
      | .user => if pg < 0o400 then tb.userLow else tb.userHigh
      | .exec => if pg < 0o400 then tb.execLow else tb.execHigh
    let a := base.toNat + pg % 0o400 / 2
    (s.cfg.physWords ≤ a →
      ∃ t, exec (.probe (modeMap m) k va ctx) s = .next t ∧ SoftFailed s t p.va k (modeMap m) .nxmFlatEntry) ∧
    (∀ w, memRead s a = some w →
      let e := if pg % 2 = 0 then w.toNat / 2 ^ 18 else w.toNat % 2 ^ 18
      let acc := e / 2 ^ 16
      let ppn := e % 2 ^ 13
      (acc = 0 → ∃ t, exec (.probe (modeMap m) k va ctx) s = .next t ∧ SoftFailed s t p.va k (modeMap m) .itsNoAccess) ∧
      (k = .write → (acc = 1 ∨ acc = 2) →
        ∃ t, exec (.probe (modeMap m) k va ctx) s = .next t ∧ SoftFailed s t p.va k (modeMap m) .itsWriteRo) ∧
      (acc ≠ 0 → (k = .write → acc = 3) → s.cfg.physPages ≤ ppn →
        ∃ t, exec (.probe (modeMap m) k va ctx) s = .next t ∧ SoftFailed s t p.va k (modeMap m) .ppnRange) ∧
      (acc ≠ 0 → (k = .write → acc = 3) → ppn < s.cfg.physPages → abkMatch s m p k ctx.nonint = false →
        ∃ t, exec (.probe (modeMap m) k va ctx) s = .next t ∧
          Installed s t m p.vp ⟨⟨true, decide (acc = 3)⟩, BitVec.ofNat 13 ppn⟩
            (BitVec.ofNat 36 ((if acc = 3 then 2 ^ 35 + 2 ^ 34 else 0) + ppn * 512 + p.off.toNat)) ∧
          t.mem = s.mem ∧ t.events = []))

/-- R148 to R151: the FLAT_MID walk, entry addresses by the table of R148, A in bit 17 and W in bit 15 of the
entry. -/
def Obligations.FlatMidWalk : Prop :=
  ∀ (s : State) (m : Mode) (k : Kind) (va : VAddr) (ctx : Ctx), Inv s → s.halted = false → s.pager.pge = true →
    s.cfg.gen = .flatMid →
    let p := decompose s.cfg va
    let pg := p.pg.toNat
    let ubase := s.pager.ubase.toNat
    let ebase := s.pager.ebase.toNat
    let a := if m = .user then ubase + pg / 2
      else if pg ≤ 0o337 then ebase + s.cfg.midLoOff + pg / 2
      else if pg ≤ 0o377 then ubase + s.cfg.midPpOff + (pg - 0o340) / 2
      else ebase + s.cfg.midHiOff + (pg - 0o400) / 2
    (s.cfg.physWords ≤ a →
      ∃ t, exec (.probe (modeMap m) k va ctx) s = .next t ∧ SoftFailed s t p.va k (modeMap m) .nxmFlatEntry) ∧
    (∀ w, memRead s a = some w →
      let e := if pg % 2 = 0 then w.toNat / 2 ^ 18 else w.toNat % 2 ^ 18
      let bitA := e / 2 ^ 17
      let bitW := e / 2 ^ 15 % 2
      let ppn := e % 2 ^ 13
      (bitA = 0 → ∃ t, exec (.probe (modeMap m) k va ctx) s = .next t ∧ SoftFailed s t p.va k (modeMap m) .midNoAccess) ∧
      (bitA = 1 → k = .write → bitW = 0 →
        ∃ t, exec (.probe (modeMap m) k va ctx) s = .next t ∧ SoftFailed s t p.va k (modeMap m) .midWriteRo) ∧
      (bitA = 1 → (k = .write → bitW = 1) → s.cfg.physPages ≤ ppn →
        ∃ t, exec (.probe (modeMap m) k va ctx) s = .next t ∧ SoftFailed s t p.va k (modeMap m) .ppnRange) ∧
      (bitA = 1 → (k = .write → bitW = 1) → ppn < s.cfg.physPages → abkMatch s m p k ctx.nonint = false →
        ∃ t, exec (.probe (modeMap m) k va ctx) s = .next t ∧
          Installed s t m p.vp ⟨⟨true, decide (bitW = 1)⟩, BitVec.ofNat 13 ppn⟩
            (BitVec.ofNat 36 ((if bitW = 1 then 2 ^ 35 + 2 ^ 34 else 0) + ppn * 512 + p.off.toNat)) ∧
          t.mem = s.mem ∧ t.events = []))

/-- R157, R158, R159, R161, R163: EvalPtr gives exactly the ends of pointer chains. A page where the chain ends at one:
that page, the AND of the rights of every pointer traversed, one indirect step spent per indirect pointer. A failure
where the chain breaks within the steps allowed, with the cause of the break. No end where the chain does neither. -/
def Obligations.EvalPtrFollowsPointerChains : Prop :=
  ∀ (s : State) (level : Level) (ptr : Word) (start : BitVec 4) (left : Nat),
    (∀ pn rts rest, evalPtr s level left ptr start = .page pn rts rest ↔
      ∃ rs n, PtrChain s ptr rs pn n ∧ rts = allRights start rs ∧ left = rest + n) ∧
    (∀ c, evalPtr s level left ptr start = .fail c ↔ ∃ n, PtrFails s level ptr c n ∧ n ≤ left) ∧
    (evalPtr s level left ptr start = .diverge ↔
      (∀ rs pn n, PtrChain s ptr rs pn n → left < n) ∧ (∀ c n, PtrFails s level ptr c n → left < n))

/-- R163: with more than PHYS_WORDS steps allowed, a walk that uses them all never ends, whatever it is allowed; so
with the unbounded IND_LIMIT the model's fault is raised by walks that never end and by no other (A13). -/
def Obligations.ExhaustedWalkNeverEnds : Prop :=
  ∀ (s : State) (level : Level) (ptr : Word) (start : BitVec 4) (left : Nat), s.cfg.physWords < left →
    evalPtr s level left ptr start = .diverge → ∀ more, evalPtr s level more ptr start = .diverge

/-- R160, R164, R165, R166: the MULTI walk over two chains of pointers that end. The section pointer's chain gives the
page table, the page pointer's chain the page and the rights. Without a status table the entry's vw is the W right.
With one, the record is masked, ORed, marked modified on a write and written back, and vw needs M as well. -/
def Obligations.MultiWalkCompletes : Prop :=
  ∀ (s : State) (m : Mode) (k : Kind) (va : VAddr) (ctx : Ctx) (sp pp : Word) (rs1 rs2 : List (BitVec 4))
    (pt ppn n1 n2 : Nat), Inv s → s.halted = false → s.pager.pge = true → s.cfg.gen = .multi →
    let p := decompose s.cfg va
    let wperm := (allRights 0b1111 (rs1 ++ rs2)).getLsbD 2
    illegalSection s.cfg p = false →
    memRead s ((if m = .user then s.pager.ubase.toNat else s.pager.ebase.toNat) + s.cfg.sectOff + p.sect) = some sp →
    PtrChain s sp rs1 pt n1 → memRead s (pt * 512 + p.pg.toNat) = some pp → PtrChain s pp rs2 ppn n2 →
    n1 + n2 ≤ indirectAllowance s.cfg → ppn < s.cfg.physPages → (k = .write → wperm = true) →
    abkMatch s m p k ctx.nonint = false →
    (s.pager.csb = 0 →
      ∃ t, exec (.probe (modeMap m) k va ctx) s = .next t ∧
        Installed s t m p.vp ⟨⟨true, wperm⟩, BitVec.ofNat 13 ppn⟩
          (BitVec.ofNat 36 ((if wperm then 2 ^ 35 + 2 ^ 34 else 0) + ppn * 512 + p.off.toNat)) ∧
        t.mem = s.mem ∧ t.events = []) ∧
    (s.pager.csb ≠ 0 → ∀ c, memRead s (s.pager.csb.toNat + ppn) = some c → c.toNat / 2 ^ 30 ≠ 0 →
      let c2 := ((c &&& s.pager.csm) ||| s.pager.pur) ||| (if k = .write then 1 else 0)
      let vw := wperm && c2.getLsbD 0
      ∃ t, exec (.probe (modeMap m) k va ctx) s = .next t ∧
        Installed s t m p.vp ⟨⟨true, vw⟩, BitVec.ofNat 13 ppn⟩
          (BitVec.ofNat 36 ((if wperm then 2 ^ 35 else 0) + (if vw then 2 ^ 34 else 0) + ppn * 512 + p.off.toNat)) ∧
        (∀ a, memRead t a = if a = s.pager.csb.toNat + ppn then some c2 else memRead s a) ∧
        t.events = [.memWrite (s.pager.csb.toNat + ppn) c2])

/-- R157, R158, R160, R164, R167, R260: the failures of the MULTI walk, in the order they are met. No section pointer;
the break of the section pointer's chain; no page pointer; the break of the page pointer's chain; then the final level:
range, the record's own NXM, age, write permission. Each soft-fails PROBE with its cause and writes nothing. -/
def Obligations.MultiWalkFailures : Prop :=
  ∀ (s : State) (m : Mode) (k : Kind) (va : VAddr) (ctx : Ctx), s.halted = false → s.pager.pge = true →
    s.cfg.gen = .multi →
    let p := decompose s.cfg va
    let sectPtr := (if m = .user then s.pager.ubase.toNat else s.pager.ebase.toNat) + s.cfg.sectOff + p.sect
    let Fails := fun c => ∃ t, exec (.probe (modeMap m) k va ctx) s = .next t ∧ SoftFailed s t p.va k (modeMap m) c
    illegalSection s.cfg p = false →
    (memRead s sectPtr = none → Fails .nxmSectPtr) ∧
    (∀ sp, memRead s sectPtr = some sp →
      (∀ c n, PtrFails s .sect sp c n → n ≤ indirectAllowance s.cfg → Fails c) ∧
      (∀ rs1 pt n1, PtrChain s sp rs1 pt n1 → n1 ≤ indirectAllowance s.cfg →
        (memRead s (pt * 512 + p.pg.toNat) = none → Fails .nxmPagePtr) ∧
        (∀ pp, memRead s (pt * 512 + p.pg.toNat) = some pp →
          (∀ c n, PtrFails s .page pp c n → n1 + n ≤ indirectAllowance s.cfg → Fails c) ∧
          (∀ rs2 ppn n2, PtrChain s pp rs2 ppn n2 → n1 + n2 ≤ indirectAllowance s.cfg →
            let wperm := (allRights 0b1111 (rs1 ++ rs2)).getLsbD 2
            let ca := s.pager.csb.toNat + ppn
            (s.cfg.physPages ≤ ppn → Fails .ppnRange) ∧
            (ppn < s.cfg.physPages → s.pager.csb ≠ 0 → s.cfg.physWords ≤ ca → Fails .nxmCst) ∧
            (ppn < s.cfg.physPages → s.pager.csb ≠ 0 → ∀ c, memRead s ca = some c → c.toNat / 2 ^ 30 = 0 →
              Fails .mlAged) ∧
            (ppn < s.cfg.physPages → k = .write → wperm = false →
              (s.pager.csb = 0 ∨ ∃ c, memRead s ca = some c ∧ c.toNat / 2 ^ 30 ≠ 0) → Fails .mlWriteRo)))))

/-- R140, R260: an illegal section is reported before anything else, for PROBE without any walk. -/
def Obligations.IllegalSectionIsReportedFirst : Prop :=
  ∀ (s : State) (m : Mode) (k : Kind) (va : VAddr) (ctx : Ctx), s.halted = false → s.cfg.ext = true →
    s.cfg.nsect ≤ va.toNat / 2 ^ 18 →
    ∃ t, exec (.probe (modeMap m) k va ctx) s = .next t ∧ SoftFailed s t va k (modeMap m) .mlIllSect

/-- R222, R221: a reference matches exactly when there is an address break, armed, on its page and (with granule WORD)
its word, for its kind, its map not excluded by U, and outside a non-interruptible sequence. Where the walk succeeds, a
matching reference reports the break and installs nothing; every other completes (R223). -/
def Obligations.MatchingReferenceReportsTheBreak : Prop :=
  ∀ (s : State) (m : Mode) (k : Kind) (va : VAddr) (ctx : Ctx),
    let p := decompose s.cfg va
    let Matches := s.cfg.hasAbk = true ∧ s.abk.active = true ∧ p.vp = s.abk.page ∧
      (s.cfg.abkGranule = .page ∨ p.va = s.abk.addr) ∧
      ((k = .fetch ∧ s.abk.cond.getLsbD 3 = true) ∨ (k = .read ∧ s.abk.cond.getLsbD 2 = true) ∨
        (k = .write ∧ s.abk.cond.getLsbD 1 = true)) ∧
      (s.abk.cond.getLsbD 0 = false ∨ m = .user) ∧ ctx.nonint = false
    (abkMatch s m p k ctx.nonint = true ↔ Matches) ∧
    (s.halted = false → illegalSection s.cfg p = false → ∀ ppn wperm status, resolve s m p k = .ok ppn wperm status →
      (Matches → ∃ t, exec (.probe (modeMap m) k va ctx) s = .next t ∧ SoftFailed s t p.va k (modeMap m) .abk) ∧
      (¬ Matches → ∃ t r0, exec (.probe (modeMap m) k va ctx) s = .next t ∧ Answers t .ok r0 0 ∧ t.fd = s.fd))

/-! ## Faults and the trap sequence -/

/-- R255: the fault word, field by field. -/
def Obligations.FaultWordFields : Prop :=
  ∀ fd : FaultDesc,
    let map := match fd.map with
      | .exec => 0
      | .user => 1
      | .phys => 2
    let kind := match fd.kind with
      | .fetch => 0
      | .read => 1
      | .write => 2
    let tag := match fd.tag with
      | .none => 0
      | .access => 1
      | .walk => 2
      | .age => 3
      | .abk => 4
    (faultWord fd).toNat =
      map * 2 ^ 34 + kind * 2 ^ 32 + tag * 2 ^ 29 + fd.isn.toNat * 2 ^ 28 + fd.nxm.toNat * 2 ^ 27 +
      fd.addr.toNat % 2 ^ 27

/-- R253: the tag and the condition bits of every cause. -/
def Obligations.ClassifyTable : Prop :=
  ∀ c : Cause,
    ((classify c).tag = .access ↔
      c ∈ [.itsNoAccess, .itsWriteRo, .midNoAccess, .midWriteRo, .mlSectNoAccess, .mlPageNoAccess, .mlWriteRo]) ∧
    ((classify c).tag = .walk ↔
      c ∈ [.mlIllSect, .mlBadType, .mlNoncore, .nxmFlatEntry, .nxmSectPtr, .nxmSpt, .nxmIndirect, .nxmPagePtr, .nxmCst,
        .ppnRange, .physmapNxm]) ∧
    ((classify c).tag = .age ↔ c = .mlAged) ∧ ((classify c).tag = .abk ↔ c = .abk) ∧
    ((classify c).nxm = true ↔
      c ∈ [.nxmFlatEntry, .nxmSectPtr, .nxmSpt, .nxmIndirect, .nxmPagePtr, .nxmCst, .ppnRange, .physmapNxm]) ∧
    ((classify c).isn = true ↔ c = .mlIllSect)

/-- R264, R272, R273: a trapped fault. The fault word and the old pair are stored, in one word or two, the new pair is
loaded and answered, and nothing else changes but FD, STS.NXM and the hit count; the pair saved is CTX's, or what the
undo hook answered. -/
def Obligations.TrapSavesTheOldPairAndLoadsTheNew : Prop :=
  ∀ (s u : State) (m : MapSel) (k : Kind) (va : VAddr) (ctx : Ctx) (w : Word), Inv s → s.halted = false →
    FailingReference s m k va ctx u w → effectiveSeq s.cfg ctx.seq ≠ .intDelivery → WithinHitLimit s u.fd →
    TrapAreaExists s →
    let q := effectiveSeq s.cfg ctx.seq
    let pair := if q = .none then (ctx.pc, ctx.flags) else execUndo s.cfg q ctx.pc ctx.flags
    let b := trapTableBase s
    let new0 := memWord s (b + s.cfg.newOff)
    let new1 := memWord s (b + s.cfg.newOff + 1)
    ∃ t, exec (.xlate m k va ctx) s = .next t ∧
      t.fd = u.fd ∧ t.sts = u.sts ∧ t.abkHits = s.abkHits + (if u.fd.tag = .abk then 1 else 0) ∧
      Unchanged [.mem, .fd, .sts, .abkHits] s t ∧
      memRead t (b + s.cfg.pfwOff) = some w ∧
      (∀ a, a ∉ trapStores s → memRead t a = memRead s a) ∧
      (s.cfg.ext = false →
        (memRead t (b + s.cfg.oldOff)).map BitVec.toNat = some (pair.2.toNat * 2 ^ 23 + pair.1.toNat % 2 ^ 18) ∧
        Answers t .trap (BitVec.ofNat 36 (new0.toNat % 2 ^ 18)) (BitVec.ofNat 36 (new0.toNat / 2 ^ 23))) ∧
      (s.cfg.ext = true →
        (memRead t (b + s.cfg.oldOff)).map BitVec.toNat = some (pair.2.toNat * 2 ^ 23) ∧
        (memRead t (b + s.cfg.oldOff + 1)).map BitVec.toNat = some pair.1.toNat ∧
        Answers t .trap (BitVec.ofNat 36 (new1.toNat % 2 ^ 30)) (BitVec.ofNat 36 (new0.toNat / 2 ^ 23)))

/-- R266: the undo hook is asked at most once, by XLATE only, exactly once for a trapped fault of an undoable
sequence, and before any memory write; a completed reference never asks it. -/
def Obligations.UndoHookRunsOnceAndFirst : Prop :=
  ∀ (i : Instr) (s t : State), exec i s = .next t →
    ((∀ m k va ctx, i ≠ .xlate m k va ctx) → ∀ q pc fl, Event.undoReq q pc fl ∉ t.events) ∧
    (∀ m k va ctx, i = .xlate m k va ctx → s.halted = false →
      let q := effectiveSeq s.cfg ctx.seq
      ((∃ r0, Answers t .ok r0 0) ∨ q = .none → ∀ q' pc fl, Event.undoReq q' pc fl ∉ t.events) ∧
      ((¬ ∃ r0, Answers t .ok r0 0) → q ≠ .none →
        ∃ later, t.events = .undoReq q ctx.pc ctx.flags :: later ∧ ∀ q' pc fl, Event.undoReq q' pc fl ∉ later))

/-- R268: a fault inside interrupt delivery, after the undo hook: a fatal stop, or IOPF and INTRESUME with the fault
word; no trap location is touched, and a break is not counted (R264: the anomaly comes before the count). The default
policy follows the generation. -/
def Obligations.FaultInsideInterruptDelivery : Prop :=
  (∀ (s u : State) (m : MapSel) (k : Kind) (va : VAddr) (ctx : Ctx) (w : Word), s.halted = false →
    FailingReference s m k va ctx u w → ctx.seq = .intDelivery →
    ∃ t, exec (.xlate m k va ctx) s = .next t ∧ t.mem = s.mem ∧ t.fd = u.fd ∧ t.abkHits = s.abkHits ∧
      t.events.head? = some (.undoReq .intDelivery ctx.pc ctx.flags) ∧
      (s.cfg.intFault = .statusResume → Answers t .intresume w 0 ∧ t.sts = u.sts ||| 0b100 ∧ t.inTrap = false ∧
        t.halted = false) ∧
      (s.cfg.intFault = .fatal → Answers t .fatal 1 0 ∧ t.sts = u.sts ∧ t.halted = true ∧ t.fatalCode = .intFault ∧
        t.inTrap = false)) ∧
  (∀ g, (Config.default g).intFault = if g = .multi then .statusResume else .fatal)

/-- R269: a trap location that does not exist stops the PU with code REFAULT; STS.NXM is not set by it. -/
def Obligations.MissingTrapLocationIsARefault : Prop :=
  ∀ (s u : State) (m : MapSel) (k : Kind) (va : VAddr) (ctx : Ctx) (w : Word), Inv s → s.halted = false →
    FailingReference s m k va ctx u w → effectiveSeq s.cfg ctx.seq ≠ .intDelivery → WithinHitLimit s u.fd →
    ¬ TrapAreaExists s →
    ∃ t, exec (.xlate m k va ctx) s = .next t ∧ Answers t .fatal 2 0 ∧ t.halted = true ∧ t.fatalCode = .refault ∧
      t.inTrap = false ∧ t.fd = u.fd ∧ t.sts = u.sts ∧ Event.diag .refault u.fd ∈ t.events ∧
      (s.cfg.physWords ≤ trapTableBase s + s.cfg.pfwOff → t.mem = s.mem) ∧
      (trapTableBase s + s.cfg.pfwOff < s.cfg.physWords → memRead t (trapTableBase s + s.cfg.pfwOff) = some w)

/-- R270: the break that exceeds ABK_HIT_LIMIT stops the PU with code ABK_LIMIT; no trap location is written. -/
def Obligations.TooManyBreaksStopThePu : Prop :=
  ∀ (s u : State) (m : MapSel) (k : Kind) (va : VAddr) (ctx : Ctx) (w : Word) (n : Nat), s.halted = false →
    FailingReference s m k va ctx u w → effectiveSeq s.cfg ctx.seq ≠ .intDelivery → u.fd.tag = .abk →
    s.cfg.abkHitLimit = some n → n < s.abkHits + 1 →
    ∃ t, exec (.xlate m k va ctx) s = .next t ∧ Answers t .fatal 3 0 ∧ t.halted = true ∧ t.fatalCode = .abkLimit ∧
      t.abkHits = s.abkHits + 1 ∧ t.mem = s.mem

/-- R275, R122c: XLATE never soft-fails, and one that does not complete has changed no cache entry, no pager register,
no accumulator and no watch, and no word of memory but the trap's. -/
def Obligations.FailedXlateIsPrecise : Prop :=
  ∀ (s t : State) (m : MapSel) (k : Kind) (va : VAddr) (ctx : Ctx), Memory.wf s.mem → s.halted = false →
    exec (.xlate m k va ctx) s = .next t →
    (∀ r, t.resp = some r → r.st ≠ .softfail ∧ r.st ≠ .illegal) ∧
    ((¬ ∃ r0, Answers t .ok r0 0) →
      Unchanged [.mem, .fd, .abkHits, .sts, .halt] s t ∧ ∀ a, a ∉ trapStores s → memRead t a = memRead s a)

/-! ## Maintenance and the pager registers -/

/-- R180: INVAL_ALL. -/
def Obligations.InvalAllInvalidatesEveryEntry : Prop :=
  ∀ s : State, s.halted = false →
    ∃ t, exec .invalAll s = .next t ∧ Answers t .ok 0 0 ∧ t.events = [] ∧ AllInvalid t ∧ SavedCleared s t ∧
      Unchanged [.tlb, .abk] s t

/-- R181: INVAL_ONE clears the page in both caches whatever the offset; an illegal section names no entry; the saved
bits of a watch on that page become (0, 0). -/
def Obligations.InvalOneInvalidatesThePageInBothMaps : Prop :=
  ∀ (s : State) (va : VAddr), s.halted = false → (∀ m, sparseWf Entry.invalid (tlbOf s m)) →
    let p := decompose s.cfg va
    ∃ t, exec (.invalOne va) s = .next t ∧ Answers t .ok 0 0 ∧ t.events = [] ∧ Unchanged [.tlb, .abk] s t ∧
      (illegalSection s.cfg p = true → Unchanged [] s t) ∧
      (illegalSection s.cfg p = false →
        (∀ m vp, lookup t m vp = if vp = p.vp then Entry.invalid else lookup s m vp) ∧
        t.abk = (if s.cfg.hasAbk && s.abk.active && decide (p.vp = s.abk.page)
          then { s.abk with savedExec := .none, savedUser := .none } else s.abk))

/-- R182: WR_EBR loads EBP and PGE, recomputes EBASE and invalidates both caches whatever the value held. -/
def Obligations.WrEbrLoadsTheBaseAndInvalidates : Prop :=
  ∀ (s : State) (ebp : Ppn) (pge : Bool), s.halted = false →
    ∃ t, exec (.wrEbr ebp pge) s = .next t ∧ Answers t .ok 0 0 ∧ t.events = [] ∧
      t.pager = { s.pager with ebp := ebp, pge := pge, ebase := BitVec.ofNat 22 (ebp.toNat * 512) } ∧
      AllInvalid t ∧ SavedCleared s t ∧ Unchanged [.tlb, .abk, .pager] s t

/-- R183: RD_EBR. -/
def Obligations.RdEbrReadsTheBaseAndTheEnable : Prop :=
  ∀ s : State, s.halted = false →
    ∃ t, exec .rdEbr s = .next t ∧
      Answers t .ok (BitVec.ofNat 36 (s.pager.pge.toNat * 2 ^ 13 + s.pager.ebp.toNat)) 0 ∧ t.events = [] ∧ Unchanged [] s t

/-- R184: WR_UBR: each flag acts by itself; with neither nothing changes. -/
def Obligations.WrUbrActsByItsFlags : Prop :=
  ∀ (s : State) (selAc ldUbr : Bool) (cab pab : BitVec 3) (ubp : Ppn), s.halted = false →
    ∃ t, exec (.wrUbr selAc ldUbr cab pab ubp) s = .next t ∧ Answers t .ok 0 0 ∧ t.events = [] ∧
      t.acs = (if selAc then selectBlocks cab pab s.acs else s.acs) ∧
      (ldUbr = true → t.pager = { s.pager with ubp := ubp, ubase := BitVec.ofNat 22 (ubp.toNat * 512) } ∧
        AllInvalid t ∧ SavedCleared s t ∧ Unchanged [.tlb, .abk, .pager, .acs] s t) ∧
      (ldUbr = false → Unchanged [.acs] s t)

/-- R185: RD_UBR; both flags read as ones. -/
def Obligations.RdUbrReadsTheBaseAndTheBlocks : Prop :=
  ∀ s : State, s.halted = false →
    ∃ t, exec .rdUbr s = .next t ∧
      Answers t .ok (BitVec.ofNat 36 (2 ^ 35 + 2 ^ 33 + s.acs.cab.toNat * 2 ^ 27 + s.acs.pab.toNat * 2 ^ 24 +
        s.pager.ubp.toNat)) 0 ∧ t.events = [] ∧ Unchanged [] s t

/-- R103: the word RD_UBR answers, written back with WR_UBR at any later state, restores the user base and both block
selectors. -/
def Obligations.RdUbrWordWrittenBackRestores : Prop :=
  ∀ (s t u : State) (w : Word) (c : Command), s.halted = false → u.halted = false →
    exec .rdUbr s = .next t → Answers t .ok w 0 → c.cmd = 0o070000000000 → c.data = w →
    ∃ i v, decode c = .ok i ∧ exec i u = .next v ∧ Answers v .ok 0 0 ∧
      v.pager.ubp = s.pager.ubp ∧ v.acs.cab = s.acs.cab ∧ v.acs.pab = s.acs.pab ∧
      v.pager.ubase = BitVec.ofNat 22 (s.pager.ubp.toNat * 512)

/-- R186: WR_TB writes the register of its index, 22 bits for the four table bases, SPB and CSB, 36 for CSM and PUR,
and invalidates both caches; an index the generation lacks is illegal. -/
def Obligations.WrTbWritesItsRegisterAndInvalidates : Prop :=
  ∀ (s : State) (idx : BitVec 4) (d : Word),
    let b := BitVec.ofNat 22 (d.toNat % 2 ^ 22)
    let tb := s.pager.tb
    (¬ LegalTableIndex s.cfg idx → AnswersIllegal (.wrTb idx d) s) ∧
    (LegalTableIndex s.cfg idx → s.halted = false → ∃ t, exec (.wrTb idx d) s = .next t ∧ Answers t .ok 0 0 ∧ t.events = [] ∧ AllInvalid t ∧ SavedCleared s t ∧
      Unchanged [.tlb, .abk, .pager] s t ∧
      (idx = 0 → t.pager = { s.pager with tb := { tb with userLow := b } }) ∧
      (idx = 1 → t.pager = { s.pager with tb := { tb with userHigh := b } }) ∧
      (idx = 2 → t.pager = { s.pager with tb := { tb with execLow := b } }) ∧
      (idx = 3 → t.pager = { s.pager with tb := { tb with execHigh := b } }) ∧
      (idx = 4 → t.pager = { s.pager with spb := b }) ∧
      (idx = 5 → t.pager = { s.pager with csb := b }) ∧
      (idx = 6 → t.pager = { s.pager with csm := d }) ∧
      (idx = 7 → t.pager = { s.pager with pur := d }))

/-- R187: RD_TB answers the register of its index, zero-extended, and changes nothing; an index the generation lacks is
illegal. -/
def Obligations.RdTbReadsItsRegister : Prop :=
  ∀ (s : State) (idx : BitVec 4),
    let tb := s.pager.tb
    (¬ LegalTableIndex s.cfg idx → AnswersIllegal (.rdTb idx) s) ∧
    (LegalTableIndex s.cfg idx → s.halted = false → ∃ t, exec (.rdTb idx) s = .next t ∧ t.events = [] ∧ Unchanged [] s t ∧
      (idx = 0 → Answers t .ok (BitVec.ofNat 36 tb.userLow.toNat) 0) ∧
      (idx = 1 → Answers t .ok (BitVec.ofNat 36 tb.userHigh.toNat) 0) ∧
      (idx = 2 → Answers t .ok (BitVec.ofNat 36 tb.execLow.toNat) 0) ∧
      (idx = 3 → Answers t .ok (BitVec.ofNat 36 tb.execHigh.toNat) 0) ∧
      (idx = 4 → Answers t .ok (BitVec.ofNat 36 s.pager.spb.toNat) 0) ∧
      (idx = 5 → Answers t .ok (BitVec.ofNat 36 s.pager.csb.toNat) 0) ∧
      (idx = 6 → Answers t .ok s.pager.csm 0) ∧
      (idx = 7 → Answers t .ok s.pager.pur 0))

/-! ## Accumulators -/

/-- R200, R201: SEL_ACB: the old shadow flushed and the new block loaded when the current block changes, nothing copied
when it does not, PLIVE recomputed always. -/
def Obligations.SelAcbSwapsTheShadow : Prop :=
  ∀ (s : State) (cab pab : BitVec 3), s.halted = false →
    ∃ t, exec (.selAcb cab pab) s = .next t ∧ Answers t .ok 0 0 ∧ t.events = [] ∧ Unchanged [.acs] s t ∧
      t.acs.cab = cab ∧ t.acs.pab = pab ∧ (t.acs.plive = true ↔ pab = cab) ∧
      (cab = s.acs.cab → t.acs.shadow = s.acs.shadow ∧ t.acs.blk = s.acs.blk) ∧
      (cab ≠ s.acs.cab →
        t.acs.shadow = s.acs.blk[cab.toNat] ∧ t.acs.blk[s.acs.cab.toNat] = s.acs.shadow ∧
        ∀ b : BitVec 3, b ≠ s.acs.cab → t.acs.blk[b.toNat] = s.acs.blk[b.toNat])

/-- R204: a block switch is transparent: the architectural value of every register of every block is unchanged by
Select, for any state of the file. -/
def Obligations.SelectIsTransparent : Prop :=
  ∀ (f : AcFile) (nc np b : BitVec 3) (r : BitVec 4), archReg (selectBlocks nc np f) b r = archReg f b r

/-- R202: ACRD answers the architectural value of its register of the current or the previous-context block. -/
def Obligations.AcrdReadsTheArchitecturalRegister : Prop :=
  ∀ (s : State) (x : AcCtx) (r : BitVec 4), s.halted = false → s.acs.plive = (s.acs.pab == s.acs.cab) →
    ∃ t, exec (.acrd x r) s = .next t ∧ Answers t .ok (archReg s.acs (contextBlock s.acs x) r) 0 ∧ t.events = [] ∧
      Unchanged [] s t

/-- R203: ACWR writes that register and no other; the selectors stay. -/
def Obligations.AcwrWritesTheArchitecturalRegister : Prop :=
  ∀ (s : State) (x : AcCtx) (r : BitVec 4) (d : Word), s.halted = false → s.acs.plive = (s.acs.pab == s.acs.cab) →
    ∃ t, exec (.acwr x r d) s = .next t ∧ Answers t .ok 0 0 ∧ t.events = [] ∧ Unchanged [.acs] s t ∧
      t.acs.cab = s.acs.cab ∧ t.acs.pab = s.acs.pab ∧ t.acs.plive = s.acs.plive ∧
      ∀ b r', archReg t.acs b r' = if b = contextBlock s.acs x ∧ r' = r then d else archReg s.acs b r'

/-! ## The address break -/

/-- R217: ARM_ABK clears any prior watch; then, with one of F, R, W set and a page that exists, the watch is armed on the
page of the address, the access bits of its entry saved and forced off in each affected map, its ppn kept; with an
empty mask or an illegal section the break stays disarmed. Without an address break it is illegal. -/
def Obligations.ArmAbkArmsTheWatch : Prop :=
  ∀ (s : State) (cond : BitVec 4) (va : VAddr),
    let p := decompose s.cfg va
    (s.cfg.hasAbk = false → AnswersIllegal (.armAbk cond va) s) ∧
    (s.cfg.hasAbk = true → s.halted = false → (∀ m, sparseWf Entry.invalid (tlbOf s m)) →
      ∃ t, exec (.armAbk cond va) s = .next t ∧ Answers t .ok 0 0 ∧ t.events = [] ∧ t.abkHits = 0 ∧
        Unchanged [.tlb, .abk, .abkHits] s t ∧
        ((condNonEmpty cond = false ∨ illegalSection s.cfg p = true) →
          t.abk = Abk.idle ∧ ∀ m vp, lookup t m vp = entryDisarmed s m vp) ∧
        (condNonEmpty cond = true → illegalSection s.cfg p = false →
          t.abk = { active := true, page := p.vp, addr := p.va, cond := cond,
                    savedExec := if cond.getLsbD 0 then .none else (entryDisarmed s .exec p.vp).acc,
                    savedUser := (entryDisarmed s .user p.vp).acc } ∧
          ∀ m vp, lookup t m vp =
            if vp = p.vp ∧ (m = .user ∨ cond.getLsbD 0 = false) then { entryDisarmed s m vp with acc := .none }
            else entryDisarmed s m vp))

/-- R216, R218: DISARM_ABK restores the saved pairs of an active watch in its affected maps, ppn untouched, and clears
the watch and the count. Without an address break it is illegal. -/
def Obligations.DisarmAbkRestoresTheSavedBits : Prop :=
  ∀ s : State,
    (s.cfg.hasAbk = false → AnswersIllegal .disarmAbk s) ∧
    (s.cfg.hasAbk = true → s.halted = false → (∀ m, sparseWf Entry.invalid (tlbOf s m)) →
      ∃ t, exec .disarmAbk s = .next t ∧ Answers t .ok 0 0 ∧ t.events = [] ∧ t.abkHits = 0 ∧
        t.abk = { active := false, page := 0, addr := 0, cond := 0, savedExec := ⟨false, false⟩, savedUser := ⟨false, false⟩ } ∧
        Unchanged [.tlb, .abk, .abkHits] s t ∧
        ∀ m vp, lookup t m vp =
          if s.abk.active = true ∧ vp = s.abk.page ∧ (m = .user ∨ s.abk.cond.getLsbD 0 = false)
          then { lookup s m vp with acc := savedOf s.abk m } else lookup s m vp)

/-- R225a: "disarm() after arm() restores exactly the access bits that were present immediately before arm(), for any
page state". -/
def Obligations.DisarmAfterArmRestoresEveryEntry : Prop :=
  ∀ (s t : State) (cond : BitVec 4) (va : VAddr), Inv s → s.halted = false → s.cfg.hasAbk = true →
    s.abk.active = false → exec (.armAbk cond va) s = .next t →
    ∃ u, exec .disarmAbk t = .next u ∧ u.tlb = s.tlb ∧ u.abk = s.abk

/-- R225b, R217 corner case c: arming again with the same parameters changes neither the watch, its saved bits nor the
caches. -/
def Obligations.ArmingTwiceIsArmingOnce : Prop :=
  ∀ (s t : State) (cond : BitVec 4) (va : VAddr), Inv s → s.halted = false → s.cfg.hasAbk = true →
    exec (.armAbk cond va) s = .next t →
    ∃ u, exec (.armAbk cond va) t = .next u ∧ u.tlb = t.tlb ∧ u.abk = t.abk

/-! ## Diagnostics, status and reset -/

/-- R235: SWEEP sets SWEEP_DONE and nothing else; it discards no translation. -/
def Obligations.SweepSetsItsStatusBitOnly : Prop :=
  ∀ s : State, s.halted = false →
    ∃ t, exec .sweep s = .next t ∧ Answers t .ok 0 0 ∧ t.events = [] ∧ t.sts.getLsbD 0 = true ∧
      t.sts.getLsbD 1 = s.sts.getLsbD 1 ∧ t.sts.getLsbD 2 = s.sts.getLsbD 2 ∧ Unchanged [.sts] s t

/-- R236, R238: MEMDIAG's reply is a function of the configuration and the operand; with no reply configured, controller
0 is present with 2^13 pages for every function and every other controller is absent. The clauses on configured replies
are the model's choice (DESIGN CHOICE, log entry 12), made from R106, R236 and R238: a reply is 0, or its CTL and FN are
the operand's, its bits 24:14 zero, PRESENT in bit 35 and SIZE in bits 13:0; where the first row listed is the operand's,
PRESENT and SIZE are that row's. -/
def Obligations.MemdiagReportsTheTopology : Prop :=
  ∀ (s : State) (ctl fn : BitVec 5), s.halted = false →
    ∃ t, exec (.memdiag ctl fn) s = .next t ∧ Answers t .ok (memdiagReply s.cfg ctl fn) 0 ∧ t.events = [] ∧
      Unchanged [] s t ∧
      (Answers t .ok 0 0 ∨ ∃ (present : Bool) (size : BitVec 14),
        Answers t .ok (BitVec.ofNat 36 (present.toNat * 2 ^ 35 + ctl.toNat * 2 ^ 30 + fn.toNat * 2 ^ 25 + size.toNat)) 0) ∧
      (∀ rows present size, s.cfg.memdiag = ⟨ctl, fn, .controller present size⟩ :: rows →
        Answers t .ok (BitVec.ofNat 36 (present.toNat * 2 ^ 35 + ctl.toNat * 2 ^ 30 + fn.toNat * 2 ^ 25 + size.toNat)) 0) ∧
      (s.cfg.memdiag = [] →
        Answers t .ok (if ctl = 0 then BitVec.ofNat 36 (2 ^ 35 + ctl.toNat * 2 ^ 30 + fn.toNat * 2 ^ 25 + 0o20000) else 0) 0)

/-- R239: RD_STS answers the three bits and clears nothing. -/
def Obligations.RdStsReadsTheStatus : Prop :=
  ∀ s : State, s.halted = false →
    ∃ t, exec .rdSts s = .next t ∧ Answers t .ok (BitVec.ofNat 36 s.sts.toNat) 0 ∧ t.events = [] ∧ Unchanged [] s t

/-- R240: CLR_STS clears the bits whose mask bit is 1 and leaves the others. -/
def Obligations.ClrStsClearsByMask : Prop :=
  ∀ (s : State) (mask : BitVec 3), s.halted = false →
    ∃ t, exec (.clrSts mask) s = .next t ∧ Answers t .ok 0 0 ∧ t.events = [] ∧ Unchanged [.sts] s t ∧
      ∀ b : Nat, t.sts.getLsbD b = (s.sts.getLsbD b && !mask.getLsbD b)

/-- R301: RESET completes in every state, halted or not: every entry invalid, every register 0 and paging off, nothing
armed, pending or halted, blocks (0, 0) selected with every architectural register value kept, PhysicalStore
untouched. -/
def Obligations.ResetClearsAllButTheAccumulators : Prop :=
  ∀ s : State,
    ∃ t, exec .reset s = .next t ∧ Answers t .ok 0 0 ∧ t.events = [] ∧
      AllInvalid t ∧
      t.pager = { ebp := 0, pge := false, ebase := 0, ubp := 0, ubase := 0, tb := ⟨0, 0, 0, 0⟩, spb := 0, csb := 0,
                  csm := 0, pur := 0 } ∧
      t.fd = { addr := 0, kind := .fetch, map := .exec, tag := .none, cause := .none, nxm := false, isn := false } ∧
      t.abk = { active := false, page := 0, addr := 0, cond := 0, savedExec := ⟨false, false⟩, savedUser := ⟨false, false⟩ } ∧
      t.abkHits = 0 ∧
      t.sts = 0 ∧ t.halted = false ∧ t.fatalCode = .none ∧ t.inTrap = false ∧
      t.acs.cab = 0 ∧ t.acs.pab = 0 ∧ t.acs.plive = true ∧ (∀ b r, archReg t.acs b r = archReg s.acs b r) ∧
      t.mem = s.mem ∧ t.cfg = s.cfg ∧ t.port = s.port
end

