-- ==== Sys2Proof/Laws/Accumulators.lean ====
section
/-! SUPPORT. The accumulator file: what Select and ACWR do to its fields. -/

namespace Sys2Proof.Machine

open Sys2Proof

@[simp] theorem selectBlocks_cab (nc np : BitVec 3) (f : AcFile) : (selectBlocks nc np f).cab = nc := by
  simp only [selectBlocks]; split_ifs <;> simp_all

@[simp] theorem selectBlocks_pab (nc np : BitVec 3) (f : AcFile) : (selectBlocks nc np f).pab = np := rfl

@[simp] theorem selectBlocks_plive (nc np : BitVec 3) (f : AcFile) : (selectBlocks nc np f).plive = (np == nc) := by
  simp only [selectBlocks]; split_ifs <;> simp_all

@[simp] theorem acWrite_cab (f : AcFile) (x : AcCtx) (r : BitVec 4) (d : Word) : (acWrite f x r d).cab = f.cab := by
  simp only [acWrite]; split_ifs <;> rfl

@[simp] theorem acWrite_pab (f : AcFile) (x : AcCtx) (r : BitVec 4) (d : Word) : (acWrite f x r d).pab = f.pab := by
  simp only [acWrite]; split_ifs <;> rfl

@[simp] theorem acWrite_plive (f : AcFile) (x : AcCtx) (r : BitVec 4) (d : Word) :
    (acWrite f x r d).plive = f.plive := by
  simp only [acWrite]; split_ifs <;> rfl

/-- Two block or register numbers with one value are one number. -/
theorem toNat_inj {n : Nat} {a b : BitVec n} : a.toNat = b.toNat ↔ a = b :=
  ⟨BitVec.eq_of_toNat_eq, fun h => h ▸ rfl⟩

end Sys2Proof.Machine
end

