-- ==== Sys2Proof/Laws/State.lean ====
section
/-! SUPPORT. What each update of the state does to each of its fields, so that no proof unfolds a record update. -/

namespace Sys2Proof.Machine

open Sys2Proof

@[simp] theorem respondOk_eq (r0 : Word) (s : State) : respondOk r0 s = respond .ok r0 0 s := rfl

/-! ### respond -/

@[simp] theorem respond_cfg (st : Status) (r0 r1 : Word) (s : State) : (respond st r0 r1 s).cfg = s.cfg := rfl
@[simp] theorem respond_mem (st : Status) (r0 r1 : Word) (s : State) : (respond st r0 r1 s).mem = s.mem := rfl
@[simp] theorem respond_tlb (st : Status) (r0 r1 : Word) (s : State) : (respond st r0 r1 s).tlb = s.tlb := rfl
@[simp] theorem respond_pager (st : Status) (r0 r1 : Word) (s : State) : (respond st r0 r1 s).pager = s.pager := rfl
@[simp] theorem respond_acs (st : Status) (r0 r1 : Word) (s : State) : (respond st r0 r1 s).acs = s.acs := rfl
@[simp] theorem respond_fd (st : Status) (r0 r1 : Word) (s : State) : (respond st r0 r1 s).fd = s.fd := rfl
@[simp] theorem respond_abk (st : Status) (r0 r1 : Word) (s : State) : (respond st r0 r1 s).abk = s.abk := rfl
@[simp] theorem respond_abkHits (st : Status) (r0 r1 : Word) (s : State) : (respond st r0 r1 s).abkHits = s.abkHits := rfl
@[simp] theorem respond_sts (st : Status) (r0 r1 : Word) (s : State) : (respond st r0 r1 s).sts = s.sts := rfl
@[simp] theorem respond_halted (st : Status) (r0 r1 : Word) (s : State) : (respond st r0 r1 s).halted = s.halted := rfl
@[simp] theorem respond_fatalCode (st : Status) (r0 r1 : Word) (s : State) : (respond st r0 r1 s).fatalCode = s.fatalCode := rfl
@[simp] theorem respond_inTrap (st : Status) (r0 r1 : Word) (s : State) : (respond st r0 r1 s).inTrap = s.inTrap := rfl
@[simp] theorem respond_port (st : Status) (r0 r1 : Word) (s : State) : (respond st r0 r1 s).port = s.port := rfl
@[simp] theorem respond_resp (st : Status) (r0 r1 : Word) (s : State) : (respond st r0 r1 s).resp = some ⟨st, r0, r1⟩ := rfl
@[simp] theorem respond_events (st : Status) (r0 r1 : Word) (s : State) : (respond st r0 r1 s).events = s.events := rfl

/-! ### beginCommand -/

@[simp] theorem beginCommand_cfg (s : State) : (beginCommand s).cfg = s.cfg := rfl
@[simp] theorem beginCommand_mem (s : State) : (beginCommand s).mem = s.mem := rfl
@[simp] theorem beginCommand_tlb (s : State) : (beginCommand s).tlb = s.tlb := rfl
@[simp] theorem beginCommand_pager (s : State) : (beginCommand s).pager = s.pager := rfl
@[simp] theorem beginCommand_acs (s : State) : (beginCommand s).acs = s.acs := rfl
@[simp] theorem beginCommand_fd (s : State) : (beginCommand s).fd = s.fd := rfl
@[simp] theorem beginCommand_abk (s : State) : (beginCommand s).abk = s.abk := rfl
@[simp] theorem beginCommand_abkHits (s : State) : (beginCommand s).abkHits = s.abkHits := rfl
@[simp] theorem beginCommand_sts (s : State) : (beginCommand s).sts = s.sts := rfl
@[simp] theorem beginCommand_halted (s : State) : (beginCommand s).halted = s.halted := rfl
@[simp] theorem beginCommand_fatalCode (s : State) : (beginCommand s).fatalCode = s.fatalCode := rfl
@[simp] theorem beginCommand_inTrap (s : State) : (beginCommand s).inTrap = s.inTrap := rfl
@[simp] theorem beginCommand_port (s : State) : (beginCommand s).port = s.port := rfl
@[simp] theorem beginCommand_resp (s : State) : (beginCommand s).resp = s.resp := rfl
@[simp] theorem beginCommand_events (s : State) : (beginCommand s).events = [] := rfl

/-! ### logEvent -/

@[simp] theorem logEvent_cfg (e : Event) (s : State) : (logEvent e s).cfg = s.cfg := rfl
@[simp] theorem logEvent_mem (e : Event) (s : State) : (logEvent e s).mem = s.mem := rfl
@[simp] theorem logEvent_tlb (e : Event) (s : State) : (logEvent e s).tlb = s.tlb := rfl
@[simp] theorem logEvent_pager (e : Event) (s : State) : (logEvent e s).pager = s.pager := rfl
@[simp] theorem logEvent_acs (e : Event) (s : State) : (logEvent e s).acs = s.acs := rfl
@[simp] theorem logEvent_fd (e : Event) (s : State) : (logEvent e s).fd = s.fd := rfl
@[simp] theorem logEvent_abk (e : Event) (s : State) : (logEvent e s).abk = s.abk := rfl
@[simp] theorem logEvent_abkHits (e : Event) (s : State) : (logEvent e s).abkHits = s.abkHits := rfl
@[simp] theorem logEvent_sts (e : Event) (s : State) : (logEvent e s).sts = s.sts := rfl
@[simp] theorem logEvent_halted (e : Event) (s : State) : (logEvent e s).halted = s.halted := rfl
@[simp] theorem logEvent_fatalCode (e : Event) (s : State) : (logEvent e s).fatalCode = s.fatalCode := rfl
@[simp] theorem logEvent_inTrap (e : Event) (s : State) : (logEvent e s).inTrap = s.inTrap := rfl
@[simp] theorem logEvent_port (e : Event) (s : State) : (logEvent e s).port = s.port := rfl
@[simp] theorem logEvent_resp (e : Event) (s : State) : (logEvent e s).resp = s.resp := rfl
@[simp] theorem logEvent_events (e : Event) (s : State) : (logEvent e s).events = s.events ++ [e] := rfl

/-! ### setSts -/

@[simp] theorem setSts_cfg (bits : BitVec 3) (s : State) : (setSts bits s).cfg = s.cfg := rfl
@[simp] theorem setSts_mem (bits : BitVec 3) (s : State) : (setSts bits s).mem = s.mem := rfl
@[simp] theorem setSts_tlb (bits : BitVec 3) (s : State) : (setSts bits s).tlb = s.tlb := rfl
@[simp] theorem setSts_pager (bits : BitVec 3) (s : State) : (setSts bits s).pager = s.pager := rfl
@[simp] theorem setSts_acs (bits : BitVec 3) (s : State) : (setSts bits s).acs = s.acs := rfl
@[simp] theorem setSts_fd (bits : BitVec 3) (s : State) : (setSts bits s).fd = s.fd := rfl
@[simp] theorem setSts_abk (bits : BitVec 3) (s : State) : (setSts bits s).abk = s.abk := rfl
@[simp] theorem setSts_abkHits (bits : BitVec 3) (s : State) : (setSts bits s).abkHits = s.abkHits := rfl
@[simp] theorem setSts_sts (bits : BitVec 3) (s : State) : (setSts bits s).sts = s.sts ||| bits := rfl
@[simp] theorem setSts_halted (bits : BitVec 3) (s : State) : (setSts bits s).halted = s.halted := rfl
@[simp] theorem setSts_fatalCode (bits : BitVec 3) (s : State) : (setSts bits s).fatalCode = s.fatalCode := rfl
@[simp] theorem setSts_inTrap (bits : BitVec 3) (s : State) : (setSts bits s).inTrap = s.inTrap := rfl
@[simp] theorem setSts_port (bits : BitVec 3) (s : State) : (setSts bits s).port = s.port := rfl
@[simp] theorem setSts_resp (bits : BitVec 3) (s : State) : (setSts bits s).resp = s.resp := rfl
@[simp] theorem setSts_events (bits : BitVec 3) (s : State) : (setSts bits s).events = s.events := rfl

/-! ### clearSts -/

@[simp] theorem clearSts_cfg (mask : BitVec 3) (s : State) : (clearSts mask s).cfg = s.cfg := rfl
@[simp] theorem clearSts_mem (mask : BitVec 3) (s : State) : (clearSts mask s).mem = s.mem := rfl
@[simp] theorem clearSts_tlb (mask : BitVec 3) (s : State) : (clearSts mask s).tlb = s.tlb := rfl
@[simp] theorem clearSts_pager (mask : BitVec 3) (s : State) : (clearSts mask s).pager = s.pager := rfl
@[simp] theorem clearSts_acs (mask : BitVec 3) (s : State) : (clearSts mask s).acs = s.acs := rfl
@[simp] theorem clearSts_fd (mask : BitVec 3) (s : State) : (clearSts mask s).fd = s.fd := rfl
@[simp] theorem clearSts_abk (mask : BitVec 3) (s : State) : (clearSts mask s).abk = s.abk := rfl
@[simp] theorem clearSts_abkHits (mask : BitVec 3) (s : State) : (clearSts mask s).abkHits = s.abkHits := rfl
@[simp] theorem clearSts_sts (mask : BitVec 3) (s : State) : (clearSts mask s).sts = s.sts &&& ~~~mask := rfl
@[simp] theorem clearSts_halted (mask : BitVec 3) (s : State) : (clearSts mask s).halted = s.halted := rfl
@[simp] theorem clearSts_fatalCode (mask : BitVec 3) (s : State) : (clearSts mask s).fatalCode = s.fatalCode := rfl
@[simp] theorem clearSts_inTrap (mask : BitVec 3) (s : State) : (clearSts mask s).inTrap = s.inTrap := rfl
@[simp] theorem clearSts_port (mask : BitVec 3) (s : State) : (clearSts mask s).port = s.port := rfl
@[simp] theorem clearSts_resp (mask : BitVec 3) (s : State) : (clearSts mask s).resp = s.resp := rfl
@[simp] theorem clearSts_events (mask : BitVec 3) (s : State) : (clearSts mask s).events = s.events := rfl

/-! ### otherStore -/

@[simp] theorem otherStore_cfg (pa : Nat) (w : Word) (s : State) : (otherStore pa w s).cfg = s.cfg := rfl
@[simp] theorem otherStore_mem (pa : Nat) (w : Word) (s : State) : (otherStore pa w s).mem = storedMem s.cfg pa w s.mem := rfl
@[simp] theorem otherStore_tlb (pa : Nat) (w : Word) (s : State) : (otherStore pa w s).tlb = s.tlb := rfl
@[simp] theorem otherStore_pager (pa : Nat) (w : Word) (s : State) : (otherStore pa w s).pager = s.pager := rfl
@[simp] theorem otherStore_acs (pa : Nat) (w : Word) (s : State) : (otherStore pa w s).acs = s.acs := rfl
@[simp] theorem otherStore_fd (pa : Nat) (w : Word) (s : State) : (otherStore pa w s).fd = s.fd := rfl
@[simp] theorem otherStore_abk (pa : Nat) (w : Word) (s : State) : (otherStore pa w s).abk = s.abk := rfl
@[simp] theorem otherStore_abkHits (pa : Nat) (w : Word) (s : State) : (otherStore pa w s).abkHits = s.abkHits := rfl
@[simp] theorem otherStore_sts (pa : Nat) (w : Word) (s : State) : (otherStore pa w s).sts = s.sts := rfl
@[simp] theorem otherStore_halted (pa : Nat) (w : Word) (s : State) : (otherStore pa w s).halted = s.halted := rfl
@[simp] theorem otherStore_fatalCode (pa : Nat) (w : Word) (s : State) : (otherStore pa w s).fatalCode = s.fatalCode := rfl
@[simp] theorem otherStore_inTrap (pa : Nat) (w : Word) (s : State) : (otherStore pa w s).inTrap = s.inTrap := rfl
@[simp] theorem otherStore_port (pa : Nat) (w : Word) (s : State) : (otherStore pa w s).port = s.port := rfl
@[simp] theorem otherStore_resp (pa : Nat) (w : Word) (s : State) : (otherStore pa w s).resp = s.resp := rfl
@[simp] theorem otherStore_events (pa : Nat) (w : Word) (s : State) : (otherStore pa w s).events = s.events := rfl

/-! ### select -/

@[simp] theorem select_cfg (nc np : BitVec 3) (s : State) : (select nc np s).cfg = s.cfg := rfl
@[simp] theorem select_mem (nc np : BitVec 3) (s : State) : (select nc np s).mem = s.mem := rfl
@[simp] theorem select_tlb (nc np : BitVec 3) (s : State) : (select nc np s).tlb = s.tlb := rfl
@[simp] theorem select_pager (nc np : BitVec 3) (s : State) : (select nc np s).pager = s.pager := rfl
@[simp] theorem select_acs (nc np : BitVec 3) (s : State) : (select nc np s).acs = selectBlocks nc np s.acs := rfl
@[simp] theorem select_fd (nc np : BitVec 3) (s : State) : (select nc np s).fd = s.fd := rfl
@[simp] theorem select_abk (nc np : BitVec 3) (s : State) : (select nc np s).abk = s.abk := rfl
@[simp] theorem select_abkHits (nc np : BitVec 3) (s : State) : (select nc np s).abkHits = s.abkHits := rfl
@[simp] theorem select_sts (nc np : BitVec 3) (s : State) : (select nc np s).sts = s.sts := rfl
@[simp] theorem select_halted (nc np : BitVec 3) (s : State) : (select nc np s).halted = s.halted := rfl
@[simp] theorem select_fatalCode (nc np : BitVec 3) (s : State) : (select nc np s).fatalCode = s.fatalCode := rfl
@[simp] theorem select_inTrap (nc np : BitVec 3) (s : State) : (select nc np s).inTrap = s.inTrap := rfl
@[simp] theorem select_port (nc np : BitVec 3) (s : State) : (select nc np s).port = s.port := rfl
@[simp] theorem select_resp (nc np : BitVec 3) (s : State) : (select nc np s).resp = s.resp := rfl
@[simp] theorem select_events (nc np : BitVec 3) (s : State) : (select nc np s).events = s.events := rfl

/-! ### loadEbr -/

@[simp] theorem loadEbr_cfg (ebp : Ppn) (pge : Bool) (s : State) : (loadEbr ebp pge s).cfg = s.cfg := rfl
@[simp] theorem loadEbr_mem (ebp : Ppn) (pge : Bool) (s : State) : (loadEbr ebp pge s).mem = s.mem := rfl
@[simp] theorem loadEbr_tlb (ebp : Ppn) (pge : Bool) (s : State) : (loadEbr ebp pge s).tlb = s.tlb := rfl
@[simp] theorem loadEbr_pager (ebp : Ppn) (pge : Bool) (s : State) : (loadEbr ebp pge s).pager = { s.pager with ebp := ebp, pge := pge, ebase := baseOfPage ebp } := rfl
@[simp] theorem loadEbr_acs (ebp : Ppn) (pge : Bool) (s : State) : (loadEbr ebp pge s).acs = s.acs := rfl
@[simp] theorem loadEbr_fd (ebp : Ppn) (pge : Bool) (s : State) : (loadEbr ebp pge s).fd = s.fd := rfl
@[simp] theorem loadEbr_abk (ebp : Ppn) (pge : Bool) (s : State) : (loadEbr ebp pge s).abk = s.abk := rfl
@[simp] theorem loadEbr_abkHits (ebp : Ppn) (pge : Bool) (s : State) : (loadEbr ebp pge s).abkHits = s.abkHits := rfl
@[simp] theorem loadEbr_sts (ebp : Ppn) (pge : Bool) (s : State) : (loadEbr ebp pge s).sts = s.sts := rfl
@[simp] theorem loadEbr_halted (ebp : Ppn) (pge : Bool) (s : State) : (loadEbr ebp pge s).halted = s.halted := rfl
@[simp] theorem loadEbr_fatalCode (ebp : Ppn) (pge : Bool) (s : State) : (loadEbr ebp pge s).fatalCode = s.fatalCode := rfl
@[simp] theorem loadEbr_inTrap (ebp : Ppn) (pge : Bool) (s : State) : (loadEbr ebp pge s).inTrap = s.inTrap := rfl
@[simp] theorem loadEbr_port (ebp : Ppn) (pge : Bool) (s : State) : (loadEbr ebp pge s).port = s.port := rfl
@[simp] theorem loadEbr_resp (ebp : Ppn) (pge : Bool) (s : State) : (loadEbr ebp pge s).resp = s.resp := rfl
@[simp] theorem loadEbr_events (ebp : Ppn) (pge : Bool) (s : State) : (loadEbr ebp pge s).events = s.events := rfl

/-! ### loadUbr -/

@[simp] theorem loadUbr_cfg (ubp : Ppn) (s : State) : (loadUbr ubp s).cfg = s.cfg := rfl
@[simp] theorem loadUbr_mem (ubp : Ppn) (s : State) : (loadUbr ubp s).mem = s.mem := rfl
@[simp] theorem loadUbr_tlb (ubp : Ppn) (s : State) : (loadUbr ubp s).tlb = s.tlb := rfl
@[simp] theorem loadUbr_pager (ubp : Ppn) (s : State) : (loadUbr ubp s).pager = { s.pager with ubp := ubp, ubase := baseOfPage ubp } := rfl
@[simp] theorem loadUbr_acs (ubp : Ppn) (s : State) : (loadUbr ubp s).acs = s.acs := rfl
@[simp] theorem loadUbr_fd (ubp : Ppn) (s : State) : (loadUbr ubp s).fd = s.fd := rfl
@[simp] theorem loadUbr_abk (ubp : Ppn) (s : State) : (loadUbr ubp s).abk = s.abk := rfl
@[simp] theorem loadUbr_abkHits (ubp : Ppn) (s : State) : (loadUbr ubp s).abkHits = s.abkHits := rfl
@[simp] theorem loadUbr_sts (ubp : Ppn) (s : State) : (loadUbr ubp s).sts = s.sts := rfl
@[simp] theorem loadUbr_halted (ubp : Ppn) (s : State) : (loadUbr ubp s).halted = s.halted := rfl
@[simp] theorem loadUbr_fatalCode (ubp : Ppn) (s : State) : (loadUbr ubp s).fatalCode = s.fatalCode := rfl
@[simp] theorem loadUbr_inTrap (ubp : Ppn) (s : State) : (loadUbr ubp s).inTrap = s.inTrap := rfl
@[simp] theorem loadUbr_port (ubp : Ppn) (s : State) : (loadUbr ubp s).port = s.port := rfl
@[simp] theorem loadUbr_resp (ubp : Ppn) (s : State) : (loadUbr ubp s).resp = s.resp := rfl
@[simp] theorem loadUbr_events (ubp : Ppn) (s : State) : (loadUbr ubp s).events = s.events := rfl

/-! ### loadTable -/

@[simp] theorem loadTable_cfg (idx : BitVec 4) (d : Word) (s : State) : (loadTable idx d s).cfg = s.cfg := rfl
@[simp] theorem loadTable_mem (idx : BitVec 4) (d : Word) (s : State) : (loadTable idx d s).mem = s.mem := rfl
@[simp] theorem loadTable_tlb (idx : BitVec 4) (d : Word) (s : State) : (loadTable idx d s).tlb = s.tlb := rfl
@[simp] theorem loadTable_pager (idx : BitVec 4) (d : Word) (s : State) : (loadTable idx d s).pager = writeTable idx d s.pager := rfl
@[simp] theorem loadTable_acs (idx : BitVec 4) (d : Word) (s : State) : (loadTable idx d s).acs = s.acs := rfl
@[simp] theorem loadTable_fd (idx : BitVec 4) (d : Word) (s : State) : (loadTable idx d s).fd = s.fd := rfl
@[simp] theorem loadTable_abk (idx : BitVec 4) (d : Word) (s : State) : (loadTable idx d s).abk = s.abk := rfl
@[simp] theorem loadTable_abkHits (idx : BitVec 4) (d : Word) (s : State) : (loadTable idx d s).abkHits = s.abkHits := rfl
@[simp] theorem loadTable_sts (idx : BitVec 4) (d : Word) (s : State) : (loadTable idx d s).sts = s.sts := rfl
@[simp] theorem loadTable_halted (idx : BitVec 4) (d : Word) (s : State) : (loadTable idx d s).halted = s.halted := rfl
@[simp] theorem loadTable_fatalCode (idx : BitVec 4) (d : Word) (s : State) : (loadTable idx d s).fatalCode = s.fatalCode := rfl
@[simp] theorem loadTable_inTrap (idx : BitVec 4) (d : Word) (s : State) : (loadTable idx d s).inTrap = s.inTrap := rfl
@[simp] theorem loadTable_port (idx : BitVec 4) (d : Word) (s : State) : (loadTable idx d s).port = s.port := rfl
@[simp] theorem loadTable_resp (idx : BitVec 4) (d : Word) (s : State) : (loadTable idx d s).resp = s.resp := rfl
@[simp] theorem loadTable_events (idx : BitVec 4) (d : Word) (s : State) : (loadTable idx d s).events = s.events := rfl

/-! ### setTlb -/

@[simp] theorem setTlb_cfg (m : Mode) (t : Tlb) (s : State) : (setTlb m t s).cfg = s.cfg := by cases m <;> rfl
@[simp] theorem setTlb_mem (m : Mode) (t : Tlb) (s : State) : (setTlb m t s).mem = s.mem := by cases m <;> rfl
@[simp] theorem setTlb_pager (m : Mode) (t : Tlb) (s : State) : (setTlb m t s).pager = s.pager := by cases m <;> rfl
@[simp] theorem setTlb_acs (m : Mode) (t : Tlb) (s : State) : (setTlb m t s).acs = s.acs := by cases m <;> rfl
@[simp] theorem setTlb_fd (m : Mode) (t : Tlb) (s : State) : (setTlb m t s).fd = s.fd := by cases m <;> rfl
@[simp] theorem setTlb_abk (m : Mode) (t : Tlb) (s : State) : (setTlb m t s).abk = s.abk := by cases m <;> rfl
@[simp] theorem setTlb_abkHits (m : Mode) (t : Tlb) (s : State) : (setTlb m t s).abkHits = s.abkHits := by cases m <;> rfl
@[simp] theorem setTlb_sts (m : Mode) (t : Tlb) (s : State) : (setTlb m t s).sts = s.sts := by cases m <;> rfl
@[simp] theorem setTlb_halted (m : Mode) (t : Tlb) (s : State) : (setTlb m t s).halted = s.halted := by cases m <;> rfl
@[simp] theorem setTlb_fatalCode (m : Mode) (t : Tlb) (s : State) : (setTlb m t s).fatalCode = s.fatalCode := by cases m <;> rfl
@[simp] theorem setTlb_inTrap (m : Mode) (t : Tlb) (s : State) : (setTlb m t s).inTrap = s.inTrap := by cases m <;> rfl
@[simp] theorem setTlb_port (m : Mode) (t : Tlb) (s : State) : (setTlb m t s).port = s.port := by cases m <;> rfl
@[simp] theorem setTlb_resp (m : Mode) (t : Tlb) (s : State) : (setTlb m t s).resp = s.resp := by cases m <;> rfl
@[simp] theorem setTlb_events (m : Mode) (t : Tlb) (s : State) : (setTlb m t s).events = s.events := by cases m <;> rfl

/-! ### setSaved -/

@[simp] theorem setSaved_cfg (m : Mode) (v : Access) (s : State) : (setSaved m v s).cfg = s.cfg := by cases m <;> rfl
@[simp] theorem setSaved_mem (m : Mode) (v : Access) (s : State) : (setSaved m v s).mem = s.mem := by cases m <;> rfl
@[simp] theorem setSaved_tlb (m : Mode) (v : Access) (s : State) : (setSaved m v s).tlb = s.tlb := by cases m <;> rfl
@[simp] theorem setSaved_pager (m : Mode) (v : Access) (s : State) : (setSaved m v s).pager = s.pager := by cases m <;> rfl
@[simp] theorem setSaved_acs (m : Mode) (v : Access) (s : State) : (setSaved m v s).acs = s.acs := by cases m <;> rfl
@[simp] theorem setSaved_fd (m : Mode) (v : Access) (s : State) : (setSaved m v s).fd = s.fd := by cases m <;> rfl
@[simp] theorem setSaved_abkHits (m : Mode) (v : Access) (s : State) : (setSaved m v s).abkHits = s.abkHits := by cases m <;> rfl
@[simp] theorem setSaved_sts (m : Mode) (v : Access) (s : State) : (setSaved m v s).sts = s.sts := by cases m <;> rfl
@[simp] theorem setSaved_halted (m : Mode) (v : Access) (s : State) : (setSaved m v s).halted = s.halted := by cases m <;> rfl
@[simp] theorem setSaved_fatalCode (m : Mode) (v : Access) (s : State) : (setSaved m v s).fatalCode = s.fatalCode := by cases m <;> rfl
@[simp] theorem setSaved_inTrap (m : Mode) (v : Access) (s : State) : (setSaved m v s).inTrap = s.inTrap := by cases m <;> rfl
@[simp] theorem setSaved_port (m : Mode) (v : Access) (s : State) : (setSaved m v s).port = s.port := by cases m <;> rfl
@[simp] theorem setSaved_resp (m : Mode) (v : Access) (s : State) : (setSaved m v s).resp = s.resp := by cases m <;> rfl
@[simp] theorem setSaved_events (m : Mode) (v : Access) (s : State) : (setSaved m v s).events = s.events := by cases m <;> rfl

/-! ### setEntry -/

@[simp] theorem setEntry_cfg (m : Mode) (vp : Nat) (e : Entry) (s : State) : (setEntry m vp e s).cfg = s.cfg := by cases m <;> rfl
@[simp] theorem setEntry_mem (m : Mode) (vp : Nat) (e : Entry) (s : State) : (setEntry m vp e s).mem = s.mem := by cases m <;> rfl
@[simp] theorem setEntry_pager (m : Mode) (vp : Nat) (e : Entry) (s : State) : (setEntry m vp e s).pager = s.pager := by cases m <;> rfl
@[simp] theorem setEntry_acs (m : Mode) (vp : Nat) (e : Entry) (s : State) : (setEntry m vp e s).acs = s.acs := by cases m <;> rfl
@[simp] theorem setEntry_fd (m : Mode) (vp : Nat) (e : Entry) (s : State) : (setEntry m vp e s).fd = s.fd := by cases m <;> rfl
@[simp] theorem setEntry_abk (m : Mode) (vp : Nat) (e : Entry) (s : State) : (setEntry m vp e s).abk = s.abk := by cases m <;> rfl
@[simp] theorem setEntry_abkHits (m : Mode) (vp : Nat) (e : Entry) (s : State) : (setEntry m vp e s).abkHits = s.abkHits := by cases m <;> rfl
@[simp] theorem setEntry_sts (m : Mode) (vp : Nat) (e : Entry) (s : State) : (setEntry m vp e s).sts = s.sts := by cases m <;> rfl
@[simp] theorem setEntry_halted (m : Mode) (vp : Nat) (e : Entry) (s : State) : (setEntry m vp e s).halted = s.halted := by cases m <;> rfl
@[simp] theorem setEntry_fatalCode (m : Mode) (vp : Nat) (e : Entry) (s : State) : (setEntry m vp e s).fatalCode = s.fatalCode := by cases m <;> rfl
@[simp] theorem setEntry_inTrap (m : Mode) (vp : Nat) (e : Entry) (s : State) : (setEntry m vp e s).inTrap = s.inTrap := by cases m <;> rfl
@[simp] theorem setEntry_port (m : Mode) (vp : Nat) (e : Entry) (s : State) : (setEntry m vp e s).port = s.port := by cases m <;> rfl
@[simp] theorem setEntry_resp (m : Mode) (vp : Nat) (e : Entry) (s : State) : (setEntry m vp e s).resp = s.resp := by cases m <;> rfl
@[simp] theorem setEntry_events (m : Mode) (vp : Nat) (e : Entry) (s : State) : (setEntry m vp e s).events = s.events := by cases m <;> rfl

/-! ### setAccess -/

@[simp] theorem setAccess_cfg (m : Mode) (vp : Nat) (a : Access) (s : State) : (setAccess m vp a s).cfg = s.cfg := by cases m <;> rfl
@[simp] theorem setAccess_mem (m : Mode) (vp : Nat) (a : Access) (s : State) : (setAccess m vp a s).mem = s.mem := by cases m <;> rfl
@[simp] theorem setAccess_pager (m : Mode) (vp : Nat) (a : Access) (s : State) : (setAccess m vp a s).pager = s.pager := by cases m <;> rfl
@[simp] theorem setAccess_acs (m : Mode) (vp : Nat) (a : Access) (s : State) : (setAccess m vp a s).acs = s.acs := by cases m <;> rfl
@[simp] theorem setAccess_fd (m : Mode) (vp : Nat) (a : Access) (s : State) : (setAccess m vp a s).fd = s.fd := by cases m <;> rfl
@[simp] theorem setAccess_abk (m : Mode) (vp : Nat) (a : Access) (s : State) : (setAccess m vp a s).abk = s.abk := by cases m <;> rfl
@[simp] theorem setAccess_abkHits (m : Mode) (vp : Nat) (a : Access) (s : State) : (setAccess m vp a s).abkHits = s.abkHits := by cases m <;> rfl
@[simp] theorem setAccess_sts (m : Mode) (vp : Nat) (a : Access) (s : State) : (setAccess m vp a s).sts = s.sts := by cases m <;> rfl
@[simp] theorem setAccess_halted (m : Mode) (vp : Nat) (a : Access) (s : State) : (setAccess m vp a s).halted = s.halted := by cases m <;> rfl
@[simp] theorem setAccess_fatalCode (m : Mode) (vp : Nat) (a : Access) (s : State) : (setAccess m vp a s).fatalCode = s.fatalCode := by cases m <;> rfl
@[simp] theorem setAccess_inTrap (m : Mode) (vp : Nat) (a : Access) (s : State) : (setAccess m vp a s).inTrap = s.inTrap := by cases m <;> rfl
@[simp] theorem setAccess_port (m : Mode) (vp : Nat) (a : Access) (s : State) : (setAccess m vp a s).port = s.port := by cases m <;> rfl
@[simp] theorem setAccess_resp (m : Mode) (vp : Nat) (a : Access) (s : State) : (setAccess m vp a s).resp = s.resp := by cases m <;> rfl
@[simp] theorem setAccess_events (m : Mode) (vp : Nat) (a : Access) (s : State) : (setAccess m vp a s).events = s.events := by cases m <;> rfl

/-! ### the parts of a cache pair and of the break -/

@[simp] theorem tlbOf_setTlb_same (m : Mode) (t : Tlb) (s : State) : tlbOf (setTlb m t s) m = t := by cases m <;> rfl

theorem tlbOf_setTlb (m m' : Mode) (t : Tlb) (s : State) :
    tlbOf (setTlb m t s) m' = if m' = m then t else tlbOf s m' := by cases m <;> cases m' <;> rfl

theorem tlbOf_congr {s t : State} (h : t.tlb = s.tlb) (m : Mode) : tlbOf t m = tlbOf s m := by
  cases m <;> simp [tlbOf, h]

theorem lookup_congr {s t : State} (h : t.tlb = s.tlb) (m : Mode) (vp : Nat) : lookup t m vp = lookup s m vp := by
  simp [lookup, tlbOf_congr h]

theorem memWord_congr {s t : State} (h : t.mem = s.mem) (pa : Nat) : memWord t pa = memWord s pa := by
  simp [memWord, h]

theorem memRead_congr {s t : State} (hm : t.mem = s.mem) (hc : t.cfg = s.cfg) (pa : Nat) :
    memRead t pa = memRead s pa := by simp [memRead, memWord_congr hm, hc]

@[simp] theorem savedOf_setSaved_same (m : Mode) (v : Access) (s : State) : savedOf (setSaved m v s).abk m = v := by
  cases m <;> rfl

theorem savedOf_setSaved (m m' : Mode) (v : Access) (s : State) :
    savedOf (setSaved m v s).abk m' = if m' = m then v else savedOf s.abk m' := by cases m <;> cases m' <;> rfl

@[simp] theorem setSaved_abk_active (m : Mode) (v : Access) (s : State) : (setSaved m v s).abk.active = s.abk.active := by
  cases m <;> rfl
@[simp] theorem setSaved_abk_page (m : Mode) (v : Access) (s : State) : (setSaved m v s).abk.page = s.abk.page := by
  cases m <;> rfl
@[simp] theorem setSaved_abk_addr (m : Mode) (v : Access) (s : State) : (setSaved m v s).abk.addr = s.abk.addr := by
  cases m <;> rfl
@[simp] theorem setSaved_abk_cond (m : Mode) (v : Access) (s : State) : (setSaved m v s).abk.cond = s.abk.cond := by
  cases m <;> rfl

end Sys2Proof.Machine
end

