-- ==== Sys2Proof/Laws/Frames.lean ====
section
/-! SUPPORT. What the operations made of the updates of State.lean leave alone, field by field. -/

namespace Sys2Proof.Machine

open Sys2Proof

/-- A field of the state a memory write gives. -/
theorem memWrite_fields {s t : State} {pa : Nat} {w : Word} (h : memWrite pa w s = some t) :
    t = { s with mem := sparsePut unlistedWord pa w s.mem, events := s.events ++ [.memWrite pa w] } := by
  unfold memWrite at h; split at h <;> simp_all [eq_comm]


/-! ### invalidateMap -/

@[simp] theorem invalidateMap_cfg (m : Mode) (s : State) : (invalidateMap m s).cfg = s.cfg := by
  simp only [invalidateMap]; split <;> simp
@[simp] theorem invalidateMap_mem (m : Mode) (s : State) : (invalidateMap m s).mem = s.mem := by
  simp only [invalidateMap]; split <;> simp
@[simp] theorem invalidateMap_pager (m : Mode) (s : State) : (invalidateMap m s).pager = s.pager := by
  simp only [invalidateMap]; split <;> simp
@[simp] theorem invalidateMap_acs (m : Mode) (s : State) : (invalidateMap m s).acs = s.acs := by
  simp only [invalidateMap]; split <;> simp
@[simp] theorem invalidateMap_fd (m : Mode) (s : State) : (invalidateMap m s).fd = s.fd := by
  simp only [invalidateMap]; split <;> simp
@[simp] theorem invalidateMap_abkHits (m : Mode) (s : State) : (invalidateMap m s).abkHits = s.abkHits := by
  simp only [invalidateMap]; split <;> simp
@[simp] theorem invalidateMap_sts (m : Mode) (s : State) : (invalidateMap m s).sts = s.sts := by
  simp only [invalidateMap]; split <;> simp
@[simp] theorem invalidateMap_halted (m : Mode) (s : State) : (invalidateMap m s).halted = s.halted := by
  simp only [invalidateMap]; split <;> simp
@[simp] theorem invalidateMap_fatalCode (m : Mode) (s : State) : (invalidateMap m s).fatalCode = s.fatalCode := by
  simp only [invalidateMap]; split <;> simp
@[simp] theorem invalidateMap_inTrap (m : Mode) (s : State) : (invalidateMap m s).inTrap = s.inTrap := by
  simp only [invalidateMap]; split <;> simp
@[simp] theorem invalidateMap_port (m : Mode) (s : State) : (invalidateMap m s).port = s.port := by
  simp only [invalidateMap]; split <;> simp
@[simp] theorem invalidateMap_resp (m : Mode) (s : State) : (invalidateMap m s).resp = s.resp := by
  simp only [invalidateMap]; split <;> simp
@[simp] theorem invalidateMap_events (m : Mode) (s : State) : (invalidateMap m s).events = s.events := by
  simp only [invalidateMap]; split <;> simp

/-! ### invalidateBoth -/

@[simp] theorem invalidateBoth_cfg (s : State) : (invalidateBoth  s).cfg = s.cfg := by simp [invalidateBoth]
@[simp] theorem invalidateBoth_mem (s : State) : (invalidateBoth  s).mem = s.mem := by simp [invalidateBoth]
@[simp] theorem invalidateBoth_pager (s : State) : (invalidateBoth  s).pager = s.pager := by simp [invalidateBoth]
@[simp] theorem invalidateBoth_acs (s : State) : (invalidateBoth  s).acs = s.acs := by simp [invalidateBoth]
@[simp] theorem invalidateBoth_fd (s : State) : (invalidateBoth  s).fd = s.fd := by simp [invalidateBoth]
@[simp] theorem invalidateBoth_abkHits (s : State) : (invalidateBoth  s).abkHits = s.abkHits := by simp [invalidateBoth]
@[simp] theorem invalidateBoth_sts (s : State) : (invalidateBoth  s).sts = s.sts := by simp [invalidateBoth]
@[simp] theorem invalidateBoth_halted (s : State) : (invalidateBoth  s).halted = s.halted := by simp [invalidateBoth]
@[simp] theorem invalidateBoth_fatalCode (s : State) : (invalidateBoth  s).fatalCode = s.fatalCode := by simp [invalidateBoth]
@[simp] theorem invalidateBoth_inTrap (s : State) : (invalidateBoth  s).inTrap = s.inTrap := by simp [invalidateBoth]
@[simp] theorem invalidateBoth_port (s : State) : (invalidateBoth  s).port = s.port := by simp [invalidateBoth]
@[simp] theorem invalidateBoth_resp (s : State) : (invalidateBoth  s).resp = s.resp := by simp [invalidateBoth]
@[simp] theorem invalidateBoth_events (s : State) : (invalidateBoth  s).events = s.events := by simp [invalidateBoth]

/-! ### invalidatePage -/

@[simp] theorem invalidatePage_cfg (m : Mode) (vp : Nat) (s : State) : (invalidatePage m vp s).cfg = s.cfg := by
  simp only [invalidatePage]; split <;> simp
@[simp] theorem invalidatePage_mem (m : Mode) (vp : Nat) (s : State) : (invalidatePage m vp s).mem = s.mem := by
  simp only [invalidatePage]; split <;> simp
@[simp] theorem invalidatePage_pager (m : Mode) (vp : Nat) (s : State) : (invalidatePage m vp s).pager = s.pager := by
  simp only [invalidatePage]; split <;> simp
@[simp] theorem invalidatePage_acs (m : Mode) (vp : Nat) (s : State) : (invalidatePage m vp s).acs = s.acs := by
  simp only [invalidatePage]; split <;> simp
@[simp] theorem invalidatePage_fd (m : Mode) (vp : Nat) (s : State) : (invalidatePage m vp s).fd = s.fd := by
  simp only [invalidatePage]; split <;> simp
@[simp] theorem invalidatePage_abkHits (m : Mode) (vp : Nat) (s : State) : (invalidatePage m vp s).abkHits = s.abkHits := by
  simp only [invalidatePage]; split <;> simp
@[simp] theorem invalidatePage_sts (m : Mode) (vp : Nat) (s : State) : (invalidatePage m vp s).sts = s.sts := by
  simp only [invalidatePage]; split <;> simp
@[simp] theorem invalidatePage_halted (m : Mode) (vp : Nat) (s : State) : (invalidatePage m vp s).halted = s.halted := by
  simp only [invalidatePage]; split <;> simp
@[simp] theorem invalidatePage_fatalCode (m : Mode) (vp : Nat) (s : State) : (invalidatePage m vp s).fatalCode = s.fatalCode := by
  simp only [invalidatePage]; split <;> simp
@[simp] theorem invalidatePage_inTrap (m : Mode) (vp : Nat) (s : State) : (invalidatePage m vp s).inTrap = s.inTrap := by
  simp only [invalidatePage]; split <;> simp
@[simp] theorem invalidatePage_port (m : Mode) (vp : Nat) (s : State) : (invalidatePage m vp s).port = s.port := by
  simp only [invalidatePage]; split <;> simp
@[simp] theorem invalidatePage_resp (m : Mode) (vp : Nat) (s : State) : (invalidatePage m vp s).resp = s.resp := by
  simp only [invalidatePage]; split <;> simp
@[simp] theorem invalidatePage_events (m : Mode) (vp : Nat) (s : State) : (invalidatePage m vp s).events = s.events := by
  simp only [invalidatePage]; split <;> simp

/-! ### invalidateAddress -/

@[simp] theorem invalidateAddress_cfg (va : VAddr) (s : State) : (invalidateAddress va s).cfg = s.cfg := by
  simp only [invalidateAddress]; split <;> simp
@[simp] theorem invalidateAddress_mem (va : VAddr) (s : State) : (invalidateAddress va s).mem = s.mem := by
  simp only [invalidateAddress]; split <;> simp
@[simp] theorem invalidateAddress_pager (va : VAddr) (s : State) : (invalidateAddress va s).pager = s.pager := by
  simp only [invalidateAddress]; split <;> simp
@[simp] theorem invalidateAddress_acs (va : VAddr) (s : State) : (invalidateAddress va s).acs = s.acs := by
  simp only [invalidateAddress]; split <;> simp
@[simp] theorem invalidateAddress_fd (va : VAddr) (s : State) : (invalidateAddress va s).fd = s.fd := by
  simp only [invalidateAddress]; split <;> simp
@[simp] theorem invalidateAddress_abkHits (va : VAddr) (s : State) : (invalidateAddress va s).abkHits = s.abkHits := by
  simp only [invalidateAddress]; split <;> simp
@[simp] theorem invalidateAddress_sts (va : VAddr) (s : State) : (invalidateAddress va s).sts = s.sts := by
  simp only [invalidateAddress]; split <;> simp
@[simp] theorem invalidateAddress_halted (va : VAddr) (s : State) : (invalidateAddress va s).halted = s.halted := by
  simp only [invalidateAddress]; split <;> simp
@[simp] theorem invalidateAddress_fatalCode (va : VAddr) (s : State) : (invalidateAddress va s).fatalCode = s.fatalCode := by
  simp only [invalidateAddress]; split <;> simp
@[simp] theorem invalidateAddress_inTrap (va : VAddr) (s : State) : (invalidateAddress va s).inTrap = s.inTrap := by
  simp only [invalidateAddress]; split <;> simp
@[simp] theorem invalidateAddress_port (va : VAddr) (s : State) : (invalidateAddress va s).port = s.port := by
  simp only [invalidateAddress]; split <;> simp
@[simp] theorem invalidateAddress_resp (va : VAddr) (s : State) : (invalidateAddress va s).resp = s.resp := by
  simp only [invalidateAddress]; split <;> simp
@[simp] theorem invalidateAddress_events (va : VAddr) (s : State) : (invalidateAddress va s).events = s.events := by
  simp only [invalidateAddress]; split <;> simp

/-! ### restoreAccess -/

@[simp] theorem restoreAccess_cfg (m : Mode) (s : State) : (restoreAccess m s).cfg = s.cfg := by
  simp only [restoreAccess]; split <;> simp
@[simp] theorem restoreAccess_mem (m : Mode) (s : State) : (restoreAccess m s).mem = s.mem := by
  simp only [restoreAccess]; split <;> simp
@[simp] theorem restoreAccess_pager (m : Mode) (s : State) : (restoreAccess m s).pager = s.pager := by
  simp only [restoreAccess]; split <;> simp
@[simp] theorem restoreAccess_acs (m : Mode) (s : State) : (restoreAccess m s).acs = s.acs := by
  simp only [restoreAccess]; split <;> simp
@[simp] theorem restoreAccess_fd (m : Mode) (s : State) : (restoreAccess m s).fd = s.fd := by
  simp only [restoreAccess]; split <;> simp
@[simp] theorem restoreAccess_abk (m : Mode) (s : State) : (restoreAccess m s).abk = s.abk := by
  simp only [restoreAccess]; split <;> simp
@[simp] theorem restoreAccess_abkHits (m : Mode) (s : State) : (restoreAccess m s).abkHits = s.abkHits := by
  simp only [restoreAccess]; split <;> simp
@[simp] theorem restoreAccess_sts (m : Mode) (s : State) : (restoreAccess m s).sts = s.sts := by
  simp only [restoreAccess]; split <;> simp
@[simp] theorem restoreAccess_halted (m : Mode) (s : State) : (restoreAccess m s).halted = s.halted := by
  simp only [restoreAccess]; split <;> simp
@[simp] theorem restoreAccess_fatalCode (m : Mode) (s : State) : (restoreAccess m s).fatalCode = s.fatalCode := by
  simp only [restoreAccess]; split <;> simp
@[simp] theorem restoreAccess_inTrap (m : Mode) (s : State) : (restoreAccess m s).inTrap = s.inTrap := by
  simp only [restoreAccess]; split <;> simp
@[simp] theorem restoreAccess_port (m : Mode) (s : State) : (restoreAccess m s).port = s.port := by
  simp only [restoreAccess]; split <;> simp
@[simp] theorem restoreAccess_resp (m : Mode) (s : State) : (restoreAccess m s).resp = s.resp := by
  simp only [restoreAccess]; split <;> simp
@[simp] theorem restoreAccess_events (m : Mode) (s : State) : (restoreAccess m s).events = s.events := by
  simp only [restoreAccess]; split <;> simp

/-! ### disarm -/

@[simp] theorem disarm_cfg (s : State) : (disarm  s).cfg = s.cfg := by simp [disarm]
@[simp] theorem disarm_mem (s : State) : (disarm  s).mem = s.mem := by simp [disarm]
@[simp] theorem disarm_pager (s : State) : (disarm  s).pager = s.pager := by simp [disarm]
@[simp] theorem disarm_acs (s : State) : (disarm  s).acs = s.acs := by simp [disarm]
@[simp] theorem disarm_fd (s : State) : (disarm  s).fd = s.fd := by simp [disarm]
@[simp] theorem disarm_sts (s : State) : (disarm  s).sts = s.sts := by simp [disarm]
@[simp] theorem disarm_halted (s : State) : (disarm  s).halted = s.halted := by simp [disarm]
@[simp] theorem disarm_fatalCode (s : State) : (disarm  s).fatalCode = s.fatalCode := by simp [disarm]
@[simp] theorem disarm_inTrap (s : State) : (disarm  s).inTrap = s.inTrap := by simp [disarm]
@[simp] theorem disarm_port (s : State) : (disarm  s).port = s.port := by simp [disarm]
@[simp] theorem disarm_resp (s : State) : (disarm  s).resp = s.resp := by simp [disarm]
@[simp] theorem disarm_events (s : State) : (disarm  s).events = s.events := by simp [disarm]
@[simp] theorem disarm_abk (s : State) : (disarm s).abk = Abk.idle := rfl
@[simp] theorem disarm_abkHits (s : State) : (disarm s).abkHits = 0 := rfl

/-! ### forceAccess -/

@[simp] theorem forceAccess_cfg (cond : BitVec 4) (vp : Nat) (m : Mode) (s : State) : (forceAccess cond vp m s).cfg = s.cfg := by
  simp only [forceAccess]; split <;> simp
@[simp] theorem forceAccess_mem (cond : BitVec 4) (vp : Nat) (m : Mode) (s : State) : (forceAccess cond vp m s).mem = s.mem := by
  simp only [forceAccess]; split <;> simp
@[simp] theorem forceAccess_pager (cond : BitVec 4) (vp : Nat) (m : Mode) (s : State) : (forceAccess cond vp m s).pager = s.pager := by
  simp only [forceAccess]; split <;> simp
@[simp] theorem forceAccess_acs (cond : BitVec 4) (vp : Nat) (m : Mode) (s : State) : (forceAccess cond vp m s).acs = s.acs := by
  simp only [forceAccess]; split <;> simp
@[simp] theorem forceAccess_fd (cond : BitVec 4) (vp : Nat) (m : Mode) (s : State) : (forceAccess cond vp m s).fd = s.fd := by
  simp only [forceAccess]; split <;> simp
@[simp] theorem forceAccess_abkHits (cond : BitVec 4) (vp : Nat) (m : Mode) (s : State) : (forceAccess cond vp m s).abkHits = s.abkHits := by
  simp only [forceAccess]; split <;> simp
@[simp] theorem forceAccess_sts (cond : BitVec 4) (vp : Nat) (m : Mode) (s : State) : (forceAccess cond vp m s).sts = s.sts := by
  simp only [forceAccess]; split <;> simp
@[simp] theorem forceAccess_halted (cond : BitVec 4) (vp : Nat) (m : Mode) (s : State) : (forceAccess cond vp m s).halted = s.halted := by
  simp only [forceAccess]; split <;> simp
@[simp] theorem forceAccess_fatalCode (cond : BitVec 4) (vp : Nat) (m : Mode) (s : State) : (forceAccess cond vp m s).fatalCode = s.fatalCode := by
  simp only [forceAccess]; split <;> simp
@[simp] theorem forceAccess_inTrap (cond : BitVec 4) (vp : Nat) (m : Mode) (s : State) : (forceAccess cond vp m s).inTrap = s.inTrap := by
  simp only [forceAccess]; split <;> simp
@[simp] theorem forceAccess_port (cond : BitVec 4) (vp : Nat) (m : Mode) (s : State) : (forceAccess cond vp m s).port = s.port := by
  simp only [forceAccess]; split <;> simp
@[simp] theorem forceAccess_resp (cond : BitVec 4) (vp : Nat) (m : Mode) (s : State) : (forceAccess cond vp m s).resp = s.resp := by
  simp only [forceAccess]; split <;> simp
@[simp] theorem forceAccess_events (cond : BitVec 4) (vp : Nat) (m : Mode) (s : State) : (forceAccess cond vp m s).events = s.events := by
  simp only [forceAccess]; split <;> simp

/-! ### armWatch -/

@[simp] theorem armWatch_cfg (cond : BitVec 4) (p : VParts) (s : State) : (armWatch cond p s).cfg = s.cfg := by simp [armWatch]
@[simp] theorem armWatch_mem (cond : BitVec 4) (p : VParts) (s : State) : (armWatch cond p s).mem = s.mem := by simp [armWatch]
@[simp] theorem armWatch_pager (cond : BitVec 4) (p : VParts) (s : State) : (armWatch cond p s).pager = s.pager := by simp [armWatch]
@[simp] theorem armWatch_acs (cond : BitVec 4) (p : VParts) (s : State) : (armWatch cond p s).acs = s.acs := by simp [armWatch]
@[simp] theorem armWatch_fd (cond : BitVec 4) (p : VParts) (s : State) : (armWatch cond p s).fd = s.fd := by simp [armWatch]
@[simp] theorem armWatch_abkHits (cond : BitVec 4) (p : VParts) (s : State) : (armWatch cond p s).abkHits = s.abkHits := by simp [armWatch]
@[simp] theorem armWatch_sts (cond : BitVec 4) (p : VParts) (s : State) : (armWatch cond p s).sts = s.sts := by simp [armWatch]
@[simp] theorem armWatch_halted (cond : BitVec 4) (p : VParts) (s : State) : (armWatch cond p s).halted = s.halted := by simp [armWatch]
@[simp] theorem armWatch_fatalCode (cond : BitVec 4) (p : VParts) (s : State) : (armWatch cond p s).fatalCode = s.fatalCode := by simp [armWatch]
@[simp] theorem armWatch_inTrap (cond : BitVec 4) (p : VParts) (s : State) : (armWatch cond p s).inTrap = s.inTrap := by simp [armWatch]
@[simp] theorem armWatch_port (cond : BitVec 4) (p : VParts) (s : State) : (armWatch cond p s).port = s.port := by simp [armWatch]
@[simp] theorem armWatch_resp (cond : BitVec 4) (p : VParts) (s : State) : (armWatch cond p s).resp = s.resp := by simp [armWatch]
@[simp] theorem armWatch_events (cond : BitVec 4) (p : VParts) (s : State) : (armWatch cond p s).events = s.events := by simp [armWatch]

/-! ### arm -/

@[simp] theorem arm_cfg (cond : BitVec 4) (va : VAddr) (s : State) : (arm cond va s).cfg = s.cfg := by
  simp only [arm]; split <;> simp
@[simp] theorem arm_mem (cond : BitVec 4) (va : VAddr) (s : State) : (arm cond va s).mem = s.mem := by
  simp only [arm]; split <;> simp
@[simp] theorem arm_pager (cond : BitVec 4) (va : VAddr) (s : State) : (arm cond va s).pager = s.pager := by
  simp only [arm]; split <;> simp
@[simp] theorem arm_acs (cond : BitVec 4) (va : VAddr) (s : State) : (arm cond va s).acs = s.acs := by
  simp only [arm]; split <;> simp
@[simp] theorem arm_fd (cond : BitVec 4) (va : VAddr) (s : State) : (arm cond va s).fd = s.fd := by
  simp only [arm]; split <;> simp
@[simp] theorem arm_sts (cond : BitVec 4) (va : VAddr) (s : State) : (arm cond va s).sts = s.sts := by
  simp only [arm]; split <;> simp
@[simp] theorem arm_halted (cond : BitVec 4) (va : VAddr) (s : State) : (arm cond va s).halted = s.halted := by
  simp only [arm]; split <;> simp
@[simp] theorem arm_fatalCode (cond : BitVec 4) (va : VAddr) (s : State) : (arm cond va s).fatalCode = s.fatalCode := by
  simp only [arm]; split <;> simp
@[simp] theorem arm_inTrap (cond : BitVec 4) (va : VAddr) (s : State) : (arm cond va s).inTrap = s.inTrap := by
  simp only [arm]; split <;> simp
@[simp] theorem arm_port (cond : BitVec 4) (va : VAddr) (s : State) : (arm cond va s).port = s.port := by
  simp only [arm]; split <;> simp
@[simp] theorem arm_resp (cond : BitVec 4) (va : VAddr) (s : State) : (arm cond va s).resp = s.resp := by
  simp only [arm]; split <;> simp
@[simp] theorem arm_events (cond : BitVec 4) (va : VAddr) (s : State) : (arm cond va s).events = s.events := by
  simp only [arm]; split <;> simp
@[simp] theorem arm_abkHits (cond : BitVec 4) (va : VAddr) (s : State) : (arm cond va s).abkHits = 0 := by
  simp only [arm]; split <;> simp

/-! ### recordFault -/

@[simp] theorem recordFault_cfg (fd : FaultDesc) (s : State) : (recordFault fd s).cfg = s.cfg := by
  simp only [recordFault]; split <;> rfl
@[simp] theorem recordFault_mem (fd : FaultDesc) (s : State) : (recordFault fd s).mem = s.mem := by
  simp only [recordFault]; split <;> rfl
@[simp] theorem recordFault_tlb (fd : FaultDesc) (s : State) : (recordFault fd s).tlb = s.tlb := by
  simp only [recordFault]; split <;> rfl
@[simp] theorem recordFault_pager (fd : FaultDesc) (s : State) : (recordFault fd s).pager = s.pager := by
  simp only [recordFault]; split <;> rfl
@[simp] theorem recordFault_acs (fd : FaultDesc) (s : State) : (recordFault fd s).acs = s.acs := by
  simp only [recordFault]; split <;> rfl
@[simp] theorem recordFault_abk (fd : FaultDesc) (s : State) : (recordFault fd s).abk = s.abk := by
  simp only [recordFault]; split <;> rfl
@[simp] theorem recordFault_abkHits (fd : FaultDesc) (s : State) : (recordFault fd s).abkHits = s.abkHits := by
  simp only [recordFault]; split <;> rfl
@[simp] theorem recordFault_halted (fd : FaultDesc) (s : State) : (recordFault fd s).halted = s.halted := by
  simp only [recordFault]; split <;> rfl
@[simp] theorem recordFault_fatalCode (fd : FaultDesc) (s : State) : (recordFault fd s).fatalCode = s.fatalCode := by
  simp only [recordFault]; split <;> rfl
@[simp] theorem recordFault_inTrap (fd : FaultDesc) (s : State) : (recordFault fd s).inTrap = s.inTrap := by
  simp only [recordFault]; split <;> rfl
@[simp] theorem recordFault_port (fd : FaultDesc) (s : State) : (recordFault fd s).port = s.port := by
  simp only [recordFault]; split <;> rfl
@[simp] theorem recordFault_resp (fd : FaultDesc) (s : State) : (recordFault fd s).resp = s.resp := by
  simp only [recordFault]; split <;> rfl
@[simp] theorem recordFault_events (fd : FaultDesc) (s : State) : (recordFault fd s).events = s.events := by
  simp only [recordFault]; split <;> rfl
@[simp] theorem recordFault_fd (fd : FaultDesc) (s : State) : (recordFault fd s).fd = fd := by
  simp only [recordFault]; split <;> rfl
@[simp] theorem recordFault_sts (fd : FaultDesc) (s : State) :
    (recordFault fd s).sts = if fd.nxm then s.sts ||| stsNxm else s.sts := by
  simp only [recordFault]; split <;> simp_all

/-! ### followSaved -/

@[simp] theorem followSaved_cfg (m : Mode) (vp : Nat) (acc : Access) (s : State) : (followSaved m vp acc s).cfg = s.cfg := by
  simp only [followSaved]; split <;> simp
@[simp] theorem followSaved_mem (m : Mode) (vp : Nat) (acc : Access) (s : State) : (followSaved m vp acc s).mem = s.mem := by
  simp only [followSaved]; split <;> simp
@[simp] theorem followSaved_tlb (m : Mode) (vp : Nat) (acc : Access) (s : State) : (followSaved m vp acc s).tlb = s.tlb := by
  simp only [followSaved]; split <;> simp
@[simp] theorem followSaved_pager (m : Mode) (vp : Nat) (acc : Access) (s : State) : (followSaved m vp acc s).pager = s.pager := by
  simp only [followSaved]; split <;> simp
@[simp] theorem followSaved_acs (m : Mode) (vp : Nat) (acc : Access) (s : State) : (followSaved m vp acc s).acs = s.acs := by
  simp only [followSaved]; split <;> simp
@[simp] theorem followSaved_fd (m : Mode) (vp : Nat) (acc : Access) (s : State) : (followSaved m vp acc s).fd = s.fd := by
  simp only [followSaved]; split <;> simp
@[simp] theorem followSaved_abkHits (m : Mode) (vp : Nat) (acc : Access) (s : State) : (followSaved m vp acc s).abkHits = s.abkHits := by
  simp only [followSaved]; split <;> simp
@[simp] theorem followSaved_sts (m : Mode) (vp : Nat) (acc : Access) (s : State) : (followSaved m vp acc s).sts = s.sts := by
  simp only [followSaved]; split <;> simp
@[simp] theorem followSaved_halted (m : Mode) (vp : Nat) (acc : Access) (s : State) : (followSaved m vp acc s).halted = s.halted := by
  simp only [followSaved]; split <;> simp
@[simp] theorem followSaved_fatalCode (m : Mode) (vp : Nat) (acc : Access) (s : State) : (followSaved m vp acc s).fatalCode = s.fatalCode := by
  simp only [followSaved]; split <;> simp
@[simp] theorem followSaved_inTrap (m : Mode) (vp : Nat) (acc : Access) (s : State) : (followSaved m vp acc s).inTrap = s.inTrap := by
  simp only [followSaved]; split <;> simp
@[simp] theorem followSaved_port (m : Mode) (vp : Nat) (acc : Access) (s : State) : (followSaved m vp acc s).port = s.port := by
  simp only [followSaved]; split <;> simp
@[simp] theorem followSaved_resp (m : Mode) (vp : Nat) (acc : Access) (s : State) : (followSaved m vp acc s).resp = s.resp := by
  simp only [followSaved]; split <;> simp
@[simp] theorem followSaved_events (m : Mode) (vp : Nat) (acc : Access) (s : State) : (followSaved m vp acc s).events = s.events := by
  simp only [followSaved]; split <;> simp

theorem commitStatus_eq (status : Option (Nat × Word)) (k : Kind) (s : State) :
    ∃ mem events, commitStatus status k s = { s with mem := mem, events := events } := by
  unfold commitStatus
  split
  · exact ⟨s.mem, s.events, rfl⟩
  · rename_i ca c
    cases h : memWrite ca (statusUpdate s c k) s with
    | none => exact ⟨s.mem, s.events, rfl⟩
    | some t => exact ⟨_, _, memWrite_fields h⟩

/-! ### commitStatus -/

@[simp] theorem commitStatus_cfg (status : Option (Nat × Word)) (k : Kind) (s : State) : (commitStatus status k s).cfg = s.cfg := by
  obtain ⟨_, _, h⟩ := commitStatus_eq status k s; rw [h]
@[simp] theorem commitStatus_tlb (status : Option (Nat × Word)) (k : Kind) (s : State) : (commitStatus status k s).tlb = s.tlb := by
  obtain ⟨_, _, h⟩ := commitStatus_eq status k s; rw [h]
@[simp] theorem commitStatus_pager (status : Option (Nat × Word)) (k : Kind) (s : State) : (commitStatus status k s).pager = s.pager := by
  obtain ⟨_, _, h⟩ := commitStatus_eq status k s; rw [h]
@[simp] theorem commitStatus_acs (status : Option (Nat × Word)) (k : Kind) (s : State) : (commitStatus status k s).acs = s.acs := by
  obtain ⟨_, _, h⟩ := commitStatus_eq status k s; rw [h]
@[simp] theorem commitStatus_fd (status : Option (Nat × Word)) (k : Kind) (s : State) : (commitStatus status k s).fd = s.fd := by
  obtain ⟨_, _, h⟩ := commitStatus_eq status k s; rw [h]
@[simp] theorem commitStatus_abk (status : Option (Nat × Word)) (k : Kind) (s : State) : (commitStatus status k s).abk = s.abk := by
  obtain ⟨_, _, h⟩ := commitStatus_eq status k s; rw [h]
@[simp] theorem commitStatus_abkHits (status : Option (Nat × Word)) (k : Kind) (s : State) : (commitStatus status k s).abkHits = s.abkHits := by
  obtain ⟨_, _, h⟩ := commitStatus_eq status k s; rw [h]
@[simp] theorem commitStatus_sts (status : Option (Nat × Word)) (k : Kind) (s : State) : (commitStatus status k s).sts = s.sts := by
  obtain ⟨_, _, h⟩ := commitStatus_eq status k s; rw [h]
@[simp] theorem commitStatus_halted (status : Option (Nat × Word)) (k : Kind) (s : State) : (commitStatus status k s).halted = s.halted := by
  obtain ⟨_, _, h⟩ := commitStatus_eq status k s; rw [h]
@[simp] theorem commitStatus_fatalCode (status : Option (Nat × Word)) (k : Kind) (s : State) : (commitStatus status k s).fatalCode = s.fatalCode := by
  obtain ⟨_, _, h⟩ := commitStatus_eq status k s; rw [h]
@[simp] theorem commitStatus_inTrap (status : Option (Nat × Word)) (k : Kind) (s : State) : (commitStatus status k s).inTrap = s.inTrap := by
  obtain ⟨_, _, h⟩ := commitStatus_eq status k s; rw [h]
@[simp] theorem commitStatus_port (status : Option (Nat × Word)) (k : Kind) (s : State) : (commitStatus status k s).port = s.port := by
  obtain ⟨_, _, h⟩ := commitStatus_eq status k s; rw [h]
@[simp] theorem commitStatus_resp (status : Option (Nat × Word)) (k : Kind) (s : State) : (commitStatus status k s).resp = s.resp := by
  obtain ⟨_, _, h⟩ := commitStatus_eq status k s; rw [h]

/-! ### commitRefill -/

@[simp] theorem commitRefill_cfg (m : Mode) (vp : Nat) (k : Kind) (ppn : Nat) (wperm : Bool) (status : Option (Nat × Word)) (s : State) : (commitRefill m vp k ppn wperm status s).cfg = s.cfg := by
  simp [commitRefill]
@[simp] theorem commitRefill_pager (m : Mode) (vp : Nat) (k : Kind) (ppn : Nat) (wperm : Bool) (status : Option (Nat × Word)) (s : State) : (commitRefill m vp k ppn wperm status s).pager = s.pager := by
  simp [commitRefill]
@[simp] theorem commitRefill_acs (m : Mode) (vp : Nat) (k : Kind) (ppn : Nat) (wperm : Bool) (status : Option (Nat × Word)) (s : State) : (commitRefill m vp k ppn wperm status s).acs = s.acs := by
  simp [commitRefill]
@[simp] theorem commitRefill_fd (m : Mode) (vp : Nat) (k : Kind) (ppn : Nat) (wperm : Bool) (status : Option (Nat × Word)) (s : State) : (commitRefill m vp k ppn wperm status s).fd = s.fd := by
  simp [commitRefill]
@[simp] theorem commitRefill_abkHits (m : Mode) (vp : Nat) (k : Kind) (ppn : Nat) (wperm : Bool) (status : Option (Nat × Word)) (s : State) : (commitRefill m vp k ppn wperm status s).abkHits = s.abkHits := by
  simp [commitRefill]
@[simp] theorem commitRefill_sts (m : Mode) (vp : Nat) (k : Kind) (ppn : Nat) (wperm : Bool) (status : Option (Nat × Word)) (s : State) : (commitRefill m vp k ppn wperm status s).sts = s.sts := by
  simp [commitRefill]
@[simp] theorem commitRefill_halted (m : Mode) (vp : Nat) (k : Kind) (ppn : Nat) (wperm : Bool) (status : Option (Nat × Word)) (s : State) : (commitRefill m vp k ppn wperm status s).halted = s.halted := by
  simp [commitRefill]
@[simp] theorem commitRefill_fatalCode (m : Mode) (vp : Nat) (k : Kind) (ppn : Nat) (wperm : Bool) (status : Option (Nat × Word)) (s : State) : (commitRefill m vp k ppn wperm status s).fatalCode = s.fatalCode := by
  simp [commitRefill]
@[simp] theorem commitRefill_inTrap (m : Mode) (vp : Nat) (k : Kind) (ppn : Nat) (wperm : Bool) (status : Option (Nat × Word)) (s : State) : (commitRefill m vp k ppn wperm status s).inTrap = s.inTrap := by
  simp [commitRefill]
@[simp] theorem commitRefill_port (m : Mode) (vp : Nat) (k : Kind) (ppn : Nat) (wperm : Bool) (status : Option (Nat × Word)) (s : State) : (commitRefill m vp k ppn wperm status s).port = s.port := by
  simp [commitRefill]
@[simp] theorem commitRefill_resp (m : Mode) (vp : Nat) (k : Kind) (ppn : Nat) (wperm : Bool) (status : Option (Nat × Word)) (s : State) : (commitRefill m vp k ppn wperm status s).resp = s.resp := by
  simp [commitRefill]

/-! ### fatalStop -/

@[simp] theorem fatalStop_cfg (code : FatalCode) (s : State) : (fatalStop code s).cfg = s.cfg := rfl
@[simp] theorem fatalStop_mem (code : FatalCode) (s : State) : (fatalStop code s).mem = s.mem := rfl
@[simp] theorem fatalStop_tlb (code : FatalCode) (s : State) : (fatalStop code s).tlb = s.tlb := rfl
@[simp] theorem fatalStop_pager (code : FatalCode) (s : State) : (fatalStop code s).pager = s.pager := rfl
@[simp] theorem fatalStop_acs (code : FatalCode) (s : State) : (fatalStop code s).acs = s.acs := rfl
@[simp] theorem fatalStop_fd (code : FatalCode) (s : State) : (fatalStop code s).fd = s.fd := rfl
@[simp] theorem fatalStop_abk (code : FatalCode) (s : State) : (fatalStop code s).abk = s.abk := rfl
@[simp] theorem fatalStop_abkHits (code : FatalCode) (s : State) : (fatalStop code s).abkHits = s.abkHits := rfl
@[simp] theorem fatalStop_sts (code : FatalCode) (s : State) : (fatalStop code s).sts = s.sts := rfl
@[simp] theorem fatalStop_port (code : FatalCode) (s : State) : (fatalStop code s).port = s.port := rfl
@[simp] theorem fatalStop_halted (code : FatalCode) (s : State) : (fatalStop code s).halted = true := rfl
@[simp] theorem fatalStop_fatalCode (code : FatalCode) (s : State) : (fatalStop code s).fatalCode = code := rfl
@[simp] theorem fatalStop_inTrap (code : FatalCode) (s : State) : (fatalStop code s).inTrap = false := rfl
@[simp] theorem fatalStop_resp (code : FatalCode) (s : State) :
    (fatalStop code s).resp = some ⟨.fatal, fatalCodeWord code, 0⟩ := rfl
@[simp] theorem fatalStop_events (code : FatalCode) (s : State) :
    (fatalStop code s).events = s.events ++ [.diag code s.fd] := rfl

/-! ### undoState -/

@[simp] theorem undoState_cfg (q : Seq) (ctx : Ctx) (s : State) : (undoState q ctx s).cfg = s.cfg := by
  simp only [undoState]; split <;> rfl
@[simp] theorem undoState_mem (q : Seq) (ctx : Ctx) (s : State) : (undoState q ctx s).mem = s.mem := by
  simp only [undoState]; split <;> rfl
@[simp] theorem undoState_tlb (q : Seq) (ctx : Ctx) (s : State) : (undoState q ctx s).tlb = s.tlb := by
  simp only [undoState]; split <;> rfl
@[simp] theorem undoState_pager (q : Seq) (ctx : Ctx) (s : State) : (undoState q ctx s).pager = s.pager := by
  simp only [undoState]; split <;> rfl
@[simp] theorem undoState_acs (q : Seq) (ctx : Ctx) (s : State) : (undoState q ctx s).acs = s.acs := by
  simp only [undoState]; split <;> rfl
@[simp] theorem undoState_fd (q : Seq) (ctx : Ctx) (s : State) : (undoState q ctx s).fd = s.fd := by
  simp only [undoState]; split <;> rfl
@[simp] theorem undoState_abk (q : Seq) (ctx : Ctx) (s : State) : (undoState q ctx s).abk = s.abk := by
  simp only [undoState]; split <;> rfl
@[simp] theorem undoState_abkHits (q : Seq) (ctx : Ctx) (s : State) : (undoState q ctx s).abkHits = s.abkHits := by
  simp only [undoState]; split <;> rfl
@[simp] theorem undoState_sts (q : Seq) (ctx : Ctx) (s : State) : (undoState q ctx s).sts = s.sts := by
  simp only [undoState]; split <;> rfl
@[simp] theorem undoState_halted (q : Seq) (ctx : Ctx) (s : State) : (undoState q ctx s).halted = s.halted := by
  simp only [undoState]; split <;> rfl
@[simp] theorem undoState_fatalCode (q : Seq) (ctx : Ctx) (s : State) : (undoState q ctx s).fatalCode = s.fatalCode := by
  simp only [undoState]; split <;> rfl
@[simp] theorem undoState_inTrap (q : Seq) (ctx : Ctx) (s : State) : (undoState q ctx s).inTrap = s.inTrap := by
  simp only [undoState]; split <;> rfl
@[simp] theorem undoState_port (q : Seq) (ctx : Ctx) (s : State) : (undoState q ctx s).port = s.port := by
  simp only [undoState]; split <;> rfl
@[simp] theorem undoState_resp (q : Seq) (ctx : Ctx) (s : State) : (undoState q ctx s).resp = s.resp := by
  simp only [undoState]; split <;> rfl

/-! ### countBreak -/

@[simp] theorem countBreak_cfg (s : State) : (countBreak  s).cfg = s.cfg := by
  simp only [countBreak]; split <;> rfl
@[simp] theorem countBreak_mem (s : State) : (countBreak  s).mem = s.mem := by
  simp only [countBreak]; split <;> rfl
@[simp] theorem countBreak_tlb (s : State) : (countBreak  s).tlb = s.tlb := by
  simp only [countBreak]; split <;> rfl
@[simp] theorem countBreak_pager (s : State) : (countBreak  s).pager = s.pager := by
  simp only [countBreak]; split <;> rfl
@[simp] theorem countBreak_acs (s : State) : (countBreak  s).acs = s.acs := by
  simp only [countBreak]; split <;> rfl
@[simp] theorem countBreak_fd (s : State) : (countBreak  s).fd = s.fd := by
  simp only [countBreak]; split <;> rfl
@[simp] theorem countBreak_abk (s : State) : (countBreak  s).abk = s.abk := by
  simp only [countBreak]; split <;> rfl
@[simp] theorem countBreak_sts (s : State) : (countBreak  s).sts = s.sts := by
  simp only [countBreak]; split <;> rfl
@[simp] theorem countBreak_halted (s : State) : (countBreak  s).halted = s.halted := by
  simp only [countBreak]; split <;> rfl
@[simp] theorem countBreak_fatalCode (s : State) : (countBreak  s).fatalCode = s.fatalCode := by
  simp only [countBreak]; split <;> rfl
@[simp] theorem countBreak_inTrap (s : State) : (countBreak  s).inTrap = s.inTrap := by
  simp only [countBreak]; split <;> rfl
@[simp] theorem countBreak_port (s : State) : (countBreak  s).port = s.port := by
  simp only [countBreak]; split <;> rfl
@[simp] theorem countBreak_resp (s : State) : (countBreak  s).resp = s.resp := by
  simp only [countBreak]; split <;> rfl
@[simp] theorem countBreak_events (s : State) : (countBreak  s).events = s.events := by
  simp only [countBreak]; split <;> rfl

/-! ### trapReturn -/

@[simp] theorem trapReturn_cfg (npc : PcBits) (nfl : FlagBits) (s : State) : (trapReturn npc nfl s).cfg = s.cfg := rfl
@[simp] theorem trapReturn_mem (npc : PcBits) (nfl : FlagBits) (s : State) : (trapReturn npc nfl s).mem = s.mem := rfl
@[simp] theorem trapReturn_tlb (npc : PcBits) (nfl : FlagBits) (s : State) : (trapReturn npc nfl s).tlb = s.tlb := rfl
@[simp] theorem trapReturn_pager (npc : PcBits) (nfl : FlagBits) (s : State) : (trapReturn npc nfl s).pager = s.pager := rfl
@[simp] theorem trapReturn_acs (npc : PcBits) (nfl : FlagBits) (s : State) : (trapReturn npc nfl s).acs = s.acs := rfl
@[simp] theorem trapReturn_fd (npc : PcBits) (nfl : FlagBits) (s : State) : (trapReturn npc nfl s).fd = s.fd := rfl
@[simp] theorem trapReturn_abk (npc : PcBits) (nfl : FlagBits) (s : State) : (trapReturn npc nfl s).abk = s.abk := rfl
@[simp] theorem trapReturn_abkHits (npc : PcBits) (nfl : FlagBits) (s : State) : (trapReturn npc nfl s).abkHits = s.abkHits := rfl
@[simp] theorem trapReturn_sts (npc : PcBits) (nfl : FlagBits) (s : State) : (trapReturn npc nfl s).sts = s.sts := rfl
@[simp] theorem trapReturn_halted (npc : PcBits) (nfl : FlagBits) (s : State) : (trapReturn npc nfl s).halted = s.halted := rfl
@[simp] theorem trapReturn_fatalCode (npc : PcBits) (nfl : FlagBits) (s : State) : (trapReturn npc nfl s).fatalCode = s.fatalCode := rfl
@[simp] theorem trapReturn_port (npc : PcBits) (nfl : FlagBits) (s : State) : (trapReturn npc nfl s).port = s.port := rfl
@[simp] theorem trapReturn_events (npc : PcBits) (nfl : FlagBits) (s : State) : (trapReturn npc nfl s).events = s.events := rfl
@[simp] theorem trapReturn_inTrap (npc : PcBits) (nfl : FlagBits) (s : State) : (trapReturn npc nfl s).inTrap = false := rfl
@[simp] theorem trapReturn_resp (npc : PcBits) (nfl : FlagBits) (s : State) :
    (trapReturn npc nfl s).resp = some ⟨.trap, pcWord npc, flagsWord nfl⟩ := rfl

/-! ### interruptAnomaly -/

@[simp] theorem interruptAnomaly_cfg (fw : Word) (s : State) : (interruptAnomaly fw s).cfg = s.cfg := by
  simp only [interruptAnomaly]; split <;> rfl
@[simp] theorem interruptAnomaly_mem (fw : Word) (s : State) : (interruptAnomaly fw s).mem = s.mem := by
  simp only [interruptAnomaly]; split <;> rfl
@[simp] theorem interruptAnomaly_tlb (fw : Word) (s : State) : (interruptAnomaly fw s).tlb = s.tlb := by
  simp only [interruptAnomaly]; split <;> rfl
@[simp] theorem interruptAnomaly_pager (fw : Word) (s : State) : (interruptAnomaly fw s).pager = s.pager := by
  simp only [interruptAnomaly]; split <;> rfl
@[simp] theorem interruptAnomaly_acs (fw : Word) (s : State) : (interruptAnomaly fw s).acs = s.acs := by
  simp only [interruptAnomaly]; split <;> rfl
@[simp] theorem interruptAnomaly_fd (fw : Word) (s : State) : (interruptAnomaly fw s).fd = s.fd := by
  simp only [interruptAnomaly]; split <;> rfl
@[simp] theorem interruptAnomaly_abk (fw : Word) (s : State) : (interruptAnomaly fw s).abk = s.abk := by
  simp only [interruptAnomaly]; split <;> rfl
@[simp] theorem interruptAnomaly_abkHits (fw : Word) (s : State) : (interruptAnomaly fw s).abkHits = s.abkHits := by
  simp only [interruptAnomaly]; split <;> rfl
@[simp] theorem interruptAnomaly_port (fw : Word) (s : State) : (interruptAnomaly fw s).port = s.port := by
  simp only [interruptAnomaly]; split <;> rfl

/-! ### trapShort -/

@[simp] theorem trapShort_cfg (tbase : Nat) (pc : PcBits) (flags : FlagBits) (s : State) : (trapShort tbase pc flags s).cfg = s.cfg := by
  simp only [trapShort]; split
  · rfl
  · rename_i h; split <;> simp [memWrite_fields h]
@[simp] theorem trapShort_tlb (tbase : Nat) (pc : PcBits) (flags : FlagBits) (s : State) : (trapShort tbase pc flags s).tlb = s.tlb := by
  simp only [trapShort]; split
  · rfl
  · rename_i h; split <;> simp [memWrite_fields h]
@[simp] theorem trapShort_pager (tbase : Nat) (pc : PcBits) (flags : FlagBits) (s : State) : (trapShort tbase pc flags s).pager = s.pager := by
  simp only [trapShort]; split
  · rfl
  · rename_i h; split <;> simp [memWrite_fields h]
@[simp] theorem trapShort_acs (tbase : Nat) (pc : PcBits) (flags : FlagBits) (s : State) : (trapShort tbase pc flags s).acs = s.acs := by
  simp only [trapShort]; split
  · rfl
  · rename_i h; split <;> simp [memWrite_fields h]
@[simp] theorem trapShort_fd (tbase : Nat) (pc : PcBits) (flags : FlagBits) (s : State) : (trapShort tbase pc flags s).fd = s.fd := by
  simp only [trapShort]; split
  · rfl
  · rename_i h; split <;> simp [memWrite_fields h]
@[simp] theorem trapShort_abk (tbase : Nat) (pc : PcBits) (flags : FlagBits) (s : State) : (trapShort tbase pc flags s).abk = s.abk := by
  simp only [trapShort]; split
  · rfl
  · rename_i h; split <;> simp [memWrite_fields h]
@[simp] theorem trapShort_abkHits (tbase : Nat) (pc : PcBits) (flags : FlagBits) (s : State) : (trapShort tbase pc flags s).abkHits = s.abkHits := by
  simp only [trapShort]; split
  · rfl
  · rename_i h; split <;> simp [memWrite_fields h]
@[simp] theorem trapShort_sts (tbase : Nat) (pc : PcBits) (flags : FlagBits) (s : State) : (trapShort tbase pc flags s).sts = s.sts := by
  simp only [trapShort]; split
  · rfl
  · rename_i h; split <;> simp [memWrite_fields h]
@[simp] theorem trapShort_port (tbase : Nat) (pc : PcBits) (flags : FlagBits) (s : State) : (trapShort tbase pc flags s).port = s.port := by
  simp only [trapShort]; split
  · rfl
  · rename_i h; split <;> simp [memWrite_fields h]

/-! ### trapLoadLong -/

@[simp] theorem trapLoadLong_cfg (tbase : Nat) (s : State) : (trapLoadLong tbase s).cfg = s.cfg := by
  simp only [trapLoadLong]; split
  · rfl
  · split <;> rfl
@[simp] theorem trapLoadLong_mem (tbase : Nat) (s : State) : (trapLoadLong tbase s).mem = s.mem := by
  simp only [trapLoadLong]; split
  · rfl
  · split <;> rfl
@[simp] theorem trapLoadLong_tlb (tbase : Nat) (s : State) : (trapLoadLong tbase s).tlb = s.tlb := by
  simp only [trapLoadLong]; split
  · rfl
  · split <;> rfl
@[simp] theorem trapLoadLong_pager (tbase : Nat) (s : State) : (trapLoadLong tbase s).pager = s.pager := by
  simp only [trapLoadLong]; split
  · rfl
  · split <;> rfl
@[simp] theorem trapLoadLong_acs (tbase : Nat) (s : State) : (trapLoadLong tbase s).acs = s.acs := by
  simp only [trapLoadLong]; split
  · rfl
  · split <;> rfl
@[simp] theorem trapLoadLong_fd (tbase : Nat) (s : State) : (trapLoadLong tbase s).fd = s.fd := by
  simp only [trapLoadLong]; split
  · rfl
  · split <;> rfl
@[simp] theorem trapLoadLong_abk (tbase : Nat) (s : State) : (trapLoadLong tbase s).abk = s.abk := by
  simp only [trapLoadLong]; split
  · rfl
  · split <;> rfl
@[simp] theorem trapLoadLong_abkHits (tbase : Nat) (s : State) : (trapLoadLong tbase s).abkHits = s.abkHits := by
  simp only [trapLoadLong]; split
  · rfl
  · split <;> rfl
@[simp] theorem trapLoadLong_sts (tbase : Nat) (s : State) : (trapLoadLong tbase s).sts = s.sts := by
  simp only [trapLoadLong]; split
  · rfl
  · split <;> rfl
@[simp] theorem trapLoadLong_port (tbase : Nat) (s : State) : (trapLoadLong tbase s).port = s.port := by
  simp only [trapLoadLong]; split
  · rfl
  · split <;> rfl

/-! ### trapLong -/

@[simp] theorem trapLong_cfg (tbase : Nat) (pc : PcBits) (flags : FlagBits) (s : State) : (trapLong tbase pc flags s).cfg = s.cfg := by
  simp only [trapLong]; split
  · rfl
  · rename_i h; split
    · simp [memWrite_fields h]
    · rename_i h2; simp [memWrite_fields h2, memWrite_fields h]
@[simp] theorem trapLong_tlb (tbase : Nat) (pc : PcBits) (flags : FlagBits) (s : State) : (trapLong tbase pc flags s).tlb = s.tlb := by
  simp only [trapLong]; split
  · rfl
  · rename_i h; split
    · simp [memWrite_fields h]
    · rename_i h2; simp [memWrite_fields h2, memWrite_fields h]
@[simp] theorem trapLong_pager (tbase : Nat) (pc : PcBits) (flags : FlagBits) (s : State) : (trapLong tbase pc flags s).pager = s.pager := by
  simp only [trapLong]; split
  · rfl
  · rename_i h; split
    · simp [memWrite_fields h]
    · rename_i h2; simp [memWrite_fields h2, memWrite_fields h]
@[simp] theorem trapLong_acs (tbase : Nat) (pc : PcBits) (flags : FlagBits) (s : State) : (trapLong tbase pc flags s).acs = s.acs := by
  simp only [trapLong]; split
  · rfl
  · rename_i h; split
    · simp [memWrite_fields h]
    · rename_i h2; simp [memWrite_fields h2, memWrite_fields h]
@[simp] theorem trapLong_fd (tbase : Nat) (pc : PcBits) (flags : FlagBits) (s : State) : (trapLong tbase pc flags s).fd = s.fd := by
  simp only [trapLong]; split
  · rfl
  · rename_i h; split
    · simp [memWrite_fields h]
    · rename_i h2; simp [memWrite_fields h2, memWrite_fields h]
@[simp] theorem trapLong_abk (tbase : Nat) (pc : PcBits) (flags : FlagBits) (s : State) : (trapLong tbase pc flags s).abk = s.abk := by
  simp only [trapLong]; split
  · rfl
  · rename_i h; split
    · simp [memWrite_fields h]
    · rename_i h2; simp [memWrite_fields h2, memWrite_fields h]
@[simp] theorem trapLong_abkHits (tbase : Nat) (pc : PcBits) (flags : FlagBits) (s : State) : (trapLong tbase pc flags s).abkHits = s.abkHits := by
  simp only [trapLong]; split
  · rfl
  · rename_i h; split
    · simp [memWrite_fields h]
    · rename_i h2; simp [memWrite_fields h2, memWrite_fields h]
@[simp] theorem trapLong_sts (tbase : Nat) (pc : PcBits) (flags : FlagBits) (s : State) : (trapLong tbase pc flags s).sts = s.sts := by
  simp only [trapLong]; split
  · rfl
  · rename_i h; split
    · simp [memWrite_fields h]
    · rename_i h2; simp [memWrite_fields h2, memWrite_fields h]
@[simp] theorem trapLong_port (tbase : Nat) (pc : PcBits) (flags : FlagBits) (s : State) : (trapLong tbase pc flags s).port = s.port := by
  simp only [trapLong]; split
  · rfl
  · rename_i h; split
    · simp [memWrite_fields h]
    · rename_i h2; simp [memWrite_fields h2, memWrite_fields h]

/-! ### trapDeliver -/

@[simp] theorem trapDeliver_cfg (fw : Word) (pc : PcBits) (flags : FlagBits) (s : State) : (trapDeliver fw pc flags s).cfg = s.cfg := by
  simp only [trapDeliver]; split
  · rfl
  · rename_i h; split <;> simp [memWrite_fields h]
@[simp] theorem trapDeliver_tlb (fw : Word) (pc : PcBits) (flags : FlagBits) (s : State) : (trapDeliver fw pc flags s).tlb = s.tlb := by
  simp only [trapDeliver]; split
  · rfl
  · rename_i h; split <;> simp [memWrite_fields h]
@[simp] theorem trapDeliver_pager (fw : Word) (pc : PcBits) (flags : FlagBits) (s : State) : (trapDeliver fw pc flags s).pager = s.pager := by
  simp only [trapDeliver]; split
  · rfl
  · rename_i h; split <;> simp [memWrite_fields h]
@[simp] theorem trapDeliver_acs (fw : Word) (pc : PcBits) (flags : FlagBits) (s : State) : (trapDeliver fw pc flags s).acs = s.acs := by
  simp only [trapDeliver]; split
  · rfl
  · rename_i h; split <;> simp [memWrite_fields h]
@[simp] theorem trapDeliver_fd (fw : Word) (pc : PcBits) (flags : FlagBits) (s : State) : (trapDeliver fw pc flags s).fd = s.fd := by
  simp only [trapDeliver]; split
  · rfl
  · rename_i h; split <;> simp [memWrite_fields h]
@[simp] theorem trapDeliver_abk (fw : Word) (pc : PcBits) (flags : FlagBits) (s : State) : (trapDeliver fw pc flags s).abk = s.abk := by
  simp only [trapDeliver]; split
  · rfl
  · rename_i h; split <;> simp [memWrite_fields h]
@[simp] theorem trapDeliver_abkHits (fw : Word) (pc : PcBits) (flags : FlagBits) (s : State) : (trapDeliver fw pc flags s).abkHits = s.abkHits := by
  simp only [trapDeliver]; split
  · rfl
  · rename_i h; split <;> simp [memWrite_fields h]
@[simp] theorem trapDeliver_sts (fw : Word) (pc : PcBits) (flags : FlagBits) (s : State) : (trapDeliver fw pc flags s).sts = s.sts := by
  simp only [trapDeliver]; split
  · rfl
  · rename_i h; split <;> simp [memWrite_fields h]
@[simp] theorem trapDeliver_port (fw : Word) (pc : PcBits) (flags : FlagBits) (s : State) : (trapDeliver fw pc flags s).port = s.port := by
  simp only [trapDeliver]; split
  · rfl
  · rename_i h; split <;> simp [memWrite_fields h]

/-! ### trap -/

@[simp] theorem trap_cfg (fw : Word) (ctx : Ctx) (s : State) : (trap fw ctx s).cfg = s.cfg := by
  simp only [trap]; split
  · simp
  · split <;> simp
@[simp] theorem trap_tlb (fw : Word) (ctx : Ctx) (s : State) : (trap fw ctx s).tlb = s.tlb := by
  simp only [trap]; split
  · simp
  · split <;> simp
@[simp] theorem trap_pager (fw : Word) (ctx : Ctx) (s : State) : (trap fw ctx s).pager = s.pager := by
  simp only [trap]; split
  · simp
  · split <;> simp
@[simp] theorem trap_acs (fw : Word) (ctx : Ctx) (s : State) : (trap fw ctx s).acs = s.acs := by
  simp only [trap]; split
  · simp
  · split <;> simp
@[simp] theorem trap_fd (fw : Word) (ctx : Ctx) (s : State) : (trap fw ctx s).fd = s.fd := by
  simp only [trap]; split
  · simp
  · split <;> simp
@[simp] theorem trap_abk (fw : Word) (ctx : Ctx) (s : State) : (trap fw ctx s).abk = s.abk := by
  simp only [trap]; split
  · simp
  · split <;> simp
@[simp] theorem trap_port (fw : Word) (ctx : Ctx) (s : State) : (trap fw ctx s).port = s.port := by
  simp only [trap]; split
  · simp
  · split <;> simp

/-! ### declareFault -/

@[simp] theorem declareFault_cfg (addr : VAddr) (kind : Kind) (map : MapSel) (cause : Cause) (ctx : Ctx) (trapAllowed : Bool) (s : State) : (declareFault addr kind map cause ctx trapAllowed s).cfg = s.cfg := by
  simp only [declareFault]; split <;> simp
@[simp] theorem declareFault_tlb (addr : VAddr) (kind : Kind) (map : MapSel) (cause : Cause) (ctx : Ctx) (trapAllowed : Bool) (s : State) : (declareFault addr kind map cause ctx trapAllowed s).tlb = s.tlb := by
  simp only [declareFault]; split <;> simp
@[simp] theorem declareFault_pager (addr : VAddr) (kind : Kind) (map : MapSel) (cause : Cause) (ctx : Ctx) (trapAllowed : Bool) (s : State) : (declareFault addr kind map cause ctx trapAllowed s).pager = s.pager := by
  simp only [declareFault]; split <;> simp
@[simp] theorem declareFault_acs (addr : VAddr) (kind : Kind) (map : MapSel) (cause : Cause) (ctx : Ctx) (trapAllowed : Bool) (s : State) : (declareFault addr kind map cause ctx trapAllowed s).acs = s.acs := by
  simp only [declareFault]; split <;> simp
@[simp] theorem declareFault_abk (addr : VAddr) (kind : Kind) (map : MapSel) (cause : Cause) (ctx : Ctx) (trapAllowed : Bool) (s : State) : (declareFault addr kind map cause ctx trapAllowed s).abk = s.abk := by
  simp only [declareFault]; split <;> simp
@[simp] theorem declareFault_port (addr : VAddr) (kind : Kind) (map : MapSel) (cause : Cause) (ctx : Ctx) (trapAllowed : Bool) (s : State) : (declareFault addr kind map cause ctx trapAllowed s).port = s.port := by
  simp only [declareFault]; split <;> simp
@[simp] theorem declareFault_fd (addr : VAddr) (kind : Kind) (map : MapSel) (cause : Cause) (ctx : Ctx)
    (trapAllowed : Bool) (s : State) :
    (declareFault addr kind map cause ctx trapAllowed s).fd = describeFault addr kind map cause := by
  simp only [declareFault]; split <;> simp

end Sys2Proof.Machine
end

