-- ==== Sys2Proof/Laws/Sparse.lean ====
section
/-! SUPPORT. The laws of sparse data: read after write, and that a write keeps the canonical form. -/

namespace Sys2Proof.Machine

variable {α : Type} [DecidableEq α] (d : α)

@[simp] theorem sparseGet_nil {α : Type} (d : α) (a : Nat) : sparseGet d [] a = d := rfl

theorem sparseGet_cons {α : Type} (d : α) (k : Nat) (v : α) (rest : List (Nat × α)) (a : Nat) :
    sparseGet d ((k, v) :: rest) a = if a = k then v else sparseGet d rest a := rfl

theorem sparseWf_nil {α : Type} (d : α) : sparseWf d [] := by simp [sparseWf]

theorem sparseWf_tail {α : Type} {d : α} {x : Nat × α} {rest : List (Nat × α)} (h : sparseWf d (x :: rest)) :
    sparseWf d rest :=
  ⟨h.1.of_cons, fun y hy => h.2 y (List.mem_cons_of_mem _ hy)⟩

/-- A key below every listed key is not listed. -/
theorem sparseGet_of_lt {α : Type} {d : α} {m : List (Nat × α)} {a : Nat} (h : ∀ x ∈ m, a < x.1) :
    sparseGet d m a = d := by
  induction m with
  | nil => rfl
  | cons x rest ih =>
    have hx := h x (by simp)
    rw [show x = (x.1, x.2) from rfl, sparseGet_cons, if_neg (by omega)]
    exact ih fun y hy => h y (by simp [hy])

theorem sparseWf_head {α : Type} {d : α} {k : Nat} {v : α} {rest : List (Nat × α)}
    (h : sparseWf d ((k, v) :: rest)) : ∀ x ∈ rest, k < x.1 :=
  (List.pairwise_cons.1 h.1).1

/-- Read after write, at the key written and at every other. -/
theorem sparseGet_put {m : List (Nat × α)} (hm : sparseWf d m) (a : Nat) (v : α) (b : Nat) :
    sparseGet d (sparsePut d a v m) b = if b = a then v else sparseGet d m b := by
  induction m with
  | nil =>
    unfold sparsePut
    split
    · subst v; simp
    · simp [sparseGet_cons]
  | cons x rest ih =>
    obtain ⟨k, w⟩ := x
    have hlt := sparseWf_head hm
    have hnot : sparseGet d rest k = d := sparseGet_of_lt hlt
    have low : a < k → sparseGet d rest a = d := fun h => sparseGet_of_lt fun y hy => h.trans (hlt y hy)
    simp only [sparsePut, sparseGet_cons]
    rcases lt_trichotomy a k with h | h | h
    · rw [if_pos h]
      by_cases hv : v = d
      · rw [if_pos hv, sparseGet_cons]
        by_cases hb : b = a
        · subst hb; rw [if_neg (by omega), low h]; simp [hv]
        · simp [hb]
      · rw [if_neg hv, sparseGet_cons, sparseGet_cons]
    · subst h
      rw [if_neg (lt_irrefl _), if_pos rfl]
      by_cases hv : v = d
      · rw [if_pos hv]
        by_cases hb : b = a
        · subst hb; simp [hv, hnot]
        · simp [hb]
      · rw [if_neg hv, sparseGet_cons]
        by_cases hb : b = a <;> simp [hb]
    · rw [if_neg (by omega), if_neg (by omega), sparseGet_cons, ih (sparseWf_tail hm)]
      by_cases hb : b = k
      · subst hb; simp [show ¬ b = a by omega]
      · simp [hb]

@[simp] theorem sparseGet_put_same {m : List (Nat × α)} (hm : sparseWf d m) (a : Nat) (v : α) :
    sparseGet d (sparsePut d a v m) a = v := by simp [sparseGet_put d hm]

/-- A put lists no key but its own and those listed before. -/
theorem mem_sparsePut {m : List (Nat × α)} {a : Nat} {v : α} {x : Nat × α} (hx : x ∈ sparsePut d a v m) :
    (x = (a, v) ∧ v ≠ d) ∨ x ∈ m := by
  induction m with
  | nil =>
    unfold sparsePut at hx
    split_ifs at hx with h <;> simp_all
  | cons y rest ih =>
    obtain ⟨k, w⟩ := y
    unfold sparsePut at hx
    split_ifs at hx with h1 h2 h3 h4
    · exact .inr hx
    · rcases List.mem_cons.1 hx with h | h
      · exact .inl ⟨h, h2⟩
      · exact .inr h
    · exact .inr (List.mem_cons_of_mem _ hx)
    · rcases List.mem_cons.1 hx with h | h
      · exact .inl ⟨h, h4⟩
      · exact .inr (List.mem_cons_of_mem _ h)
    · rcases List.mem_cons.1 hx with h | h
      · exact .inr (h ▸ List.mem_cons_self)
      · rcases ih h with h | h
        · exact .inl h
        · exact .inr (List.mem_cons_of_mem _ h)

/-- A put keeps the canonical form. -/
theorem sparsePut_wf {m : List (Nat × α)} (hm : sparseWf d m) (a : Nat) (v : α) : sparseWf d (sparsePut d a v m) := by
  refine ⟨?_, fun x hx => ?_⟩
  · induction m with
    | nil => unfold sparsePut; split_ifs <;> simp
    | cons y rest ih =>
      obtain ⟨k, w⟩ := y
      have hlt := sparseWf_head hm
      have hrest := (List.pairwise_cons.1 hm.1).2
      unfold sparsePut
      split_ifs with h1 h2 h3 h4
      · exact hm.1
      · refine List.pairwise_cons.2 ⟨fun z hz => ?_, hm.1⟩
        rcases List.mem_cons.1 hz with h | h
        · subst h; exact h1
        · exact h1.trans (hlt z h)
      · exact hrest
      · subst h3; exact List.pairwise_cons.2 ⟨hlt, hrest⟩
      · refine List.pairwise_cons.2 ⟨fun z hz => ?_, ih (sparseWf_tail hm)⟩
        rcases mem_sparsePut d hz with h | h
        · rw [h.1]; simp only; omega
        · exact hlt z h
  · rcases mem_sparsePut d hx with h | h
    · rw [h.1]; exact h.2
    · exact hm.2 x h

/-- A key whose value is not the default is listed. -/
theorem exists_of_sparseGet_ne {α : Type} {d : α} {m : List (Nat × α)} {a : Nat} (h : sparseGet d m a ≠ d) :
    (a, sparseGet d m a) ∈ m := by
  induction m with
  | nil => simp at h
  | cons x rest ih =>
    obtain ⟨k, v⟩ := x
    rw [sparseGet_cons] at h ⊢
    split_ifs at h ⊢ with h1
    · simp [h1]
    · exact List.mem_cons_of_mem _ (ih h)

/-- A listed value is what the key reads as. -/
theorem sparseGet_of_mem {α : Type} {d : α} {m : List (Nat × α)} (hm : sparseWf d m) {a : Nat} {v : α}
    (h : (a, v) ∈ m) : sparseGet d m a = v := by
  induction m with
  | nil => simp at h
  | cons x rest ih =>
    obtain ⟨k, w⟩ := x
    rw [sparseGet_cons]
    rcases List.mem_cons.1 h with h | h
    · cases h; simp
    · have := sparseWf_head hm _ h
      rw [if_neg (by simp only at this; omega)]
      exact ih (sparseWf_tail hm) h

/-- Canonical data that reads the same everywhere is the same data. -/
theorem sparse_ext {α : Type} {d : α} {m m' : List (Nat × α)} (hm : sparseWf d m) (hm' : sparseWf d m')
    (h : ∀ a, sparseGet d m a = sparseGet d m' a) : m = m' := by
  have mem_iff : ∀ x, x ∈ m ↔ x ∈ m' := by
    intro ⟨a, v⟩
    constructor
    · intro hx
      have h1 := sparseGet_of_mem hm hx
      have h2 : sparseGet d m' a ≠ d := by rw [← h a, h1]; exact hm.2 _ hx
      have := exists_of_sparseGet_ne h2
      rwa [← h a, h1] at this
    · intro hx
      have h1 := sparseGet_of_mem hm' hx
      have h2 : sparseGet d m a ≠ d := by rw [h a, h1]; exact hm'.2 _ hx
      have := exists_of_sparseGet_ne h2
      rwa [h a, h1] at this
  have nodup : ∀ l : List (Nat × α), l.Pairwise (fun x y => x.1 < y.1) → l.Nodup := fun l hl =>
    hl.imp fun {x y} hxy => by rintro rfl; exact absurd hxy (lt_irrefl _)
  have perm := (List.perm_ext_iff_of_nodup (nodup m hm.1) (nodup m' hm'.1)).2 mem_iff
  exact perm.eq_of_pairwise (fun a b _ _ h1 h2 => absurd (h1.trans h2) (lt_irrefl _)) hm.1 hm'.1

end Sys2Proof.Machine
end

