-- ==== Sys2Proof/Laws/Ops.lean ====
section
/-! SUPPORT. One lemma per shared operation that says once everything it can do; the provers cite these and unfold
nothing. -/

namespace Sys2Proof.Machine

open Sys2Proof

/-! ## The prologue (R129) -/

@[simp] theorem runCommand_illegal (f : State → Result) (s : State) :
    runCommand false f s = .next (answerIllegal s) := rfl

theorem runCommand_halted {f : State → Result} {s : State} (h : s.halted = true) :
    runCommand true f s = .next (answerHalted s) := by simp [runCommand, h]

theorem runCommand_running {f : State → Result} {s : State} (h : s.halted = false) :
    runCommand true f s = f (beginCommand s) := by simp [runCommand, h]

/-- The three ways a command goes. -/
theorem runCommand_cases {legal : Bool} {f : State → Result} {s : State} {r : Result} (h : runCommand legal f s = r) :
    (legal = false ∧ r = .next (answerIllegal s)) ∨
    (legal = true ∧ s.halted = true ∧ r = .next (answerHalted s)) ∨
    (legal = true ∧ s.halted = false ∧ r = f (beginCommand s)) := by
  subst h
  cases legal <;> cases hs : s.halted <;> simp [runCommand, hs]

/-! ## Reading what another state's update left alone -/

@[simp] theorem memRead_beginCommand (s : State) (pa : Nat) : memRead (beginCommand s) pa = memRead s pa := rfl
@[simp] theorem memWord_beginCommand (s : State) (pa : Nat) : memWord (beginCommand s) pa = memWord s pa := rfl
@[simp] theorem lookup_beginCommand (s : State) (m : Mode) (vp : Nat) :
    lookup (beginCommand s) m vp = lookup s m vp := by cases m <;> rfl
@[simp] theorem tlbOf_beginCommand (s : State) (m : Mode) : tlbOf (beginCommand s) m = tlbOf s m := by cases m <;> rfl
@[simp] theorem memRead_respond (st : Status) (r0 r1 : Word) (s : State) (pa : Nat) :
    memRead (respond st r0 r1 s) pa = memRead s pa := rfl
@[simp] theorem memWord_respond (st : Status) (r0 r1 : Word) (s : State) (pa : Nat) :
    memWord (respond st r0 r1 s) pa = memWord s pa := rfl
@[simp] theorem lookup_respond (st : Status) (r0 r1 : Word) (s : State) (m : Mode) (vp : Nat) :
    lookup (respond st r0 r1 s) m vp = lookup s m vp := by cases m <;> rfl

/-- What a state with the same memory, caches and registers reads as: no part differs but those listed. -/
theorem Unchanged.refl (parts : List Part) (s : State) : Unchanged parts s s :=
  ⟨rfl, rfl, fun p _ => by cases p <;> simp [samePart]⟩

theorem Unchanged.trans {p q : List Part} {s t u : State} (h : Unchanged p s t) (h' : Unchanged q t u) :
    Unchanged (p ++ q) s u := by
  refine ⟨h'.1.trans h.1, h'.2.1.trans h.2.1, fun x hx => ?_⟩
  simp only [List.mem_append, not_or] at hx
  have a := h.2.2 x hx.1
  have b := h'.2.2 x hx.2
  cases x <;> simp_all [samePart]

theorem Unchanged.mono {p q : List Part} {s t : State} (h : Unchanged p s t) (hpq : ∀ x ∈ p, x ∈ q) :
    Unchanged q s t :=
  ⟨h.1, h.2.1, fun x hx => h.2.2 x fun hp => hx (hpq x hp)⟩

theorem unchanged_beginCommand (s : State) : Unchanged [] s (beginCommand s) :=
  ⟨rfl, rfl, fun p _ => by cases p <;> simp [samePart]⟩

theorem unchanged_respond (st : Status) (r0 r1 : Word) (s : State) : Unchanged [] s (respond st r0 r1 s) :=
  ⟨rfl, rfl, fun p _ => by cases p <;> simp [samePart]⟩

/-- A state that differs in nothing a frame names. -/
theorem unchanged_of_fields {s t : State} (parts : List Part) (hc : t.cfg = s.cfg) (hp : t.port = s.port)
    (mem : .mem ∉ parts → t.mem = s.mem) (tlb : .tlb ∉ parts → t.tlb = s.tlb)
    (pager : .pager ∉ parts → t.pager = s.pager) (acs : .acs ∉ parts → t.acs = s.acs) (fd : .fd ∉ parts → t.fd = s.fd)
    (abk : .abk ∉ parts → t.abk = s.abk) (hits : .abkHits ∉ parts → t.abkHits = s.abkHits)
    (sts : .sts ∉ parts → t.sts = s.sts)
    (halt : .halt ∉ parts → t.halted = s.halted ∧ t.fatalCode = s.fatalCode ∧ t.inTrap = s.inTrap) :
    Unchanged parts s t := by
  refine ⟨hc, hp, fun p h => ?_⟩
  cases p with
  | mem => exact fun pa => memRead_congr (mem h) hc pa
  | tlb => exact fun m vp => lookup_congr (tlb h) m vp
  | pager => exact pager h
  | acs => exact acs h
  | fd => exact fd h
  | abk => exact abk h
  | abkHits => exact hits h
  | sts => exact sts h
  | halt => exact halt h

/-! ## PhysicalStore (R13) -/

theorem memRead_eq_some {s : State} {pa : Nat} {w : Word} :
    memRead s pa = some w ↔ pa < s.cfg.physWords ∧ memWord s pa = w := by
  unfold memRead; split <;> simp_all

theorem memRead_eq_none {s : State} {pa : Nat} : memRead s pa = none ↔ s.cfg.physWords ≤ pa := by
  unfold memRead; split <;> simp_all

/-- A write happens exactly at an existing address; it changes the word and logs itself. -/
theorem memWrite_eq_some {s t : State} {pa : Nat} {w : Word} :
    memWrite pa w s = some t ↔
      pa < s.cfg.physWords ∧ t = { s with mem := sparsePut unlistedWord pa w s.mem, events := s.events ++ [.memWrite pa w] } := by
  unfold memWrite; split <;> simp_all [eq_comm]

theorem memWrite_eq_none {s : State} {pa : Nat} {w : Word} : memWrite pa w s = none ↔ s.cfg.physWords ≤ pa := by
  unfold memWrite; split <;> simp_all

/-- Read after write. -/
theorem memRead_memWrite {s t : State} {pa : Nat} {w : Word} (hs : Memory.wf s.mem) (h : memWrite pa w s = some t)
    (a : Nat) : memRead t a = if a = pa then some w else memRead s a := by
  obtain ⟨hlt, rfl⟩ := memWrite_eq_some.1 h
  simp only [memRead, memWord, sparseGet_put _ hs]
  split_ifs <;> simp_all

theorem memWord_memWrite {s t : State} {pa : Nat} {w : Word} (hs : Memory.wf s.mem) (h : memWrite pa w s = some t)
    (a : Nat) : memWord t a = if a = pa then w else memWord s a := by
  obtain ⟨-, rfl⟩ := memWrite_eq_some.1 h
  simp [memWord, sparseGet_put _ hs]

/-- A write keeps the canonical form of PhysicalStore. -/
theorem memWrite_wf {s t : State} {pa : Nat} {w : Word} (hs : Memory.wf s.mem) (h : memWrite pa w s = some t) :
    Memory.wf t.mem := by
  obtain ⟨-, rfl⟩ := memWrite_eq_some.1 h
  exact sparsePut_wf _ hs _ _

/-- So does another agent's store. -/
theorem storedMem_wf {cfg : Config} {pa : Nat} {w : Word} {mem : Memory} (h : Memory.wf mem) :
    Memory.wf (storedMem cfg pa w mem) := by
  unfold storedMem; split
  · exact sparsePut_wf _ h _ _
  · exact h

theorem memRead_otherStore {s : State} (hs : Memory.wf s.mem) (pa : Nat) (w : Word) (a : Nat) :
    memRead (otherStore pa w s) a = if a = pa ∧ pa < s.cfg.physWords then some w else memRead s a := by
  by_cases hp : pa < s.cfg.physWords
  · by_cases ha : a = pa <;> simp [memRead, memWord, storedMem, hp, sparseGet_put _ hs, ha]
  · simp [memRead, memWord, storedMem, hp]

theorem memWord_otherStore {s : State} (hs : Memory.wf s.mem) (pa : Nat) (w : Word) (a : Nat) :
    memWord (otherStore pa w s) a = if a = pa ∧ pa < s.cfg.physWords then w else memWord s a := by
  by_cases hp : pa < s.cfg.physWords <;> simp [memWord, storedMem, hp, sparseGet_put _ hs]

/-! ## The caches (R120, R126) -/

theorem setTlb_setTlb_wf {s : State} (h : ∀ m, sparseWf Entry.invalid (tlbOf s m)) (m : Mode) {t : Tlb}
    (ht : sparseWf Entry.invalid t) (m' : Mode) : sparseWf Entry.invalid (tlbOf (setTlb m t s) m') := by
  rw [tlbOf_setTlb]; split
  · exact ht
  · exact h m'

/-- Lookup after an entry is written. -/
theorem lookup_setEntry {s : State} {m : Mode} (h : sparseWf Entry.invalid (tlbOf s m)) (vp : Nat) (e : Entry)
    (m' : Mode) (vp' : Nat) :
    lookup (setEntry m vp e s) m' vp' = if m' = m ∧ vp' = vp then e else lookup s m' vp' := by
  simp only [lookup, setEntry, tlbOf_setTlb]
  by_cases hm : m' = m
  · subst hm; simp [sparseGet_put _ h]
  · simp [hm]

/-- Writing an entry keeps the canonical form of the caches. -/
theorem setEntry_wf {s : State} (h : ∀ m, sparseWf Entry.invalid (tlbOf s m)) (m : Mode) (vp : Nat) (e : Entry) :
    ∀ m', sparseWf Entry.invalid (tlbOf (setEntry m vp e s) m') :=
  setTlb_setTlb_wf h m (sparsePut_wf _ (h m) _ _)

theorem lookup_setAccess {s : State} {m : Mode} (h : sparseWf Entry.invalid (tlbOf s m)) (vp : Nat) (a : Access)
    (m' : Mode) (vp' : Nat) :
    lookup (setAccess m vp a s) m' vp' =
      if m' = m ∧ vp' = vp then { lookup s m' vp' with acc := a } else lookup s m' vp' := by
  simp only [setAccess, lookup_setEntry h]
  split_ifs with hc
  · rw [hc.1, hc.2]
  · rfl

theorem setAccess_wf {s : State} (h : ∀ m, sparseWf Entry.invalid (tlbOf s m)) (m : Mode) (vp : Nat) (a : Access) :
    ∀ m', sparseWf Entry.invalid (tlbOf (setAccess m vp a s) m') := setEntry_wf h m vp _

@[simp] theorem lookup_setSaved (m : Mode) (a : Access) (s : State) (m' : Mode) (vp : Nat) :
    lookup (setSaved m a s) m' vp = lookup s m' vp := lookup_congr (by simp) m' vp

@[simp] theorem tlbOf_setSaved (m : Mode) (a : Access) (s : State) (m' : Mode) :
    tlbOf (setSaved m a s) m' = tlbOf s m' := tlbOf_congr (by simp) m'

/-- Both maps invalidated: nothing is cached, the saved pairs are (0, 0) where there is an address break, and the rest
of the state is as it was (R126, R180, R224). -/
theorem invalidateBoth_eq (s : State) :
    invalidateBoth s = { s with
      tlb := ⟨[], []⟩
      abk := if s.cfg.hasAbk then { s.abk with savedExec := .none, savedUser := .none } else s.abk } := by
  cases h : s.cfg.hasAbk <;> simp [invalidateBoth, invalidateMap, setTlb, setSaved, h]

@[simp] theorem invalidateBoth_tlb (s : State) : (invalidateBoth s).tlb = ⟨[], []⟩ := by simp [invalidateBoth_eq]

theorem invalidateBoth_abk (s : State) :
    (invalidateBoth s).abk =
      if s.cfg.hasAbk then { s.abk with savedExec := .none, savedUser := .none } else s.abk := by
  rw [invalidateBoth_eq]

theorem lookup_nil {s : State} (h : s.tlb = ⟨[], []⟩) (m : Mode) (vp : Nat) : lookup s m vp = Entry.invalid := by
  cases m <;> simp [lookup, tlbOf, h]

/-- One page invalidated in one map (R126, R224). -/
theorem lookup_invalidatePage {s : State} {m : Mode} (h : sparseWf Entry.invalid (tlbOf s m)) (vp : Nat) (m' : Mode)
    (vp' : Nat) :
    lookup (invalidatePage m vp s) m' vp' = if m' = m ∧ vp' = vp then Entry.invalid else lookup s m' vp' := by
  simp only [invalidatePage]
  split_ifs with h1 <;> simp_all [lookup_setEntry h]

theorem invalidatePage_wf {s : State} (h : ∀ m, sparseWf Entry.invalid (tlbOf s m)) (m : Mode) (vp : Nat) :
    ∀ m', sparseWf Entry.invalid (tlbOf (invalidatePage m vp s) m') := by
  intro m'
  have := setEntry_wf h m vp Entry.invalid m'
  simp only [invalidatePage]
  split_ifs
  · rwa [tlbOf_setSaved]
  · exact this

/-- The saved pair of a map whose watched page is invalidated becomes (0, 0) (R224). -/
theorem invalidatePage_abk (m : Mode) (vp : Nat) (s : State) :
    (invalidatePage m vp s).abk =
      if s.cfg.hasAbk && s.abk.active && decide (vp = s.abk.page) then (setSaved m .none s).abk else s.abk := by
  simp only [invalidatePage, setEntry_cfg, setEntry_abk]
  split_ifs <;> cases m <;> simp [setSaved]

/-- One page invalidated in both maps. -/
theorem invalidatePage_both_abk (vp : Nat) (s : State) :
    (invalidatePage .user vp (invalidatePage .exec vp s)).abk =
      if s.cfg.hasAbk && s.abk.active && decide (vp = s.abk.page)
      then { s.abk with savedExec := .none, savedUser := .none } else s.abk := by
  rw [invalidatePage_abk, setSaved, invalidatePage_abk]
  cases h1 : s.cfg.hasAbk <;> cases h2 : s.abk.active <;> by_cases h3 : vp = s.abk.page <;>
    simp [h1, h2, h3, setSaved]

end Sys2Proof.Machine
end

