-- ==== Sys2Proof/Laws/Break.lean ====
section
/-! SUPPORT. The address break: what arming and disarming do to the caches and to the watch (R216 to R220). -/

namespace Sys2Proof.Machine

open Sys2Proof

/-- The map of mode `m` is affected by the watch of mask `cond` (R219). -/
theorem affected_iff {cond : BitVec 4} {m : Mode} : affected cond m = true ↔ m = .user ∨ cond.getLsbD 0 = false := by
  cases m <;> simp [affected, condU]

/-! ## Disarm (R216) -/

theorem lookup_restoreAccess {s : State} {m : Mode} (h : sparseWf Entry.invalid (tlbOf s m)) (m' : Mode) (vp' : Nat) :
    lookup (restoreAccess m s) m' vp' =
      if (s.abk.active = true ∧ affected s.abk.cond m = true) ∧ m' = m ∧ vp' = s.abk.page
      then { lookup s m' vp' with acc := savedOf s.abk m } else lookup s m' vp' := by
  simp only [restoreAccess, Bool.and_eq_true]
  split_ifs with h1 h2 h2
  · rw [lookup_setAccess h, if_pos h2.2]
  · rw [lookup_setAccess h, if_neg fun hc => h2 ⟨h1, hc⟩]
  · exact absurd h2.1 h1
  · rfl

theorem restoreAccess_wf {s : State} (h : ∀ m, sparseWf Entry.invalid (tlbOf s m)) (m m' : Mode) :
    sparseWf Entry.invalid (tlbOf (restoreAccess m s) m') := by
  simp only [restoreAccess]
  split_ifs
  · exact setAccess_wf h m _ _ m'
  · exact h m'

theorem disarm_tlbOf (s : State) (m : Mode) :
    tlbOf (disarm s) m = tlbOf (restoreAccess .user (restoreAccess .exec s)) m := rfl

theorem disarm_wf {s : State} (h : ∀ m, sparseWf Entry.invalid (tlbOf s m)) (m : Mode) :
    sparseWf Entry.invalid (tlbOf (disarm s) m) := by
  rw [disarm_tlbOf]; exact restoreAccess_wf (restoreAccess_wf h _) _ _

/-- Disarm restores the saved pairs of an active watch in the maps it affects, and touches no other entry. -/
theorem lookup_disarm {s : State} (h : ∀ m, sparseWf Entry.invalid (tlbOf s m)) (m : Mode) (vp : Nat) :
    lookup (disarm s) m vp =
      if s.abk.active = true ∧ vp = s.abk.page ∧ affected s.abk.cond m = true
      then { lookup s m vp with acc := savedOf s.abk m } else lookup s m vp := by
  have e : lookup (disarm s) m vp = lookup (restoreAccess .user (restoreAccess .exec s)) m vp :=
    lookup_congr rfl m vp
  rw [e, lookup_restoreAccess (restoreAccess_wf h _ _), lookup_restoreAccess (h _)]
  simp only [restoreAccess_abk]
  cases m
  · simp only [reduceCtorEq, false_and, and_false, if_false, true_and]
    exact ite_congr (by simp only [eq_iff_iff]; tauto) (fun _ => rfl) (fun _ => rfl)
  · simp only [reduceCtorEq, false_and, and_false, if_false, true_and]
    exact ite_congr (by simp only [eq_iff_iff]; tauto) (fun _ => rfl) (fun _ => rfl)

/-- Without a watch Disarm changes no cache. -/
theorem disarm_tlb_of_inactive {s : State} (h : s.abk.active = false) : (disarm s).tlb = s.tlb := by
  simp [disarm, restoreAccess, h]

/-! ## Arm (R217) -/

theorem lookup_forceAccess {s : State} {m : Mode} (h : sparseWf Entry.invalid (tlbOf s m)) (cond : BitVec 4) (vp : Nat)
    (m' : Mode) (vp' : Nat) :
    lookup (forceAccess cond vp m s) m' vp' =
      if affected cond m = true ∧ m' = m ∧ vp' = vp then { lookup s m' vp' with acc := .none } else lookup s m' vp' := by
  simp only [forceAccess]
  split_ifs with h1 h2 h2
  · rw [lookup_setAccess (by rw [tlbOf_setSaved]; exact h), lookup_setSaved, if_pos h2.2]
  · rw [lookup_setAccess (by rw [tlbOf_setSaved]; exact h), lookup_setSaved, if_neg fun hc => h2 ⟨h1, hc⟩]
  · exact absurd h2.1 h1
  · rfl

theorem forceAccess_wf {s : State} (h : ∀ m, sparseWf Entry.invalid (tlbOf s m)) (cond : BitVec 4) (vp : Nat)
    (m m' : Mode) : sparseWf Entry.invalid (tlbOf (forceAccess cond vp m s) m') := by
  simp only [forceAccess]
  split_ifs
  · exact setAccess_wf (fun m => by rw [tlbOf_setSaved]; exact h m) _ _ _ _
  · exact h m'

theorem forceAccess_abk (cond : BitVec 4) (vp : Nat) (m : Mode) (s : State) :
    (forceAccess cond vp m s).abk =
      if affected cond m then (setSaved m (lookup s m vp).acc s).abk else s.abk := by
  simp only [forceAccess]
  split_ifs <;> simp

/-- The state with the watch armed, before the entries are forced off. -/
def watchSet (cond : BitVec 4) (p : VParts) (s : State) : State :=
  { s with abk := { s.abk with cond := cond, addr := p.va, page := p.vp, active := true } }

theorem armWatch_eq (cond : BitVec 4) (p : VParts) (s : State) :
    armWatch cond p s = forceAccess cond p.vp .user (forceAccess cond p.vp .exec (watchSet cond p s)) := rfl

theorem watchSet_wf {s : State} (h : ∀ m, sparseWf Entry.invalid (tlbOf s m)) (cond : BitVec 4) (p : VParts) (m : Mode) :
    sparseWf Entry.invalid (tlbOf (watchSet cond p s) m) := by
  rw [show tlbOf (watchSet cond p s) m = tlbOf s m from tlbOf_congr rfl m]; exact h m

theorem armWatch_wf {s : State} (h : ∀ m, sparseWf Entry.invalid (tlbOf s m)) (cond : BitVec 4) (p : VParts) (m : Mode) :
    sparseWf Entry.invalid (tlbOf (armWatch cond p s) m) := by
  rw [armWatch_eq]; exact forceAccess_wf (forceAccess_wf (watchSet_wf h _ _) _ _ _) _ _ _ _

/-- Arming forces the watched page's entry off in each map the mask affects, its ppn kept, and touches no other. -/
theorem lookup_armWatch {s : State} (h : ∀ m, sparseWf Entry.invalid (tlbOf s m)) (cond : BitVec 4) (p : VParts)
    (m : Mode) (vp : Nat) :
    lookup (armWatch cond p s) m vp =
      if vp = p.vp ∧ affected cond m = true then { lookup s m vp with acc := .none } else lookup s m vp := by
  have e : lookup (watchSet cond p s) m vp = lookup s m vp := lookup_congr rfl m vp
  rw [armWatch_eq, lookup_forceAccess (forceAccess_wf (watchSet_wf h _ _) _ _ _ _),
    lookup_forceAccess (watchSet_wf h _ _ _), e]
  cases m
  · simp only [reduceCtorEq, false_and, and_false, if_false, true_and]
    exact ite_congr (by simp only [eq_iff_iff]; tauto) (fun _ => rfl) (fun _ => rfl)
  · simp only [reduceCtorEq, false_and, and_false, if_false, true_and]
    exact ite_congr (by simp only [eq_iff_iff]; tauto) (fun _ => rfl) (fun _ => rfl)

/-- The watch as armed: the mask, the address, its page, and the saved pair of each map the mask affects. -/
theorem armWatch_abk {s : State} (h : ∀ m, sparseWf Entry.invalid (tlbOf s m)) (cond : BitVec 4) (p : VParts) :
    (armWatch cond p s).abk =
      { active := true, page := p.vp, addr := p.va, cond := cond
        savedExec := if affected cond .exec then (lookup s .exec p.vp).acc else s.abk.savedExec
        savedUser := (lookup s .user p.vp).acc } := by
  have hu : affected cond .user = true := rfl
  have e : ∀ m, lookup (watchSet cond p s) m p.vp = lookup s m p.vp := fun m => lookup_congr rfl m p.vp
  rw [armWatch_eq, forceAccess_abk, if_pos hu]
  rw [lookup_forceAccess (watchSet_wf h _ _ _)]
  simp only [reduceCtorEq, false_and, and_false, if_false, e, setSaved, forceAccess_abk]
  split_ifs <;> simp [watchSet]

/-! ## ARM_ABK (R217) -/

/-- The break arms exactly with a nonempty mask and a page that exists; otherwise it is left disarmed. -/
theorem arm_eq (cond : BitVec 4) (va : VAddr) (s : State) :
    arm cond va s =
      if condNonEmpty cond = true ∧ illegalSection s.cfg (decompose s.cfg va) = false
      then armWatch cond (decompose s.cfg va) (disarm s) else disarm s := by
  simp [arm]

end Sys2Proof.Machine
end

