-- ==== Sys2Proof/Laws/Encoding.lean ====
section
/-! SUPPORT. The fields of the words the encoder and the responses are made of. -/

namespace Sys2Proof

/-! ## Bit fields as numbers -/

theorem toNat_append_add {m n : Nat} (x : BitVec m) (y : BitVec n) :
    (x ++ y).toNat = x.toNat * 2 ^ n + y.toNat := by
  rw [BitVec.toNat_append, Nat.shiftLeft_eq, Nat.mul_comm, ← Nat.two_pow_add_eq_or_of_lt y.isLt]

@[simp] theorem encodeBit_toNat (b : Bool) : (encodeBit b).toNat = b.toNat := by cases b <;> rfl

/-! ## CMD (R91) -/

section cmdWord
variable (op : BitVec 6) (m k : BitVec 2) (r : BitVec 4) (x : BitVec 1)

@[simp] theorem cmdOp_cmdWord : cmdOp (cmdWord op m k r x) = op := by
  ext i hi
  simp only [cmdOp, cmdWord, BitVec.getElem_extractLsb', BitVec.getLsbD_append]
  interval_cases i <;> simp [BitVec.getLsbD_eq_getElem]

@[simp] theorem cmdM_cmdWord : cmdM (cmdWord op m k r x) = m := by
  ext i hi
  simp only [cmdM, cmdWord, BitVec.getElem_extractLsb', BitVec.getLsbD_append]
  interval_cases i <;> simp [BitVec.getLsbD_eq_getElem]

@[simp] theorem cmdK_cmdWord : cmdK (cmdWord op m k r x) = k := by
  ext i hi
  simp only [cmdK, cmdWord, BitVec.getElem_extractLsb', BitVec.getLsbD_append]
  interval_cases i <;> simp [BitVec.getLsbD_eq_getElem]

@[simp] theorem cmdR_cmdWord : cmdR (cmdWord op m k r x) = r := by
  ext i hi
  simp only [cmdR, cmdWord, BitVec.getElem_extractLsb', BitVec.getLsbD_append]
  interval_cases i <;> simp [BitVec.getLsbD_eq_getElem]

@[simp] theorem cmdX_cmdWord : cmdX (cmdWord op m k r x) = x := by
  ext i hi
  simp only [cmdX, cmdWord, BitVec.getElem_extractLsb', BitVec.getLsbD_append]
  interval_cases i
  simp [BitVec.getLsbD_eq_getElem]

@[simp] theorem cmdLow_cmdWord : cmdLow (cmdWord op m k r x) = 0 := by
  ext i hi
  simp only [cmdLow, cmdWord, BitVec.getElem_extractLsb', BitVec.getLsbD_append]
  interval_cases i <;> simp [BitVec.getLsbD_eq_getElem]

end cmdWord

/-! ## The images of DATA (R102 to R107, R113) -/

@[simp] theorem addressData_va (va : VAddr) : (addressData va).extractLsb' 0 30 = va := by
  ext i hi
  simp only [addressData, BitVec.getElem_extractLsb', BitVec.getLsbD_append]
  interval_cases i <;> simp [BitVec.getLsbD_eq_getElem]

@[simp] theorem ebrImage_ebp (ebp : Ppn) (pge : Bool) : (ebrImage ebp pge).extractLsb' 0 13 = ebp := by
  ext i hi
  simp only [ebrImage, BitVec.getElem_extractLsb', BitVec.getLsbD_append]
  interval_cases i <;> simp [BitVec.getLsbD_eq_getElem]

@[simp] theorem ebrImage_bit13 (ebp : Ppn) (pge : Bool) : (ebrImage ebp pge).getLsbD 13 = pge := by
  simp only [ebrImage, encodeBit, BitVec.getLsbD_append]
  simp

@[simp] theorem ebrImage_getElem13 (ebp : Ppn) (pge : Bool) : (ebrImage ebp pge)[13] = pge := by
  rw [← BitVec.getLsbD_eq_getElem, ebrImage_bit13]

@[simp] theorem ubrImage_bit35 (selAc ldUbr : Bool) (cab pab : BitVec 3) (ubp : Ppn) : (ubrImage selAc ldUbr cab pab ubp).getLsbD 35 = selAc := by
  simp only [ubrImage, encodeBit, BitVec.getLsbD_append]
  simp

@[simp] theorem ubrImage_bit33 (selAc ldUbr : Bool) (cab pab : BitVec 3) (ubp : Ppn) : (ubrImage selAc ldUbr cab pab ubp).getLsbD 33 = ldUbr := by
  simp only [ubrImage, encodeBit, BitVec.getLsbD_append]
  simp

@[simp] theorem ubrImage_getElem35 (selAc ldUbr : Bool) (cab pab : BitVec 3) (ubp : Ppn) :
    (ubrImage selAc ldUbr cab pab ubp)[35] = selAc := by rw [← BitVec.getLsbD_eq_getElem, ubrImage_bit35]

@[simp] theorem ubrImage_getElem33 (selAc ldUbr : Bool) (cab pab : BitVec 3) (ubp : Ppn) :
    (ubrImage selAc ldUbr cab pab ubp)[33] = ldUbr := by rw [← BitVec.getLsbD_eq_getElem, ubrImage_bit33]

@[simp] theorem ubrImage_cab (selAc ldUbr : Bool) (cab pab : BitVec 3) (ubp : Ppn) : (ubrImage selAc ldUbr cab pab ubp).extractLsb' 27 3 = cab := by
  ext i hi
  simp only [ubrImage, BitVec.getElem_extractLsb', BitVec.getLsbD_append]
  interval_cases i <;> simp [BitVec.getLsbD_eq_getElem]

@[simp] theorem ubrImage_pab (selAc ldUbr : Bool) (cab pab : BitVec 3) (ubp : Ppn) : (ubrImage selAc ldUbr cab pab ubp).extractLsb' 24 3 = pab := by
  ext i hi
  simp only [ubrImage, BitVec.getElem_extractLsb', BitVec.getLsbD_append]
  interval_cases i <;> simp [BitVec.getLsbD_eq_getElem]

@[simp] theorem ubrImage_ubp (selAc ldUbr : Bool) (cab pab : BitVec 3) (ubp : Ppn) : (ubrImage selAc ldUbr cab pab ubp).extractLsb' 0 13 = ubp := by
  ext i hi
  simp only [ubrImage, BitVec.getElem_extractLsb', BitVec.getLsbD_append]
  interval_cases i <;> simp [BitVec.getLsbD_eq_getElem]

@[simp] theorem acselImage_cab (cab pab : BitVec 3) : (acselImage cab pab).extractLsb' 3 3 = cab := by
  ext i hi
  simp only [acselImage, BitVec.getElem_extractLsb', BitVec.getLsbD_append]
  interval_cases i <;> simp [BitVec.getLsbD_eq_getElem]

@[simp] theorem acselImage_pab (cab pab : BitVec 3) : (acselImage cab pab).extractLsb' 0 3 = pab := by
  ext i hi
  simp only [acselImage, BitVec.getElem_extractLsb', BitVec.getLsbD_append]
  interval_cases i <;> simp [BitVec.getLsbD_eq_getElem]

@[simp] theorem abkImage_cond (cond : BitVec 4) (va : VAddr) : (abkImage cond va).extractLsb' 32 4 = cond := by
  ext i hi
  simp only [abkImage, BitVec.getElem_extractLsb', BitVec.getLsbD_append]
  interval_cases i <;> simp [BitVec.getLsbD_eq_getElem]

@[simp] theorem abkImage_va (cond : BitVec 4) (va : VAddr) : (abkImage cond va).extractLsb' 0 30 = va := by
  ext i hi
  simp only [abkImage, BitVec.getElem_extractLsb', BitVec.getLsbD_append]
  interval_cases i <;> simp [BitVec.getLsbD_eq_getElem]

@[simp] theorem memdiagImage_ctl (ctl fn : BitVec 5) : (memdiagImage ctl fn).extractLsb' 31 5 = ctl := by
  ext i hi
  simp only [memdiagImage, BitVec.getElem_extractLsb', BitVec.getLsbD_append]
  interval_cases i <;> simp [BitVec.getLsbD_eq_getElem]

@[simp] theorem memdiagImage_fn (ctl fn : BitVec 5) : (memdiagImage ctl fn).extractLsb' 0 5 = fn := by
  ext i hi
  simp only [memdiagImage, BitVec.getElem_extractLsb', BitVec.getLsbD_append]
  interval_cases i <;> simp [BitVec.getLsbD_eq_getElem]

@[simp] theorem stsImage_sts (sts : BitVec 3) : (stsImage sts).extractLsb' 0 3 = sts := by
  ext i hi
  simp only [stsImage, BitVec.getElem_extractLsb', BitVec.getLsbD_append]
  interval_cases i <;> simp [BitVec.getLsbD_eq_getElem]

/-! ## DATA of what the decoder read: the defined bits of the word (R98) -/

theorem addressData_extract (d : Word) :
    addressData (d.extractLsb' 0 30) = d &&& 0o007777777777 := by
  ext i hi
  simp only [addressData, ← BitVec.getLsbD_eq_getElem, BitVec.getLsbD_append, BitVec.getLsbD_extractLsb']
  interval_cases i <;> simp

theorem ebrImage_extract (d : Word) :
    ebrImage (d.extractLsb' 0 13) (d.getLsbD 13) = d &&& 0o000000037777 := by
  ext i hi
  simp only [ebrImage, encodeBit, ← BitVec.getLsbD_eq_getElem, BitVec.getLsbD_append, BitVec.getLsbD_extractLsb']
  interval_cases i <;> simp

theorem ubrImage_extract (d : Word) :
    ubrImage (d.getLsbD 35) (d.getLsbD 33) (d.extractLsb' 27 3) (d.extractLsb' 24 3) (d.extractLsb' 0 13) = d &&& 0o507700017777 := by
  ext i hi
  simp only [ubrImage, encodeBit, ← BitVec.getLsbD_eq_getElem, BitVec.getLsbD_append, BitVec.getLsbD_extractLsb']
  interval_cases i <;> simp

theorem acselImage_extract (d : Word) :
    acselImage (d.extractLsb' 3 3) (d.extractLsb' 0 3) = d &&& 0o000000000077 := by
  ext i hi
  simp only [acselImage, ← BitVec.getLsbD_eq_getElem, BitVec.getLsbD_append, BitVec.getLsbD_extractLsb']
  interval_cases i <;> simp

theorem abkImage_extract (d : Word) :
    abkImage (d.extractLsb' 32 4) (d.extractLsb' 0 30) = d &&& 0o747777777777 := by
  ext i hi
  simp only [abkImage, ← BitVec.getLsbD_eq_getElem, BitVec.getLsbD_append, BitVec.getLsbD_extractLsb']
  interval_cases i <;> simp

theorem memdiagImage_extract (d : Word) :
    memdiagImage (d.extractLsb' 31 5) (d.extractLsb' 0 5) = d &&& 0o760000000037 := by
  ext i hi
  simp only [memdiagImage, ← BitVec.getLsbD_eq_getElem, BitVec.getLsbD_append, BitVec.getLsbD_extractLsb']
  interval_cases i <;> simp

theorem stsImage_extract (d : Word) :
    stsImage (d.extractLsb' 0 3) = d &&& 0o000000000007 := by
  ext i hi
  simp only [stsImage, ← BitVec.getLsbD_eq_getElem, BitVec.getLsbD_append, BitVec.getLsbD_extractLsb']
  interval_cases i <;> simp

/-- A CMD word is its fields. -/
theorem cmd_fields (w : Word) : w = cmdOp w ++ cmdM w ++ cmdK w ++ cmdR w ++ cmdX w ++ cmdLow w := by
  apply BitVec.eq_of_toNat_eq
  simp only [toNat_append_add, cmdOp, cmdM, cmdK, cmdR, cmdX, cmdLow, BitVec.extractLsb'_toNat]
  have := w.isLt
  simp [Nat.shiftRight_eq_div_pow]
  omega

/-- The MEMDIAG reply word as a number (R106). -/
theorem Machine.memdiagWord_controller (ctl fn : BitVec 5) (present : Bool) (size : BitVec 14) :
    memdiagWord ctl fn (.controller present size) =
      BitVec.ofNat 36 (present.toNat * 2 ^ 35 + ctl.toNat * 2 ^ 30 + fn.toNat * 2 ^ 25 + size.toNat) := by
  apply BitVec.eq_of_toNat_eq
  have := fn.isLt; have := ctl.isLt; have := size.isLt
  simp only [memdiagWord, toNat_append_add]; cases present <;> simp <;> omega

/-! ## The codes of the enumerated fields -/

@[simp] theorem MapSel.ofCode_code (m : MapSel) : MapSel.ofCode m.code = some m := by cases m <;> rfl
@[simp] theorem Kind.ofCode_code (k : Kind) : Kind.ofCode k.code = some k := by cases k <;> rfl
@[simp] theorem Seq.ofCode_code (q : Seq) : Seq.ofCode q.code = some q := by cases q <;> rfl
@[simp] theorem AcCtx.ofCode_code (x : AcCtx) : AcCtx.ofCode x.code = x := by cases x <;> rfl

theorem MapSel.code_of_ofCode {b : BitVec 2} {m : MapSel} (h : MapSel.ofCode b = some m) : m.code = b := by
  revert h; revert b; cases m <;> decide
theorem Kind.code_of_ofCode {b : BitVec 2} {k : Kind} (h : Kind.ofCode b = some k) : k.code = b := by
  revert h; revert b; cases k <;> decide
theorem Seq.code_of_ofCode {b : BitVec 3} {q : Seq} (h : Seq.ofCode b = some q) : q.code = b := by
  revert h; revert b; cases q <;> decide
theorem AcCtx.code_ofCode (b : BitVec 1) : (AcCtx.ofCode b).code = b := by revert b; decide

/-- Every operation has its row, and the code of the row finds it again (R96). -/
theorem rowOfCode_rowOfOp (op : Op) : rowOfCode (rowOfOp op).code = some (rowOfOp op) := by cases op <;> decide

theorem rowOfOp_op (op : Op) : (rowOfOp op).op = op := by cases op <;> decide

/-- No two rows of R96 share a code. -/
theorem opTable_codes_distinct : (opTable.map OpRow.code).Nodup := by decide

end Sys2Proof
end

