-- ==== Sys2Proof/Laws/Refill.lean ====
section
/-! SUPPORT. The refill engine: what the resolve phase reads, what it can answer, and what the commit phase does. -/

namespace Sys2Proof.Machine

open Sys2Proof

/-! ## The resolve phase reads PhysicalStore, the registers and the configuration only -/

section congr
variable {s t : State} (hc : t.cfg = s.cfg) (hm : t.mem = s.mem) (hp : t.pager = s.pager)
include hc hm hp

theorem ptrStep_congr (level : Level) (ptr : Word) (rts : BitVec 4) : ptrStep t level ptr rts = ptrStep s level ptr rts := by
  simp only [ptrStep, ptrThroughSpt, memRead_congr hm hc, hp]

theorem evalPtr_congr (level : Level) (left : Nat) (ptr : Word) (rts : BitVec 4) :
    evalPtr t level left ptr rts = evalPtr s level left ptr rts := by
  induction left generalizing ptr rts with
  | zero => unfold evalPtr; rw [ptrStep_congr hc hm hp]
  | succ n ih => unfold evalPtr; simp only [ptrStep_congr hc hm hp, memRead_congr hm hc, ih]

theorem resolve_congr (m : Mode) (p : VParts) (k : Kind) : resolve t m p k = resolve s m p k := by
  simp only [resolve, resolveIdentity, resolveIts, resolveMid, resolveMulti, resolvePagePointer, resolveFinal, itsEntry,
    midEntry, itsEntryAddress, itsBase, midEntryAddress, sectionPointerAddress, evalPtr_congr hc hm hp,
    memRead_congr hm hc, hc, hp]

end congr

@[simp] theorem abkMatch_beginCommand (s : State) (m : Mode) (p : VParts) (k : Kind) (nonint : Bool) :
    abkMatch (beginCommand s) m p k nonint = abkMatch s m p k nonint := rfl

@[simp] theorem resolve_beginCommand (s : State) (m : Mode) (p : VParts) (k : Kind) :
    resolve (beginCommand s) m p k = resolve s m p k := resolve_congr (s := s) (t := beginCommand s) rfl rfl rfl m p k

/-! ## What it can answer (R142) -/

theorem inRange_eq_ok {cfg : Config} {ppn ppn' : Nat} {r : Resolved} {wperm : Bool} {status : Option (Nat × Word)}
    (h : inRange cfg ppn r = .ok ppn' wperm status) : ppn < cfg.physPages ∧ r = .ok ppn' wperm status := by
  unfold inRange at h; split at h
  · simp at h
  · exact ⟨by omega, h⟩

theorem inRange_ne_diverge {cfg : Config} {ppn : Nat} {r : Resolved} (hr : r ≠ .diverge) :
    inRange cfg ppn r ≠ .diverge := by
  unfold inRange; split <;> simp_all

/-- The final level: a page that exists, writable when written, and a status record that was read (R164). -/
theorem resolveFinal_eq_ok {s : State} {ppn : Nat} {rts : BitVec 4} {k : Kind} {ppn' : Nat} {wperm : Bool}
    {status : Option (Nat × Word)} (h : resolveFinal s ppn rts k = .ok ppn' wperm status) :
    ppn' = ppn ∧ ppn < s.cfg.physPages ∧ wperm = rts.getLsbD 2 ∧ (k = .write → wperm = true) ∧
      ((s.pager.csb = 0 ∧ status = none) ∨
        (s.pager.csb ≠ 0 ∧ ∃ c, memRead s (s.pager.csb.toNat + ppn) = some c ∧ statusAge c ≠ 0 ∧
          status = some (s.pager.csb.toNat + ppn, c))) := by
  obtain ⟨hr, h⟩ := inRange_eq_ok h
  simp only [checkStatus] at h
  by_cases h1 : s.pager.csb = 0
  · rw [if_pos h1] at h
    split_ifs at h with h2
    simp at h; obtain ⟨rfl, rfl, rfl⟩ := h
    exact ⟨rfl, hr, rfl, fun hk => by simpa [hk] using h2, .inl ⟨h1, rfl⟩⟩
  · rw [if_neg h1] at h
    split at h
    · simp at h
    · rename_i c hc
      split_ifs at h with h3 h4
      simp at h; obtain ⟨rfl, rfl, rfl⟩ := h
      exact ⟨rfl, hr, rfl, fun hk => by simpa [hk] using h4, .inr ⟨h1, c, hc, h3, rfl⟩⟩

/-- A reference that resolves: its page exists, it may be written if the reference writes, and a status record to be
updated was read, by the MULTI walk only. -/
theorem resolve_eq_ok {s : State} {m : Mode} {p : VParts} {k : Kind} {ppn : Nat} {wperm : Bool}
    {status : Option (Nat × Word)} (h : resolve s m p k = .ok ppn wperm status) :
    ppn < s.cfg.physPages ∧ (k = .write → wperm = true) ∧
      (∀ ca c, status = some (ca, c) → memRead s ca = some c ∧ s.pager.pge = true ∧ s.cfg.gen = .multi ∧
        s.pager.csb ≠ 0 ∧ ca = s.pager.csb.toNat + ppn) := by
  unfold resolve at h
  split at h
  · obtain ⟨hr, h⟩ := inRange_eq_ok h
    simp at h; obtain ⟨rfl, rfl, rfl⟩ := h
    exact ⟨hr, fun _ => rfl, by simp⟩
  · rename_i hpge
    split at h
    · unfold resolveIts at h
      split at h
      · simp at h
      · simp only [itsEntry] at h
        split_ifs at h with h1 h2
        obtain ⟨hr, h⟩ := inRange_eq_ok h
        simp at h; obtain ⟨rfl, rfl, rfl⟩ := h
        refine ⟨hr, fun hk => ?_, by simp⟩
        by_contra hne
        exact h2 ⟨hk, by simpa using hne⟩
    · unfold resolveMid at h
      split at h
      · simp at h
      · simp only [midEntry] at h
        split_ifs at h with h1 h2
        obtain ⟨hr, h⟩ := inRange_eq_ok h
        simp only [Resolved.ok.injEq] at h; obtain ⟨rfl, rfl, rfl⟩ := h
        refine ⟨hr, fun hk => ?_, by simp⟩
        by_contra hne
        exact h2 ⟨hk, Bool.eq_false_iff.2 hne⟩
    · rename_i hgen
      unfold resolveMulti at h
      split at h
      · simp at h
      · split at h
        · simp at h
        · simp at h
        · unfold resolvePagePointer at h
          split at h
          · simp at h
          · split at h
            · simp at h
            · simp at h
            · obtain ⟨rfl, hr, -, hw, hs⟩ := resolveFinal_eq_ok h
              refine ⟨hr, hw, ?_⟩
              rintro ca c rfl
              obtain ⟨-, hs⟩ | ⟨hcsb, c', hc, -, hs⟩ := hs
              · simp at hs
              · simp at hs; obtain ⟨rfl, rfl⟩ := hs
                exact ⟨hc, by simpa using hpge, hgen, hcsb, rfl⟩

/-- Only a paged MULTI walk can fail to end (R163). -/
theorem resolve_eq_diverge {s : State} {m : Mode} {p : VParts} {k : Kind} (h : resolve s m p k = .diverge) :
    s.pager.pge = true ∧ s.cfg.gen = .multi := by
  unfold resolve at h
  split at h
  · exact absurd h (inRange_ne_diverge (by simp))
  · rename_i hpge
    split at h
    · unfold resolveIts itsEntry at h
      split at h
      · simp at h
      · simp only at h
        split_ifs at h
        exact absurd h (inRange_ne_diverge (by simp))
    · unfold resolveMid midEntry at h
      split at h
      · simp at h
      · simp only at h
        split_ifs at h
        exact absurd h (inRange_ne_diverge (by simp))
    · rename_i hgen
      exact ⟨by simpa using hpge, hgen⟩

/-! ## The commit phase (R165, R223) -/

/-- The status record is written back: it was read, so it exists. -/
theorem commitStatus_some {s : State} {ca : Nat} {c : Word} (h : memRead s ca = some c) (k : Kind) :
    commitStatus (some (ca, c)) k s =
      { s with mem := sparsePut unlistedWord ca (statusUpdate s c k) s.mem
               events := s.events ++ [.memWrite ca (statusUpdate s c k)] } := by
  simp [commitStatus, memWrite, (memRead_eq_some.1 h).1]

@[simp] theorem commitStatus_none (k : Kind) (s : State) : commitStatus none k s = s := rfl

@[simp] theorem followSaved_lookup (m : Mode) (vp : Nat) (acc : Access) (s : State) (m' : Mode) (vp' : Nat) :
    lookup (followSaved m vp acc s) m' vp' = lookup s m' vp' := lookup_congr (by simp) m' vp'

theorem commitStatus_lookup (status : Option (Nat × Word)) (k : Kind) (s : State) (m' : Mode) (vp' : Nat) :
    lookup (commitStatus status k s) m' vp' = lookup s m' vp' := lookup_congr (by simp) m' vp'

theorem commitStatus_tlbOf (status : Option (Nat × Word)) (k : Kind) (s : State) (m' : Mode) :
    tlbOf (commitStatus status k s) m' = tlbOf s m' := tlbOf_congr (by simp) m'

/-- The one entry a refill installs. -/
theorem lookup_commitRefill {s : State} {m : Mode} (h : sparseWf Entry.invalid (tlbOf s m)) (vp : Nat) (k : Kind)
    (ppn : Nat) (wperm : Bool) (status : Option (Nat × Word)) (m' : Mode) (vp' : Nat) :
    lookup (commitRefill m vp k ppn wperm status s) m' vp' =
      if m' = m ∧ vp' = vp then refillEntry ppn (grantedWrite s wperm status k) else lookup s m' vp' := by
  simp only [commitRefill, followSaved_lookup]
  rw [lookup_setEntry (by rw [commitStatus_tlbOf]; exact h), commitStatus_lookup]

theorem commitRefill_abk (m : Mode) (vp : Nat) (k : Kind) (ppn : Nat) (wperm : Bool) (status : Option (Nat × Word))
    (s : State) :
    (commitRefill m vp k ppn wperm status s).abk =
      if watched s m vp then (setSaved m ⟨true, grantedWrite s wperm status k⟩ s).abk else s.abk := by
  have hw (e : Entry) : watched (setEntry m vp e (commitStatus status k s)) m vp = watched s m vp := by simp [watched]
  show (followSaved m vp _ (setEntry m vp _ _)).abk = _
  unfold followSaved
  by_cases h : watched s m vp = true
  · rw [if_pos (by rw [hw]; exact h), if_pos h]; cases m <;> simp [setSaved, refillEntry]
  · rw [if_neg (by rw [hw]; exact h), if_neg h]; simp

@[simp] theorem commitRefill_mem (m : Mode) (vp : Nat) (k : Kind) (ppn : Nat) (wperm : Bool)
    (status : Option (Nat × Word)) (s : State) :
    (commitRefill m vp k ppn wperm status s).mem = (commitStatus status k s).mem := by simp [commitRefill]

@[simp] theorem commitRefill_events (m : Mode) (vp : Nat) (k : Kind) (ppn : Nat) (wperm : Bool)
    (status : Option (Nat × Word)) (s : State) :
    (commitRefill m vp k ppn wperm status s).events = (commitStatus status k s).events := by simp [commitRefill]

theorem commitRefill_tlb_wf {s : State} (h : ∀ m, sparseWf Entry.invalid (tlbOf s m)) (m : Mode) (vp : Nat) (k : Kind)
    (ppn : Nat) (wperm : Bool) (status : Option (Nat × Word)) (m' : Mode) :
    sparseWf Entry.invalid (tlbOf (commitRefill m vp k ppn wperm status s) m') := by
  have : tlbOf (commitRefill m vp k ppn wperm status s) m' =
      tlbOf (setEntry m vp (refillEntry ppn (grantedWrite s wperm status k)) (commitStatus status k s)) m' :=
    tlbOf_congr (by simp [commitRefill]) m'
  rw [this]
  exact setEntry_wf (fun m => by rw [commitStatus_tlbOf]; exact h m) m vp _ m'

/-- The commit keeps the canonical form of PhysicalStore. -/
theorem commitStatus_wf {s : State} (h : Memory.wf s.mem) (status : Option (Nat × Word)) (k : Kind) :
    Memory.wf (commitStatus status k s).mem := by
  unfold commitStatus
  split
  · exact h
  · rename_i ca c
    cases hw : memWrite ca (statusUpdate s c k) s with
    | none => exact h
    | some t => exact memWrite_wf h hw

/-- A write grants itself: the entry a completed WRITE leaves has vw = 1 (R165). -/
theorem grantedWrite_write {s : State} {wperm : Bool} {status : Option (Nat × Word)} (h : wperm = true) :
    grantedWrite s wperm status .write = true := by
  subst h
  unfold grantedWrite statusUpdate
  split <;> simp

/-! ## The refill as a whole (R140) -/

theorem refill_of_illegal {isProbe : Bool} {m : Mode} {va : VAddr} {k : Kind} {ctx : Ctx} {s : State}
    (h : illegalSection s.cfg (decompose s.cfg va) = true) :
    refill isProbe m va k ctx s =
      .next (declareFault (decompose s.cfg va).va k (modeMap m) .mlIllSect ctx (!isProbe) s) := by simp [refill, h]

section legal
variable {isProbe : Bool} {m : Mode} {va : VAddr} {k : Kind} {ctx : Ctx} {s : State}
  (h : illegalSection s.cfg (decompose s.cfg va) = false)
include h

theorem refill_of_fail {c : Cause} (hr : resolve s m (decompose s.cfg va) k = .fail c) :
    refill isProbe m va k ctx s = .next (declareFault (decompose s.cfg va).va k (modeMap m) c ctx (!isProbe) s) := by
  simp [refill, h, hr]

theorem refill_of_match {ppn : Nat} {wperm : Bool} {status : Option (Nat × Word)}
    (hr : resolve s m (decompose s.cfg va) k = .ok ppn wperm status)
    (ha : abkMatch s m (decompose s.cfg va) k ctx.nonint = true) :
    refill isProbe m va k ctx s = .next (declareFault (decompose s.cfg va).va k (modeMap m) .abk ctx (!isProbe) s) := by
  simp [refill, h, hr, finishRefill, ha]

theorem refill_of_ok {ppn : Nat} {wperm : Bool} {status : Option (Nat × Word)}
    (hr : resolve s m (decompose s.cfg va) k = .ok ppn wperm status)
    (ha : abkMatch s m (decompose s.cfg va) k ctx.nonint = false) :
    refill isProbe m va k ctx s =
      .next (respond .ok (refillWord isProbe ppn (decompose s.cfg va).off wperm (grantedWrite s wperm status k)) 0
        (commitRefill m (decompose s.cfg va).vp k ppn wperm status s)) := by
  simp [refill, h, hr, finishRefill, ha]

end legal

/-- Every way a refill goes. -/
theorem refill_cases (isProbe : Bool) (m : Mode) (va : VAddr) (k : Kind) (ctx : Ctx) (s : State) :
    (∃ c, refill isProbe m va k ctx s =
        .next (declareFault (decompose s.cfg va).va k (modeMap m) c ctx (!isProbe) s) ∧
        ((illegalSection s.cfg (decompose s.cfg va) = true ∧ c = .mlIllSect) ∨
         (illegalSection s.cfg (decompose s.cfg va) = false ∧ resolve s m (decompose s.cfg va) k = .fail c) ∨
         (illegalSection s.cfg (decompose s.cfg va) = false ∧ abkMatch s m (decompose s.cfg va) k ctx.nonint = true ∧
           c = .abk ∧ ∃ ppn wperm status, resolve s m (decompose s.cfg va) k = .ok ppn wperm status))) ∨
    (∃ ppn wperm status, illegalSection s.cfg (decompose s.cfg va) = false ∧
        resolve s m (decompose s.cfg va) k = .ok ppn wperm status ∧
        abkMatch s m (decompose s.cfg va) k ctx.nonint = false ∧
        refill isProbe m va k ctx s =
          .next (respond .ok (refillWord isProbe ppn (decompose s.cfg va).off wperm (grantedWrite s wperm status k)) 0
            (commitRefill m (decompose s.cfg va).vp k ppn wperm status s))) ∨
    (illegalSection s.cfg (decompose s.cfg va) = false ∧ resolve s m (decompose s.cfg va) k = .diverge ∧
        refill isProbe m va k ctx s = .fault .indirectChainNeverEnds) := by
  simp only [refill, finishRefill]
  cases hsec : illegalSection s.cfg (decompose s.cfg va) with
  | true => exact .inl ⟨.mlIllSect, by simp⟩
  | false =>
    cases hres : resolve s m (decompose s.cfg va) k with
    | diverge => exact .inr (.inr (by simp))
    | fail c => exact .inl ⟨c, by simp⟩
    | ok ppn wperm status =>
      cases habk : abkMatch s m (decompose s.cfg va) k ctx.nonint with
      | true => exact .inl ⟨.abk, by simp⟩
      | false => exact .inr (.inl ⟨ppn, wperm, status, by simp⟩)

end Sys2Proof.Machine
end

