-- ==== Sys2Proof/Laws/Trap.lean ====
section
/-! SUPPORT. Taking a fault: every way the trap sequence goes, and what it stores (R262 to R280). -/

namespace Sys2Proof.Machine

open Sys2Proof

/-- No event of the list is an undo request. -/
def NoUndo (es : List Event) : Prop := ∀ q pc fl, Event.undoReq q pc fl ∉ es

/-- What a run of memory writes from `s` may have done: stores at the listed addresses and their events, each of them
a memory write; the rest of the state is as it was. -/
def StoredAt (as : List Nat) (s t : State) : Prop :=
  ∃ mem es, t = { s with mem := mem, events := s.events ++ es } ∧ NoUndo es ∧
    (Memory.wf s.mem → Memory.wf mem) ∧
    (Memory.wf s.mem → ∀ a, a ∉ as → memWord t a = memWord s a) ∧
    (Memory.wf s.mem → (∀ a, memWord s a ≠ unlistedWord → a < s.cfg.physWords) →
      ∀ a, memWord t a ≠ unlistedWord → a < s.cfg.physWords)

theorem StoredAt.refl (as : List Nat) (s : State) : StoredAt as s s :=
  ⟨s.mem, [], by simp, by simp [NoUndo], id, fun _ _ _ => rfl, fun _ h => h⟩

theorem StoredAt.write {as : List Nat} {s t u : State} {a : Nat} {w : Word} (h : StoredAt as s t) (ha : a ∈ as)
    (hw : memWrite a w t = some u) : StoredAt as s u := by
  obtain ⟨mem, es, rfl, hes, hwf, hsame, hin⟩ := h
  obtain ⟨hlt, rfl⟩ := memWrite_eq_some.1 hw
  refine ⟨sparsePut unlistedWord a w mem, es ++ [.memWrite a w], by simp, ?_, ?_, ?_, ?_⟩
  · intro q pc fl hm
    rcases List.mem_append.1 hm with h | h
    · exact hes q pc fl h
    · simp at h
  · exact fun h => sparsePut_wf _ (hwf h) _ _
  · intro h b hb
    have hne : b ≠ a := fun hba => hb (hba ▸ ha)
    rw [← hsame h b hb]
    simp [memWord, sparseGet_put _ (hwf h), hne]
  · intro h hs b hb
    simp only [memWord, sparseGet_put _ (hwf h)] at hb
    split_ifs at hb with hba
    · subst hba; exact hlt
    · exact hin h hs b hb

theorem StoredAt.mono {as bs : List Nat} {s t : State} (h : StoredAt as s t) (hab : ∀ a ∈ as, a ∈ bs) :
    StoredAt bs s t := by
  obtain ⟨mem, es, h1, h2, h3, h4, h5⟩ := h
  exact ⟨mem, es, h1, h2, h3, fun hw a ha => h4 hw a fun hm => ha (hab a hm), h5⟩

/-- What a run of writes leaves alone. -/
theorem StoredAt.cfg {as : List Nat} {s t : State} (h : StoredAt as s t) : t.cfg = s.cfg := by
  obtain ⟨_, _, rfl, -⟩ := h; rfl

/-- The delivery of a trap: a fatal stop with code REFAULT, or the new pair answered; before either, words of
`trapStores` were written. -/
theorem trapDeliver_cases (fw : Word) (pc : PcBits) (flags : FlagBits) (s : State) :
    ∃ t, StoredAt (trapStores s) s t ∧
      (trapDeliver fw pc flags s = fatalStop .refault t ∨
       ∃ npc nfl, trapDeliver fw pc flags s = trapReturn npc nfl t) := by
  simp only [trapDeliver]
  cases h1 : memWrite (trapTableBase s + s.cfg.pfwOff) fw s with
  | none => exact ⟨s, .refl _ s, .inl (by simp)⟩
  | some s1 =>
    have g1 : StoredAt (trapStores s) s s1 := (StoredAt.refl _ s).write (by unfold trapStores; split <;> simp) h1
    have c1 := g1.cfg
    cases he : s.cfg.ext with
    | false =>
      simp only [c1, he, trapShort]
      cases h2 : memWrite (trapTableBase s + s.cfg.oldOff) (savedPair pc flags) s1 with
      | none => exact ⟨s1, g1, .inl (by simp)⟩
      | some s2 =>
        have g2 := g1.write (by simp [trapStores, he]) h2
        simp only [g2.cfg]
        cases h3 : memRead s2 (trapTableBase s + s.cfg.newOff) with
        | none => exact ⟨s2, g2, .inl (by simp)⟩
        | some w => exact ⟨s2, g2, .inr ⟨_, _, by simp; rfl⟩⟩
    | true =>
      simp only [c1, he, trapLong]
      cases h2 : memWrite (trapTableBase s + s.cfg.oldOff) (savedFlags flags) s1 with
      | none => exact ⟨s1, g1, .inl (by simp)⟩
      | some s2 =>
        have g2 := g1.write (by simp [trapStores, he]) h2
        simp only [g2.cfg]
        cases h3 : memWrite (trapTableBase s + s.cfg.oldOff + 1) (savedPc pc) s2 with
        | none => exact ⟨s2, g2, .inl (by simp)⟩
        | some s3 =>
          have g3 := g2.write (by simp [trapStores, he]) h3
          simp only [if_true, trapLoadLong, g3.cfg]
          refine ⟨s3, g3, ?_⟩
          split
          · exact .inl rfl
          · split
            · exact .inl rfl
            · exact .inr ⟨_, _, rfl⟩

/-- The state the trap sequence acts on after its first step: IN_TRAP, the undo request made. -/
def trapEntry (ctx : Ctx) (s : State) : State := undoState (effectiveSeq s.cfg ctx.seq) ctx { s with inTrap := true }

/-- Every way the trap sequence goes (R264). -/
theorem trap_cases (fw : Word) (ctx : Ctx) (s : State) :
    (effectiveSeq s.cfg ctx.seq = .intDelivery ∧ trap fw ctx s = interruptAnomaly fw (trapEntry ctx s)) ∨
    (effectiveSeq s.cfg ctx.seq ≠ .intDelivery ∧ breakLimitExceeded (countBreak (trapEntry ctx s)) = true ∧
      trap fw ctx s = fatalStop .abkLimit (countBreak (trapEntry ctx s))) ∨
    (effectiveSeq s.cfg ctx.seq ≠ .intDelivery ∧ breakLimitExceeded (countBreak (trapEntry ctx s)) = false ∧
      trap fw ctx s = trapDeliver fw (undoPair s.cfg (effectiveSeq s.cfg ctx.seq) ctx).1
        (undoPair s.cfg (effectiveSeq s.cfg ctx.seq) ctx).2 (countBreak (trapEntry ctx s))) := by
  simp only [trap]
  by_cases h : effectiveSeq s.cfg ctx.seq = .intDelivery
  · exact .inl ⟨h, by rw [if_pos h]; rfl⟩
  · rw [if_neg h]
    cases hb : breakLimitExceeded (countBreak (trapEntry ctx s)) with
    | true => exact .inr (.inl ⟨h, rfl, by unfold trapEntry at hb ⊢; rw [if_pos hb]⟩)
    | false => exact .inr (.inr ⟨h, rfl, by unfold trapEntry at hb ⊢; rw [if_neg (by simp [hb])]⟩)

/-- The events with which the sequence begins: the undo request for an undoable sequence, else none (R266). -/
theorem trapEntry_events (ctx : Ctx) (s : State) :
    (trapEntry ctx s).events =
      s.events ++ (if effectiveSeq s.cfg ctx.seq = .none then []
        else [.undoReq (effectiveSeq s.cfg ctx.seq) ctx.pc ctx.flags]) := by
  unfold trapEntry undoState; split <;> simp

@[simp] theorem countBreak_trapEntry_abkHits (ctx : Ctx) (s : State) :
    (countBreak (trapEntry ctx s)).abkHits = s.abkHits + (if s.fd.tag = .abk then 1 else 0) := by
  unfold countBreak trapEntry; simp only [undoState_fd]; split <;> simp

/-- The trap sequence in full: it ends outside the sequence with an answer TRAP, INTRESUME or FATAL; it halts the PU
exactly when it answers FATAL; it sets no status bit but IOPF, and that only inside interrupt delivery; it stores words
of `trapStores` only; and after the one undo request there is none. -/
theorem trap_spec (fw : Word) (ctx : Ctx) (s : State) :
    ∃ u es, StoredAt (trapStores s) s u ∧ NoUndo es ∧
      (trap fw ctx s).mem = u.mem ∧ (trap fw ctx s).inTrap = false ∧
      (trap fw ctx s).events = (trapEntry ctx s).events ++ es ∧
      ((∃ code, code ≠ .none ∧ (trap fw ctx s).halted = true ∧ (trap fw ctx s).fatalCode = code ∧
          (trap fw ctx s).resp = some ⟨.fatal, fatalCodeWord code, 0⟩) ∨
        ((trap fw ctx s).halted = s.halted ∧ (trap fw ctx s).fatalCode = s.fatalCode ∧
          ∃ st r0 r1, (trap fw ctx s).resp = some ⟨st, r0, r1⟩ ∧ (st = .trap ∨ st = .intresume))) ∧
      ((trap fw ctx s).sts = s.sts ∨ (trap fw ctx s).sts = s.sts ||| stsIopf) ∧
      ((trap fw ctx s).abkHits = s.abkHits ∨ s.fd.tag = .abk) := by
  obtain ⟨hq, h⟩ | ⟨hq, hb, h⟩ | ⟨hq, hb, h⟩ := trap_cases fw ctx s
  · rw [h]
    unfold interruptAnomaly
    split
    · refine ⟨s, [.diag .intFault s.fd], .refl _ s, by simp [NoUndo], by simp [trapEntry], rfl, by simp [trapEntry], .inl ⟨.intFault, by simp⟩, .inl (by simp [trapEntry]), .inl (by simp [trapEntry])⟩
    · refine ⟨s, [], .refl _ s, by simp [NoUndo], by simp [trapEntry], rfl, by simp, .inr ⟨by simp [trapEntry], by simp [trapEntry], _, _, _, rfl, .inr rfl⟩, .inr (by simp [trapEntry]), .inl (by simp [trapEntry])⟩
  · rw [h]
    refine ⟨s, [.diag .abkLimit s.fd], .refl _ s, by simp [NoUndo], by simp [trapEntry], rfl, by simp [trapEntry], .inl ⟨.abkLimit, by simp⟩, .inl (by simp [trapEntry]), ?_⟩
    by_cases ht : s.fd.tag = .abk
    · exact .inr ht
    · exact .inl (by simp [ht])
  · rw [h]
    obtain ⟨t, ⟨mem, es, rfl, hes, hwf, hsame, hin⟩, ht⟩ := trapDeliver_cases fw
      (undoPair s.cfg (effectiveSeq s.cfg ctx.seq) ctx).1 (undoPair s.cfg (effectiveSeq s.cfg ctx.seq) ctx).2
      (countBreak (trapEntry ctx s))
    have hst : StoredAt (trapStores s) s { s with mem := mem, events := s.events ++ es } := by
      refine ⟨mem, es, rfl, hes, ?_, ?_, ?_⟩
      · simpa [trapEntry] using hwf
      · simpa [trapEntry, memWord, trapStores, trapTableBase] using hsame
      · simpa [trapEntry, memWord] using hin
    have hits : s.abkHits + (if s.fd.tag = .abk then 1 else 0) = s.abkHits ∨ s.fd.tag = .abk := by
      by_cases ht : s.fd.tag = .abk
      · exact .inr ht
      · exact .inl (by simp [ht])
    rcases ht with ht | ⟨npc, nfl, ht⟩ <;> rw [ht]
    · refine ⟨_, es ++ [.diag .refault s.fd], hst, ?_, rfl, rfl, by simp [trapEntry], .inl ⟨.refault, by simp⟩, .inl (by simp [trapEntry]), by simpa using hits⟩
      intro q pc fl hm
      rcases List.mem_append.1 hm with h | h
      · exact hes q pc fl h
      · simp at h
    · exact ⟨_, es, hst, hes, rfl, rfl, by simp [trapEntry], .inr ⟨by simp [trapEntry], by simp [trapEntry], _, _, _, rfl, .inl rfl⟩, .inl (by simp [trapEntry]), by simpa using hits⟩

end Sys2Proof.Machine
end

