-- ==== Sys2Proof/Laws/References.lean ====
section
/-! SUPPORT. XLATE and PROBE as a whole: every way a reference goes. -/

namespace Sys2Proof.Machine

open Sys2Proof

/-- A fault that may trap takes the trap sequence; one that may not soft-fails (R262). -/
theorem declareFault_true (addr : VAddr) (k : Kind) (m : MapSel) (c : Cause) (ctx : Ctx) (s : State) :
    declareFault addr k m c ctx true s =
      trap (faultWord (describeFault addr k m c)) ctx (recordFault (describeFault addr k m c) s) := rfl

theorem declareFault_false (addr : VAddr) (k : Kind) (m : MapSel) (c : Cause) (ctx : Ctx) (s : State) :
    declareFault addr k m c ctx false s =
      respond .softfail (faultWord (describeFault addr k m c)) 0 (recordFault (describeFault addr k m c) s) := rfl

/-- How a reference ends, XLATE or PROBE: answered with nothing changed (a hit, or the physical map), a fault declared,
an entry installed, or no end. -/
inductive ReferenceEnd (isProbe : Bool) (m : MapSel) (k : Kind) (va : VAddr) (ctx : Ctx) (s : State) : Result → Prop where
  | answered (r0 : Word) : ReferenceEnd isProbe m k va ctx s (.next (respond .ok r0 0 s))
  | faulted (addr : VAddr) (c : Cause) :
      ReferenceEnd isProbe m k va ctx s (.next (declareFault addr k m c ctx (!isProbe) s))
  | installed (m' : Mode) (ppn : Nat) (wperm : Bool) (status : Option (Nat × Word)) :
      m = modeMap m' → illegalSection s.cfg (decompose s.cfg va) = false →
      resolve s m' (decompose s.cfg va) k = .ok ppn wperm status →
      abkMatch s m' (decompose s.cfg va) k ctx.nonint = false →
      (isProbe = false → hit (lookup s m' (decompose s.cfg va).vp) k = false) →
      ReferenceEnd isProbe m k va ctx s
        (.next (respond .ok (refillWord isProbe ppn (decompose s.cfg va).off wperm (grantedWrite s wperm status k)) 0
          (commitRefill m' (decompose s.cfg va).vp k ppn wperm status s)))
  | endless (m' : Mode) :
      m = modeMap m' → illegalSection s.cfg (decompose s.cfg va) = false →
      resolve s m' (decompose s.cfg va) k = .diverge →
      (isProbe = false → hit (lookup s m' (decompose s.cfg va).vp) k = false) →
      ReferenceEnd isProbe m k va ctx s (.fault .indirectChainNeverEnds)

theorem refill_ends {isProbe : Bool} {m : Mode} {k : Kind} {va : VAddr} {ctx : Ctx} {s : State}
    (hit : isProbe = false → illegalSection s.cfg (decompose s.cfg va) = false →
      hit (lookup s m (decompose s.cfg va).vp) k = false) :
    ReferenceEnd isProbe (modeMap m) k va ctx s (refill isProbe m va k ctx s) := by
  rcases refill_cases isProbe m va k ctx s with ⟨c, h, -⟩ | ⟨ppn, wperm, status, hs, hr, ha, h⟩ | ⟨hs, hr, h⟩ <;> rw [h]
  · exact .faulted _ c
  · exact .installed m ppn wperm status rfl hs hr ha fun hp => hit hp hs
  · exact .endless m rfl hs hr fun hp => hit hp hs

theorem physMap_ends (isProbe : Bool) (k : Kind) (va : VAddr) (ctx : Ctx) (s : State) :
    ReferenceEnd isProbe .phys k va ctx s (.next (physMap isProbe k va ctx s)) := by
  simp only [physMap]
  split
  · exact .answered _
  · exact .faulted _ _

theorem xlateEffect_ends (m : MapSel) (k : Kind) (va : VAddr) (ctx : Ctx) (s : State) :
    ReferenceEnd false m k va ctx s (xlateEffect m k va ctx s) := by
  have key (m : Mode) : ReferenceEnd false (modeMap m) k va ctx s (translate m k va ctx s) := by
    simp only [translate]
    split
    · exact .answered _
    · rename_i h
      exact refill_ends fun _ hs => by simpa [hs] using h
  cases m with
  | phys => exact physMap_ends false k va ctx s
  | exec => exact key .exec
  | user => exact key .user

theorem probeEffect_ends (m : MapSel) (k : Kind) (va : VAddr) (ctx : Ctx) (s : State) :
    ReferenceEnd true m k va ctx s (probeEffect m k va ctx s) := by
  cases m with
  | phys => exact physMap_ends true k va ctx s
  | exec => exact refill_ends (m := .exec) (by simp)
  | user => exact refill_ends (m := .user) (by simp)

end Sys2Proof.Machine
end

