-- ==== Sys2Proof/Laws/Inv.lean ====
section
/-! SUPPORT. The invariant: that a concrete state has it, and what each operation keeps of it. -/

namespace Sys2Proof.Machine

open Sys2Proof

/-! ## On listed data -/

/-- The invariant of a concrete state, each clause over what is listed: configuration, memory and caches. -/
abbrev StoresData (s : State) : Prop :=
  s.cfg.wf ∧ Memory.wf s.mem ∧ (∀ x ∈ s.mem, x.1 < s.cfg.physWords) ∧
  (sparseWf Entry.invalid s.tlb.exec ∧ sparseWf Entry.invalid s.tlb.user) ∧
  (∀ x ∈ s.tlb.exec ++ s.tlb.user, x.1 < s.cfg.nvp ∧ x.2.ppn.toNat < s.cfg.physPages ∧
    (x.2.acc.vw = true → x.2.acc.vr = true))

/-- The same, the registers. -/
abbrev RegistersData (s : State) : Prop :=
  s.pager.ebase = baseOfPage s.pager.ebp ∧ s.pager.ubase = baseOfPage s.pager.ubp ∧
  (s.cfg.gen ≠ .flatIts → s.pager.tb = ⟨0, 0, 0, 0⟩) ∧
  (s.cfg.gen ≠ .multi → s.pager.spb = 0 ∧ s.pager.csb = 0 ∧ s.pager.csm = 0 ∧ s.pager.pur = 0) ∧
  s.acs.plive = (s.acs.pab == s.acs.cab) ∧ (s.halted = true ↔ s.fatalCode ≠ .none) ∧ s.inTrap = false

/-- The same, the address break. -/
abbrev BreakData (s : State) : Prop :=
  (s.abk.active = true → s.cfg.hasAbk = true) ∧ (s.abk.active = false → s.abk = Abk.idle ∧ s.abkHits = 0) ∧
  (s.abk.active = true → condNonEmpty s.abk.cond = true ∧ s.abk.page < s.cfg.nvp ∧
    normaliseVa s.cfg s.abk.addr = s.abk.addr ∧ (decompose s.cfg s.abk.addr).vp = s.abk.page) ∧
  (s.abk.savedExec.vw = true → s.abk.savedExec.vr = true) ∧ (s.abk.savedUser.vw = true → s.abk.savedUser.vr = true) ∧
  (affected s.abk.cond .exec = false → s.abk.savedExec = .none) ∧
  (s.abk.active = true → (affected s.abk.cond .exec = true →
      (lookup s .exec s.abk.page).acc = .none ∨ (lookup s .exec s.abk.page).acc = s.abk.savedExec) ∧
    ((lookup s .user s.abk.page).acc = .none ∨ (lookup s .user s.abk.page).acc = s.abk.savedUser))

def invData (s : State) : Bool := decide (StoresData s) && decide (RegistersData s) && decide (BreakData s)

theorem lookup_mem {s : State} {m : Mode} {vp : Nat} (h : lookup s m vp ≠ Entry.invalid) :
    (vp, lookup s m vp) ∈ s.tlb.exec ++ s.tlb.user := by
  have := exists_of_sparseGet_ne h
  cases m
  · exact List.mem_append_left _ this
  · exact List.mem_append_right _ this

theorem Inv.of_data {s : State} (h : invData s = true) : Inv s := by
  simp only [invData, Bool.and_eq_true, decide_eq_true_eq] at h
  obtain ⟨⟨⟨h1, h2, h3, ⟨h4, h4'⟩, h5⟩, h6, h7, h8, h9, h10, h11, h12⟩, h13, h14, h15, h16, h16', h17, h18⟩ := h
  have listed : ∀ m vp, lookup s m vp ≠ Entry.invalid → vp < s.cfg.nvp ∧ entryOk s.cfg (lookup s m vp) :=
    fun m vp hne => by
      obtain ⟨a, b, c⟩ := h5 _ (lookup_mem hne)
      exact ⟨a, b, c⟩
  constructor
  case config => exact h1
  case memCanonical => exact h2
  case memInside => intro pa hpa; exact h3 _ (exists_of_sparseGet_ne hpa)
  case tlbCanonical => intro m; cases m; exacts [h4, h4']
  case tlbPages => exact fun m vp hne => (listed m vp hne).1
  case tlbEntries =>
    intro m vp
    by_cases hne : lookup s m vp = Entry.invalid
    · rw [hne]; exact ⟨h1.2.2.2.1, by simp [Entry.invalid, Access.none]⟩
    · exact (listed m vp hne).2
  case execBase => exact h6
  case userBase => exact h7
  case noTables => exact h8
  case noMulti => exact h9
  case prevTable => exact h10
  case haltCode => exact h11
  case notInTrap => exact h12
  case abkPresent => exact h13
  case abkIdle => exact h14
  case abkWatch => exact h15
  case abkSaved => intro m; cases m; exacts [h16, h16']
  case abkUntouched => intro m hm; cases m; exacts [h17 hm, by simp [affected] at hm]
  case abkTrue => intro ha m hm; cases m; exacts [(h18 ha).1 hm, (h18 ha).2]

/-! ## What the operations keep -/

/-- A state that differs in FD, STS, the port and the latches only. -/
theorem Inv.congr {s t : State} (h : Inv s) (cfg : t.cfg = s.cfg) (mem : t.mem = s.mem) (tlb : t.tlb = s.tlb)
    (pager : t.pager = s.pager) (acs : t.acs = s.acs) (abk : t.abk = s.abk) (hits : t.abkHits = s.abkHits)
    (halt : t.halted = s.halted) (code : t.fatalCode = s.fatalCode) (trap : t.inTrap = s.inTrap) : Inv t := by
  have l : ∀ m vp, lookup t m vp = lookup s m vp := lookup_congr tlb
  constructor
  case config => rw [cfg]; exact h.config
  case memCanonical => rw [mem]; exact h.memCanonical
  case memInside => intro pa; rw [memWord_congr mem, cfg]; exact h.memInside pa
  case tlbCanonical => intro m; rw [tlbOf_congr tlb]; exact h.tlbCanonical m
  case tlbPages => intro m vp; rw [l, cfg]; exact h.tlbPages m vp
  case tlbEntries => intro m vp; rw [l, cfg]; exact h.tlbEntries m vp
  case execBase => rw [pager]; exact h.execBase
  case userBase => rw [pager]; exact h.userBase
  case noTables => rw [pager, cfg]; exact h.noTables
  case noMulti => rw [pager, cfg]; exact h.noMulti
  case prevTable => rw [acs]; exact h.prevTable
  case haltCode => rw [halt, code]; exact h.haltCode
  case notInTrap => rw [trap]; exact h.notInTrap
  case abkPresent => rw [abk, cfg]; exact h.abkPresent
  case abkIdle => rw [abk, hits]; exact h.abkIdle
  case abkWatch => rw [abk, cfg]; exact h.abkWatch
  case abkSaved => rw [abk]; exact h.abkSaved
  case abkUntouched => rw [abk]; exact h.abkUntouched
  case abkTrue => rw [abk]; simp only [l]; exact h.abkTrue

theorem Inv.beginCommand {s : State} (h : Inv s) : Inv (beginCommand s) := h.congr rfl rfl rfl rfl rfl rfl rfl rfl rfl rfl

theorem Inv.respond {s : State} (h : Inv s) (st : Status) (r0 r1 : Word) : Inv (respond st r0 r1 s) :=
  h.congr rfl rfl rfl rfl rfl rfl rfl rfl rfl rfl

theorem Inv.recordFault {s : State} (h : Inv s) (fd : FaultDesc) : Inv (recordFault fd s) := by
  apply h.congr <;> simp

/-- PhysicalStore after any run of writes. -/
theorem Inv.withMem {s : State} (h : Inv s) {mem : Memory} (wf : Memory.wf mem)
    (inside : ∀ pa, sparseGet unlistedWord mem pa ≠ unlistedWord → pa < s.cfg.physWords) (es : List Event) :
    Inv { s with mem := mem, events := es } :=
  { h with memCanonical := wf, memInside := inside
           tlbCanonical := h.tlbCanonical, tlbPages := h.tlbPages, tlbEntries := h.tlbEntries, abkTrue := h.abkTrue }

theorem sparsePut_inside {m : Memory} (hm : Memory.wf m) {n pa : Nat} {w : Word} (hpa : pa < n)
    (h : ∀ a, sparseGet unlistedWord m a ≠ unlistedWord → a < n) (a : Nat)
    (ha : sparseGet unlistedWord (sparsePut unlistedWord pa w m) a ≠ unlistedWord) : a < n := by
  rw [sparseGet_put _ hm] at ha
  split_ifs at ha with hc
  · omega
  · exact h a ha

theorem Inv.otherStore {s : State} (h : Inv s) (pa : Nat) (w : Word) : Inv (otherStore pa w s) := by
  have : Machine.otherStore pa w s = { s with mem := storedMem s.cfg pa w s.mem, events := s.events } := rfl
  rw [this]
  refine h.withMem (storedMem_wf h.memCanonical) ?_ _
  unfold storedMem
  split
  · rename_i hpa; exact sparsePut_inside h.memCanonical hpa h.memInside
  · exact h.memInside

/-- The registers, the cached bases following the raw ones and the registers of other generations at 0. -/
def PagerOk (cfg : Config) (p : Pager) : Prop :=
  p.ebase = baseOfPage p.ebp ∧ p.ubase = baseOfPage p.ubp ∧ (cfg.gen ≠ .flatIts → p.tb = ⟨0, 0, 0, 0⟩) ∧
  (cfg.gen ≠ .multi → p.spb = 0 ∧ p.csb = 0 ∧ p.csm = 0 ∧ p.pur = 0)

theorem Inv.pagerOk {s : State} (h : Inv s) : PagerOk s.cfg s.pager := ⟨h.execBase, h.userBase, h.noTables, h.noMulti⟩

theorem Inv.withPager {s : State} (h : Inv s) {p : Pager} (hp : PagerOk s.cfg p) : Inv { s with pager := p } :=
  { h with execBase := hp.1, userBase := hp.2.1, noTables := hp.2.2.1, noMulti := hp.2.2.2
           memInside := h.memInside, tlbCanonical := h.tlbCanonical, tlbPages := h.tlbPages
           tlbEntries := h.tlbEntries, abkTrue := h.abkTrue }

theorem Inv.loadEbr {s : State} (h : Inv s) (ebp : Ppn) (pge : Bool) : Inv (loadEbr ebp pge s) :=
  h.withPager ⟨rfl, h.userBase, h.noTables, h.noMulti⟩

theorem Inv.loadUbr {s : State} (h : Inv s) (ubp : Ppn) : Inv (loadUbr ubp s) :=
  h.withPager ⟨h.execBase, rfl, h.noTables, h.noMulti⟩

/-- WR_TB writes a register the generation has. -/
theorem PagerOk.writeTable {cfg : Config} {p : Pager} (h : PagerOk cfg p) {idx : BitVec 4}
    (hidx : tableRegisterExists cfg idx = true) (d : Word) : PagerOk cfg (writeTable idx d p) := by
  obtain ⟨h1, h2, h3, h4⟩ := h
  unfold tableRegisterExists at hidx
  have := idx.isLt
  split at hidx
  · rename_i hg
    simp only [decide_eq_true_eq] at hidx
    have : ∀ n : Nat, idx.toNat = n → n ≤ 3 := fun n hn => by omega
    unfold Machine.writeTable
    simp only
    split <;> simp_all [PagerOk]
  · simp at hidx
  · rename_i hg
    simp only [decide_eq_true_eq] at hidx
    unfold Machine.writeTable
    simp only
    split <;> simp_all [PagerOk]

theorem Inv.withAcs {s : State} (h : Inv s) {f : AcFile} (hf : f.plive = (f.pab == f.cab)) : Inv { s with acs := f } :=
  { h with prevTable := hf
           memInside := h.memInside, tlbCanonical := h.tlbCanonical, tlbPages := h.tlbPages
           tlbEntries := h.tlbEntries, abkTrue := h.abkTrue }

theorem Inv.select {s : State} (h : Inv s) (nc np : BitVec 3) : Inv (select nc np s) := h.withAcs (by simp)

theorem Inv.withHalt {s : State} (h : Inv s) {b : Bool} {c : FatalCode} (hc : b = true ↔ c ≠ .none) :
    Inv { s with halted := b, fatalCode := c, inTrap := false } :=
  { h with haltCode := hc, notInTrap := rfl
           memInside := h.memInside, tlbCanonical := h.tlbCanonical, tlbPages := h.tlbPages
           tlbEntries := h.tlbEntries, abkTrue := h.abkTrue }

/-- The count of breaks may change while a watch is armed. -/
theorem Inv.withHits {s : State} (h : Inv s) {n : Nat} (hn : s.abk.active = false → n = 0) :
    Inv { s with abkHits := n } :=
  { h with abkIdle := fun ha => ⟨(h.abkIdle ha).1, hn ha⟩
           memInside := h.memInside, tlbCanonical := h.tlbCanonical, tlbPages := h.tlbPages
           tlbEntries := h.tlbEntries, abkTrue := h.abkTrue }

/-- The clauses about the caches and the break, of caches `look` and break `a`. -/
structure CacheOk (cfg : Config) (look : Mode → Nat → Entry) (a : Abk) (hits : Nat) : Prop where
  pages : ∀ m vp, look m vp ≠ Entry.invalid → vp < cfg.nvp
  entries : ∀ m vp, entryOk cfg (look m vp)
  present : a.active = true → cfg.hasAbk = true
  idle : a.active = false → a = Abk.idle ∧ hits = 0
  watch : a.active = true → condNonEmpty a.cond = true ∧ a.page < cfg.nvp ∧ normaliseVa cfg a.addr = a.addr ∧
    (decompose cfg a.addr).vp = a.page
  saved : ∀ m, (savedOf a m).vw = true → (savedOf a m).vr = true
  untouched : ∀ m, affected a.cond m = false → savedOf a m = .none
  true' : a.active = true → ∀ m, affected a.cond m = true →
    (look m a.page).acc = .none ∨ (look m a.page).acc = savedOf a m

theorem Inv.cacheOk {s : State} (h : Inv s) : CacheOk s.cfg (lookup s) s.abk s.abkHits :=
  ⟨h.tlbPages, h.tlbEntries, h.abkPresent, h.abkIdle, h.abkWatch, h.abkSaved, h.abkUntouched, h.abkTrue⟩

/-- A state with other caches and another break. -/
theorem Inv.withCache {s t : State} (h : Inv s) (cfg : t.cfg = s.cfg) (mem : t.mem = s.mem) (pager : t.pager = s.pager)
    (acs : t.acs = s.acs) (halt : t.halted = s.halted) (code : t.fatalCode = s.fatalCode) (trap : t.inTrap = s.inTrap)
    (wf : ∀ m, sparseWf Entry.invalid (tlbOf t m)) (ok : CacheOk s.cfg (lookup t) t.abk t.abkHits) : Inv t := by
  constructor
  case config => rw [cfg]; exact h.config
  case memCanonical => rw [mem]; exact h.memCanonical
  case memInside => intro pa; rw [memWord_congr mem, cfg]; exact h.memInside pa
  case tlbCanonical => exact wf
  case tlbPages => rw [cfg]; exact ok.pages
  case tlbEntries => rw [cfg]; exact ok.entries
  case execBase => rw [pager]; exact h.execBase
  case userBase => rw [pager]; exact h.userBase
  case noTables => rw [pager, cfg]; exact h.noTables
  case noMulti => rw [pager, cfg]; exact h.noMulti
  case prevTable => rw [acs]; exact h.prevTable
  case haltCode => rw [halt, code]; exact h.haltCode
  case notInTrap => rw [trap]; exact h.notInTrap
  case abkPresent => rw [cfg]; exact ok.present
  case abkIdle => exact ok.idle
  case abkWatch => rw [cfg]; exact ok.watch
  case abkSaved => exact ok.saved
  case abkUntouched => exact ok.untouched
  case abkTrue => exact ok.true'

theorem entryOk_invalid {cfg : Config} (h : cfg.wf) : entryOk cfg Entry.invalid :=
  ⟨h.2.2.2.1, by simp [Entry.invalid, Access.none]⟩

theorem invalidateBoth_wf (s : State) (m : Mode) : sparseWf Entry.invalid (tlbOf (invalidateBoth s) m) := by
  cases m <;> simp [tlbOf, sparseWf]

theorem lookup_invalidateBoth (s : State) (m : Mode) (vp : Nat) : lookup (invalidateBoth s) m vp = Entry.invalid :=
  lookup_nil (by simp) m vp

theorem Inv.invalidateBoth {s : State} (h : Inv s) : Inv (invalidateBoth s) := by
  refine h.withCache (by simp) (by simp) (by simp) (by simp) (by simp) (by simp) (by simp) (invalidateBoth_wf s) ?_
  have ok := h.cacheOk
  have e := lookup_invalidateBoth s
  rw [invalidateBoth_abk, invalidateBoth_abkHits]
  by_cases hx : s.cfg.hasAbk = true
  · rw [if_pos hx]
    constructor
    case pages => simp [e]
    case entries => simp only [e]; exact fun _ _ => entryOk_invalid h.config
    case present => exact fun _ => hx
    case idle => intro ha; obtain ⟨a, b⟩ := ok.idle ha; rw [a]; exact ⟨rfl, b⟩
    case watch => exact ok.watch
    case saved => intro m; cases m <;> simp [savedOf, Access.none]
    case untouched => intro m _; cases m <;> rfl
    case true' => intro _ m _; left; rw [e]; rfl
  · rw [if_neg hx]
    have ha : s.abk.active = false := by by_contra hc; exact hx (ok.present (by simpa using hc))
    constructor
    case pages => simp [e]
    case entries => simp only [e]; exact fun _ _ => entryOk_invalid h.config
    case present => exact ok.present
    case idle => exact ok.idle
    case watch => exact ok.watch
    case saved => exact ok.saved
    case untouched => exact ok.untouched
    case true' => simp [ha]

theorem savedOf_none_iff (a : Abk) (m m' : Mode) (s : State) (hs : s.abk = a) :
    savedOf (setSaved m .none s).abk m' = if m' = m then .none else savedOf a m' := by
  rw [savedOf_setSaved, hs]

theorem Inv.invalidatePage {s : State} (h : Inv s) (m : Mode) (vp : Nat) : Inv (invalidatePage m vp s) := by
  refine h.withCache (by simp) (by simp) (by simp) (by simp) (by simp) (by simp) (by simp)
    (invalidatePage_wf h.tlbCanonical m vp) ?_
  have ok := h.cacheOk
  have e := lookup_invalidatePage (h.tlbCanonical m) vp
  have pg : ∀ m' vp', lookup (Machine.invalidatePage m vp s) m' vp' ≠ Entry.invalid → vp' < s.cfg.nvp := by
    intro m' vp'; rw [e]; split_ifs
    · simp
    · exact ok.pages m' vp'
  have en : ∀ m' vp', entryOk s.cfg (lookup (Machine.invalidatePage m vp s) m' vp') := by
    intro m' vp'; rw [e]; split_ifs
    · exact entryOk_invalid h.config
    · exact ok.entries m' vp'
  rw [invalidatePage_abk, invalidatePage_abkHits]
  by_cases hx : (s.cfg.hasAbk && s.abk.active && decide (vp = s.abk.page)) = true
  · rw [if_pos hx]
    simp only [Bool.and_eq_true, decide_eq_true_eq] at hx
    obtain ⟨⟨hx, ha⟩, hp⟩ := hx
    constructor
    case pages => exact pg
    case entries => exact en
    case present => exact fun _ => hx
    case idle => simp [ha]
    case watch => simpa [ha] using ok.watch ha
    case saved => intro m'; rw [savedOf_setSaved]; split_ifs; simp [Access.none]; exact ok.saved m'
    case untouched => intro m' hm'; rw [savedOf_setSaved]; split_ifs; rfl; exact ok.untouched m' (by simpa using hm')
    case true' =>
      intro _ m' hm'
      simp only [setSaved_abk_page, setSaved_abk_cond] at hm' ⊢
      rw [e, savedOf_setSaved, ← hp]
      by_cases hmm : m' = m
      · left; simp [hmm, Entry.invalid]
      · simp only [hmm, false_and, if_false]; rw [hp]; exact ok.true' ha m' hm'
  · rw [if_neg hx]
    constructor
    case pages => exact pg
    case entries => exact en
    case present => exact ok.present
    case idle => exact ok.idle
    case watch => exact ok.watch
    case saved => exact ok.saved
    case untouched => exact ok.untouched
    case true' =>
      intro ha m' hm'
      rw [e]
      split_ifs with hc
      · left; rfl
      · exact ok.true' ha m' hm'

theorem Inv.invalidateAddress {s : State} (h : Inv s) (va : VAddr) : Inv (invalidateAddress va s) := by
  unfold Machine.invalidateAddress
  simp only
  split
  · exact h
  · exact (h.invalidatePage _ _).invalidatePage _ _

theorem Inv.disarm {s : State} (h : Inv s) : Inv (disarm s) := by
  refine h.withCache (by simp) (by simp) (by simp) (by simp) (by simp) (by simp) (by simp)
    (disarm_wf h.tlbCanonical) ?_
  have ok := h.cacheOk
  have e := lookup_disarm h.tlbCanonical
  rw [disarm_abk, disarm_abkHits]
  constructor
  case pages =>
    intro m vp; rw [e]; split_ifs with hc
    · intro _; rw [hc.2.1]; exact (ok.watch hc.1).2.1
    · exact ok.pages m vp
  case entries =>
    intro m vp; rw [e]; split_ifs with hc
    · exact ⟨(ok.entries m vp).1, ok.saved m⟩
    · exact ok.entries m vp
  case present => simp [Abk.idle]
  case idle => simp
  case watch => simp [Abk.idle]
  case saved => intro m; cases m <;> simp [savedOf, Abk.idle, Access.none]
  case untouched => intro m _; cases m <;> rfl
  case true' => simp [Abk.idle]

/-- A reduced address is a number below 2^18 (R72). -/
theorem normaliseVa_toNat {cfg : Config} (h : cfg.ext = false) (va : VAddr) :
    (normaliseVa cfg va).toNat = va.toNat % 2 ^ 18 := by
  rw [normaliseVa, h, if_neg (by simp), toNat_append_add]; simp

theorem illegalSection_eq_false {cfg : Config} {p : VParts} :
    illegalSection cfg p = false ↔ (cfg.ext = true → p.sect < cfg.nsect) := by
  cases h : cfg.ext <;> simp [illegalSection, h]

/-- The page of a legal address is a page of the mode (R9, R72). -/
theorem decompose_vp_lt {cfg : Config} {va : VAddr} (h : illegalSection cfg (decompose cfg va) = false) :
    (decompose cfg va).vp < cfg.nvp := by
  have hpg := ((normaliseVa cfg va).extractLsb' 9 9).isLt
  rw [illegalSection_eq_false] at h
  simp only [decompose, Config.nvp, Config.sections] at h ⊢
  generalize (BitVec.extractLsb' 9 9 (normaliseVa cfg va)).toNat = pg at hpg ⊢
  cases he : cfg.ext with
  | true =>
    have hs := h he
    rw [if_pos rfl]; omega
  | false =>
    have : (BitVec.extractLsb' 18 12 (normaliseVa cfg va)).toNat = 0 := by
      have hv := normaliseVa_toNat he va
      simp [Nat.shiftRight_eq_div_pow]; omega
    rw [this, if_neg (by simp)]; omega

theorem decompose_normal (cfg : Config) (va : VAddr) :
    normaliseVa cfg (decompose cfg va).va = (decompose cfg va).va ∧
      decompose cfg (decompose cfg va).va = decompose cfg va := by
  have : normaliseVa cfg (normaliseVa cfg va) = normaliseVa cfg va := by
    cases he : cfg.ext with
    | true => simp [normaliseVa, he]
    | false => apply BitVec.eq_of_toNat_eq; rw [normaliseVa_toNat he, normaliseVa_toNat he]; omega
  refine ⟨this, ?_⟩
  simp only [decompose, this]

theorem Inv.armWatch {s : State} (h : Inv s) (hx : s.cfg.hasAbk = true) (ha : s.abk.active = false) {cond : BitVec 4}
    {va : VAddr} (hc : condNonEmpty cond = true) (hsec : illegalSection s.cfg (decompose s.cfg va) = false) :
    Inv (armWatch cond (decompose s.cfg va) s) := by
  refine h.withCache (by simp) (by simp) (by simp) (by simp) (by simp) (by simp) (by simp)
    (armWatch_wf h.tlbCanonical _ _) ?_
  have ok := h.cacheOk
  have e := lookup_armWatch h.tlbCanonical cond (decompose s.cfg va)
  have idle := (ok.idle ha).1
  rw [armWatch_abk h.tlbCanonical]
  have su : s.abk.savedExec = .none := by rw [idle]; rfl
  constructor
  case pages =>
    intro m vp; rw [e]; split_ifs with hv
    · intro _; rw [hv.1]; exact decompose_vp_lt hsec
    · exact ok.pages m vp
  case entries =>
    intro m vp; rw [e]; split_ifs with hv
    · exact ⟨(ok.entries m vp).1, by simp [Access.none]⟩
    · exact ok.entries m vp
  case present => exact fun _ => hx
  case idle => simp
  case watch =>
    exact fun _ => ⟨hc, decompose_vp_lt hsec, (decompose_normal _ _).1, by simp only [(decompose_normal s.cfg va).2]⟩
  case saved =>
    intro m
    cases m
    · simp only [savedOf]; split_ifs
      · exact (ok.entries _ _).2
      · rw [su]; simp [Access.none]
    · exact (ok.entries _ _).2
  case untouched =>
    intro m hm
    cases m
    · simp only [savedOf] at hm ⊢; rw [if_neg (by simp [hm]), su]
    · simp [affected] at hm
  case true' =>
    intro _ m hm
    left
    rw [e, if_pos ⟨rfl, hm⟩]

theorem Inv.arm {s : State} (h : Inv s) (hx : s.cfg.hasAbk = true) (cond : BitVec 4) (va : VAddr) :
    Inv (arm cond va s) := by
  rw [arm_eq]
  split_ifs with hc
  · have := h.disarm.armWatch (cond := cond) (va := va) (by simpa using hx) (by simp [Abk.idle]) hc.1
      (by simpa using hc.2)
    simpa using this
  · exact h.disarm

/-- The entry a refill installs, and the break's saved pair with it (R140, R165, R223). -/
theorem Inv.commitRefill {s : State} (h : Inv s) {m : Mode} {va : VAddr} {k : Kind} {ppn : Nat} {wperm : Bool}
    {status : Option (Nat × Word)} (hsec : illegalSection s.cfg (decompose s.cfg va) = false)
    (hr : resolve s m (decompose s.cfg va) k = .ok ppn wperm status) :
    Inv (commitRefill m (decompose s.cfg va).vp k ppn wperm status s) := by
  obtain ⟨hp, -, hst⟩ := resolve_eq_ok hr
  -- the memory part first
  have hmem : Inv (commitStatus status k s) := by
    cases status with
    | none => exact h
    | some cw =>
      obtain ⟨ca, c⟩ := cw
      obtain ⟨hca, -⟩ := hst ca c rfl
      rw [commitStatus_some hca]
      exact h.withMem (sparsePut_wf _ h.memCanonical _ _)
        (sparsePut_inside h.memCanonical (memRead_eq_some.1 hca).1 h.memInside) _
  refine hmem.withCache (by simp) (by simp) (by simp) (by simp) (by simp) (by simp) (by simp)
    (commitRefill_tlb_wf h.tlbCanonical _ _ _ _ _ _) ?_
  have ok := h.cacheOk
  have e := lookup_commitRefill (h.tlbCanonical m) (decompose s.cfg va).vp k ppn wperm status
  have hvp := decompose_vp_lt hsec
  have hppn : ppn < 2 ^ 13 := by have := h.config.2.2.2.2.1; omega
  have pg : ∀ m' vp', lookup (Machine.commitRefill m (decompose s.cfg va).vp k ppn wperm status s) m' vp' ≠ Entry.invalid →
      vp' < s.cfg.nvp := by
    intro m' vp'; rw [e]; split_ifs with hc
    · intro _; rw [hc.2]; exact hvp
    · exact ok.pages m' vp'
  have en : ∀ m' vp', entryOk s.cfg (lookup (Machine.commitRefill m (decompose s.cfg va).vp k ppn wperm status s) m' vp') := by
    intro m' vp'; rw [e]; split_ifs with hc
    · refine ⟨?_, fun _ => rfl⟩
      simp only [refillEntry, BitVec.toNat_ofNat, Nat.mod_eq_of_lt hppn]; exact hp
    · exact ok.entries m' vp'
  simp only [commitStatus_cfg]
  rw [commitRefill_abk, commitRefill_abkHits]
  by_cases hx : watched s m (decompose s.cfg va).vp = true
  · rw [if_pos hx]
    simp only [watched, Bool.and_eq_true, decide_eq_true_eq] at hx
    obtain ⟨⟨⟨hx, ha⟩, hpg⟩, haf⟩ := hx
    constructor
    case pages => exact pg
    case entries => exact en
    case present => exact fun _ => hx
    case idle => simp [ha]
    case watch => simpa [ha] using ok.watch ha
    case saved => intro m'; rw [savedOf_setSaved]; split_ifs; simp; exact ok.saved m'
    case untouched =>
      intro m' hm'
      have hm' : affected s.abk.cond m' = false := by simpa using hm'
      have hne : m' ≠ m := fun hc => by rw [hc, haf] at hm'; simp at hm'
      rw [savedOf_setSaved, if_neg hne]; exact ok.untouched m' hm'
    case true' =>
      intro _ m' hm'
      simp only [setSaved_abk_page, setSaved_abk_cond] at hm' ⊢
      rw [e, savedOf_setSaved, ← hpg]
      by_cases hmm : m' = m
      · right; simp [hmm, refillEntry]
      · simp only [hmm, false_and, if_false]; rw [hpg]; exact ok.true' ha m' hm'
  · rw [if_neg hx]
    constructor
    case pages => exact pg
    case entries => exact en
    case present => exact ok.present
    case idle => exact ok.idle
    case watch => exact ok.watch
    case saved => exact ok.saved
    case untouched => exact ok.untouched
    case true' =>
      intro ha m' hm'
      rw [e, if_neg ?_]
      · exact ok.true' ha m' hm'
      · rintro ⟨rfl, hv⟩
        apply hx
        simp [watched, ok.present ha, ha, hv, hm']

end Sys2Proof.Machine
end

