-- ==== Sys2Proof/Laws/PerInstr.lean ====
section
/-! SUPPORT. Facts stated per instruction. EncodedFields: the CMD word an instruction encodes to carries the code of
R96 for its operation, that code names its row and no other, bits 20:0 are zero, and so is every field its format does
not use (R91, R92, R97). -/

namespace Sys2Proof.Laws.EncodedFields

/-- What the CMD word of an instruction holds beside its operands. -/
def Statement (i : Instr) : Prop :=
  rowOfCode (cmdOp (encode i).cmd) = some (rowOfOp i.op) ∧ cmdLow (encode i).cmd = 0 ∧
  (rowOfOp i.op).format.unusedClear (encode i).cmd = true

theorem of_fields {i : Instr} {m k : BitVec 2} {r : BitVec 4} {x : BitVec 1} (h : i.cmd = encodeCmd i.op m k r x)
    (hf : (rowOfOp i.op).format.unusedClear (cmdWord (rowOfOp i.op).code m k r x) = true) : Statement i := by
  simp only [Statement, encode, h, encodeCmd, cmdOp_cmdWord, cmdLow_cmdWord, rowOfCode_rowOfOp]
  exact ⟨trivial, trivial, hf⟩

theorem xlate (m : MapSel) (k : Kind) (va : VAddr) (ctx : Ctx) : Statement (.xlate m k va ctx) := by
  refine of_fields rfl ?_
  rw [show (rowOfOp (Instr.op (.xlate m k va ctx))).format = .t from rfl]
  simp [Format.unusedClear]

theorem probe (m : MapSel) (k : Kind) (va : VAddr) (ctx : Ctx) : Statement (.probe m k va ctx) := by
  refine of_fields rfl ?_
  rw [show (rowOfOp (Instr.op (.probe m k va ctx))).format = .t from rfl]
  simp [Format.unusedClear]

theorem invalAll : Statement (.invalAll) := by
  refine of_fields rfl ?_
  rw [show (rowOfOp (Instr.op (.invalAll))).format = .n from rfl]
  simp [Format.unusedClear]

theorem invalOne (va : VAddr) : Statement (.invalOne va) := by
  refine of_fields rfl ?_
  rw [show (rowOfOp (Instr.op (.invalOne va))).format = .v from rfl]
  simp [Format.unusedClear]

theorem wrEbr (ebp : Ppn) (pge : Bool) : Statement (.wrEbr ebp pge) := by
  refine of_fields rfl ?_
  rw [show (rowOfOp (Instr.op (.wrEbr ebp pge))).format = .d from rfl]
  simp [Format.unusedClear]

theorem rdEbr : Statement (.rdEbr) := by
  refine of_fields rfl ?_
  rw [show (rowOfOp (Instr.op (.rdEbr))).format = .n from rfl]
  simp [Format.unusedClear]

theorem wrUbr (selAc : Bool) (ldUbr : Bool) (cab : BitVec 3) (pab : BitVec 3) (ubp : Ppn) : Statement (.wrUbr selAc ldUbr cab pab ubp) := by
  refine of_fields rfl ?_
  rw [show (rowOfOp (Instr.op (.wrUbr selAc ldUbr cab pab ubp))).format = .d from rfl]
  simp [Format.unusedClear]

theorem rdUbr : Statement (.rdUbr) := by
  refine of_fields rfl ?_
  rw [show (rowOfOp (Instr.op (.rdUbr))).format = .n from rfl]
  simp [Format.unusedClear]

theorem wrTb (idx : BitVec 4) (value : Word) : Statement (.wrTb idx value) := by
  refine of_fields rfl ?_
  rw [show (rowOfOp (Instr.op (.wrTb idx value))).format = .i from rfl]
  simp [Format.unusedClear]

theorem rdTb (idx : BitVec 4) : Statement (.rdTb idx) := by
  refine of_fields rfl ?_
  rw [show (rowOfOp (Instr.op (.rdTb idx))).format = .i from rfl]
  simp [Format.unusedClear]

theorem selAcb (cab : BitVec 3) (pab : BitVec 3) : Statement (.selAcb cab pab) := by
  refine of_fields rfl ?_
  rw [show (rowOfOp (Instr.op (.selAcb cab pab))).format = .d from rfl]
  simp [Format.unusedClear]

theorem acrd (x : AcCtx) (r : BitVec 4) : Statement (.acrd x r) := by
  refine of_fields rfl ?_
  rw [show (rowOfOp (Instr.op (.acrd x r))).format = .a from rfl]
  simp [Format.unusedClear]

theorem acwr (x : AcCtx) (r : BitVec 4) (value : Word) : Statement (.acwr x r value) := by
  refine of_fields rfl ?_
  rw [show (rowOfOp (Instr.op (.acwr x r value))).format = .a from rfl]
  simp [Format.unusedClear]

theorem armAbk (cond : BitVec 4) (va : VAddr) : Statement (.armAbk cond va) := by
  refine of_fields rfl ?_
  rw [show (rowOfOp (Instr.op (.armAbk cond va))).format = .d from rfl]
  simp [Format.unusedClear]

theorem disarmAbk : Statement (.disarmAbk) := by
  refine of_fields rfl ?_
  rw [show (rowOfOp (Instr.op (.disarmAbk))).format = .n from rfl]
  simp [Format.unusedClear]

theorem sweep : Statement (.sweep) := by
  refine of_fields rfl ?_
  rw [show (rowOfOp (Instr.op (.sweep))).format = .n from rfl]
  simp [Format.unusedClear]

theorem memdiag (ctl : BitVec 5) (fn : BitVec 5) : Statement (.memdiag ctl fn) := by
  refine of_fields rfl ?_
  rw [show (rowOfOp (Instr.op (.memdiag ctl fn))).format = .d from rfl]
  simp [Format.unusedClear]

theorem rdSts : Statement (.rdSts) := by
  refine of_fields rfl ?_
  rw [show (rowOfOp (Instr.op (.rdSts))).format = .n from rfl]
  simp [Format.unusedClear]

theorem clrSts (mask : BitVec 3) : Statement (.clrSts mask) := by
  refine of_fields rfl ?_
  rw [show (rowOfOp (Instr.op (.clrSts mask))).format = .d from rfl]
  simp [Format.unusedClear]

theorem reset : Statement (.reset) := by
  refine of_fields rfl ?_
  rw [show (rowOfOp (Instr.op (.reset))).format = .n from rfl]
  simp [Format.unusedClear]

end Sys2Proof.Laws.EncodedFields
end

