-- ==== Sys2Proof/Laws/Walk.lean ====
section
/-! SUPPORT. The walk of a reference: what PROBE answers for each result of the resolve phase, and pointer chains
followed step by step (R156 to R163). -/

namespace Sys2Proof.Machine

open Sys2Proof

theorem tlbWf_beginCommand {s : State} (h : ∀ m, sparseWf Entry.invalid (tlbOf s m)) : ∀ m, sparseWf Entry.invalid (tlbOf (beginCommand s) m) := by
  intro m; rw [tlbOf_beginCommand]; exact h m

/-- XLATE of a running PU is its effect. -/
theorem exec_xlate_running {s : State} (hs : s.halted = false) (m k va ctx) : exec (.xlate m k va ctx) s = xlateEffect m k va ctx (beginCommand s) := runCommand_running hs

/-- PROBE of a running PU is its effect. -/
theorem exec_probe_running {s : State} (hs : s.halted = false) (m k va ctx) : exec (.probe m k va ctx) s = probeEffect m k va ctx (beginCommand s) := runCommand_running hs

theorem xlateEffect_modeMap (m : Mode) (k va ctx s) : xlateEffect (modeMap m) k va ctx s = translate m k va ctx s := by cases m <;> rfl

theorem probeEffect_modeMap (m : Mode) (k va ctx s) : probeEffect (modeMap m) k va ctx s = refill true m va k ctx s := by cases m <;> rfl

/-- A fault declared with trapping suppressed soft-fails (R262). -/
theorem softFailed_declareFault {s : State} (addr k m c ctx) : SoftFailed s (declareFault addr k m c ctx false (beginCommand s)) addr k m c := by
  refine ⟨by simp, ?_, ?_, ?_, ?_⟩
  · simp [declareFault_false, Answers]
  · simp [declareFault_false]
  · simp [declareFault_false]
  · apply unchanged_of_fields <;> simp [declareFault_false]

theorem physWord_toNat (ppn : Nat) (off : BitVec 9) (h : ppn < 2^13) : (physWord ppn off).toNat = ppn * 512 + off.toNat := by
  simp [physWord]; omega

theorem probeWord_physWord (ppn : Nat) (off : BitVec 9) (a b : Bool) (h : ppn < 2^13) : probeWord (physWord ppn off) a b = BitVec.ofNat 36 ((if a then 2 ^ 35 else 0) + (if b then 2 ^ 34 else 0) + ppn * 512 + off.toNat) := by
  apply BitVec.eq_of_toNat_eq
  have := off.isLt
  rw [probeWord]; simp only [toNat_append_add, BitVec.extractLsb'_toNat, physWord_toNat ppn off h]
  cases a <;> cases b <;> simp <;> omega

/-- A PU of a flat generation has no illegal section (R7). -/
theorem illegalSection_flat {s : State} (inv : Inv s) (h : s.cfg.gen ≠ .multi) (va) : illegalSection s.cfg (decompose s.cfg va) = false := by
  have := inv.config.1
  have : s.cfg.ext = false := by by_contra hc; simp at hc; exact h (this hc)
  simp [illegalSection, this]

theorem halfEntry_toNat (w : Word) (b : Bool) : (halfEntry w b).toNat = if b then w.toNat % 2^18 else w.toNat / 2^18 := by
  have := w.isLt
  cases b <;> simp [halfEntry, Nat.shiftRight_eq_div_pow] 
  omega

/-- A walk that fails soft-fails its PROBE with the cause. -/
theorem probe_of_resolve_fail {s : State} {m : Mode} {va k ctx} {c} (hs : s.halted = false)
   (hsec : illegalSection s.cfg (decompose s.cfg va) = false) (hr : resolve s m (decompose s.cfg va) k = .fail c) :
   ∃ t, exec (.probe (modeMap m) k va ctx) s = .next t ∧ SoftFailed s t (decompose s.cfg va).va k (modeMap m) c :=
  ⟨_, by rw [exec_probe_running hs, probeEffect_modeMap, refill_of_fail (s := beginCommand s) hsec (by simpa using hr)]; rfl, softFailed_declareFault _ _ _ _ _⟩

/-- A walk that succeeds, no break matching, installs its entry and answers PROBE's word (R108, R140). -/
theorem probe_of_resolve_ok {s : State} {m : Mode} {va k ctx} {ppn wperm status} (inv : Inv s) (hs : s.halted = false)
   (hsec : illegalSection s.cfg (decompose s.cfg va) = false)
   (hr : resolve s m (decompose s.cfg va) k = .ok ppn wperm status) (ha : abkMatch s m (decompose s.cfg va) k ctx.nonint = false) :
   ∃ t, exec (.probe (modeMap m) k va ctx) s = .next t ∧
      Installed s t m (decompose s.cfg va).vp ⟨⟨true, grantedWrite s wperm status k⟩, BitVec.ofNat 13 ppn⟩ 
       (BitVec.ofNat 36 ((if wperm then 2 ^ 35 else 0) + (if grantedWrite s wperm status k then 2 ^ 34 else 0) + ppn * 512 + (decompose s.cfg va).off.toNat)) ∧
      t.mem = (commitStatus status k (beginCommand s)).mem ∧ t.events = (commitStatus status k (beginCommand s)).events := by
  have hp : ppn < 2^13 := by have := inv.config.2.2.2.2.1; have := (resolve_eq_ok hr).1; omega
  have eg : grantedWrite (beginCommand s) wperm status k = grantedWrite s wperm status k := rfl
  refine ⟨_, by rw [exec_probe_running hs, probeEffect_modeMap, refill_of_ok (s := beginCommand s) hsec (by simpa using hr) (by simpa using ha)], ⟨?_, ?_, ?_, ?_, ?_⟩, by simp, by simp⟩
  · simp only [Answers, respond_resp, Option.some.injEq, Response.mk.injEq, true_and, and_true, refillWord, if_true]
    rw [eg, probeWord_physWord _ _ _ _ hp]; rfl
  · simp only [lookup_respond]; rw [lookup_commitRefill (tlbWf_beginCommand inv.tlbCanonical m)]; simp [refillEntry, eg]
  · intro m' vp' hne
    simp only [lookup_respond]; rw [lookup_commitRefill (tlbWf_beginCommand inv.tlbCanonical m)]; 
    rw [if_neg (by intro h; exact hne (by simp [h.1, h.2]))]; simp
  · simp only [SavedFollows, respond_abk, commitRefill_abk, eg]
    by_cases hw : watched s m (decompose s.cfg va).vp = true
    · have hw' : watched (beginCommand s) m (decompose (beginCommand s).cfg va).vp = true := hw
      rw [if_pos hw', if_pos hw]; cases m <;> simp [setSaved]
    · have hw' : ¬ watched (beginCommand s) m (decompose (beginCommand s).cfg va).vp = true := hw
      rw [if_neg hw', if_neg hw]; simp
  · apply unchanged_of_fields <;> simp

/-- A turn of EvalPtr reaches a page by an immediate or a shared pointer, and by nothing else (R157, R158). -/
theorem ptrStep_page {s level ptr rts pn rts'} : ptrStep s level ptr rts = .page pn rts' ↔
   rts' = rts &&& ptrRights ptr ∧ ((ptrType ptr = 1 ∧ ptrMedium ptr = 0 ∧ pn = ptrPage ptr) ∨
    (ptrType ptr = 2 ∧ ∃ e, memRead s (s.pager.spb.toNat + ptrPage ptr) = some e ∧ ptrMedium e = 0 ∧ pn = ptrPage e)) := by
  simp only [ptrStep, ptrThroughSpt]
  have ht := (ptrType ptr).isLt
  constructor
  · intro h
    split_ifs at h with h0 h4 h1 h2 h6
    · simp at h; exact ⟨h.2.symm, .inl ⟨h1, by simpa using h2, h.1.symm⟩⟩
    · split at h
      · simp at h
      · rename_i e he
        split_ifs at h with h5
        simp at h
        exact ⟨h.2.symm, .inr ⟨h6, e, he, by simpa using h5, h.1.symm⟩⟩
    · split at h
      · simp at h
      · split_ifs at h
  · rintro ⟨rfl, ⟨h1, h2, rfl⟩ | ⟨h1, e, h2, h3, rfl⟩⟩
    · simp [h1, h2]
    · simp [h1, h2, h3]

/-- A turn of EvalPtr follows a pointer of type 3 through the shared-pointer table, and no other (R159). -/
theorem ptrStep_follow {s level ptr rts a rts'} : ptrStep s level ptr rts = .follow a rts' ↔
   rts' = rts &&& ptrRights ptr ∧ ptrType ptr = 3 ∧ ∃ e, memRead s (s.pager.spb.toNat + ptrPage ptr) = some e ∧ ptrMedium e = 0 ∧ a = ptrPage e * 512 + ptrIndex ptr := by
  simp only [ptrStep, ptrThroughSpt]
  have ht := (ptrType ptr).isLt
  constructor
  · intro h
    split_ifs at h with h0 h4 h1 h2 h6
    · split at h
      · simp at h
      · split_ifs at h
    · split at h
      · simp at h
      · rename_i e he
        split_ifs at h with h5
        simp at h
        refine ⟨h.2.symm, ?_, e, he, by simpa using h5, h.1.symm⟩
        apply BitVec.eq_of_toNat_eq
        have a0 : (ptrType ptr).toNat ≠ 0 := fun hh => h0 (BitVec.eq_of_toNat_eq (by simpa using hh))
        have a1 : (ptrType ptr).toNat ≠ 1 := fun hh => h1 (BitVec.eq_of_toNat_eq (by simpa using hh))
        have a2 : (ptrType ptr).toNat ≠ 2 := fun hh => h6 (BitVec.eq_of_toNat_eq (by simpa using hh))
        simp; omega
  · rintro ⟨rfl, h1, e, h2, h3, rfl⟩
    simp [h1, h2, h3]

/-- EvalPtr by its turn. -/
theorem evalPtr_eq (s level left ptr rts) : evalPtr s level left ptr rts = match ptrStep s level ptr rts with
  | .fail c => .fail c
  | .page pn rts => .page pn rts left
  | .follow a rts =>
    match left with
    | 0 => .diverge
    | left + 1 =>
      match memRead s a with
      | none => .fail .nxmIndirect
      | some next => evalPtr s level left next rts := by
  cases left <;> rw [evalPtr] <;> cases ptrStep s level ptr rts <;> rfl

/-- A pointer chain is followed to its end when its steps are allowed. -/
theorem evalPtr_of_chain {s level ptr rs pn n} (h : PtrChain s ptr rs pn n) : ∀ start left, evalPtr s level (left + n) ptr start = .page pn (allRights start rs) left := by
  induction h with
  | immediate p h1 h2 => intro start left; rw [evalPtr_eq, ptrStep_page.2 ⟨rfl, .inl ⟨h1, h2, rfl⟩⟩]; rfl
  | shared p e h1 h2 h3 => intro start left; rw [evalPtr_eq, ptrStep_page.2 ⟨rfl, .inr ⟨h1, e, h2, h3, rfl⟩⟩]; rfl
  | indirect p e next rs pn n h1 h2 h3 h4 hc ih =>
    intro start left
    rw [evalPtr_eq, ptrStep_follow.2 ⟨rfl, h1, e, h2, h3, rfl⟩]
    show (match memRead s _ with | none => _ | some next => evalPtr s level (left + n) next _) = _
    rw [h4]; exact ih _ _

/-- The address of the pointer an indirect pointer names. -/
def nextAddress (s : State) (p : Word) : Option Nat :=
  match ptrStep s .sect p 0 with
  | .follow a _ => some a
  | _ => none

/-- A turn of EvalPtr fails exactly where the chain breaks before any indirect step (R157, R158). -/
theorem ptrStep_fail {s level ptr rts c} : ptrStep s level ptr rts = .fail c ↔ PtrFails s level ptr c 0 := by
  have ht := (ptrType ptr).isLt
  constructor
  · intro h
    by_cases h0 : ptrType ptr = 0
    · cases level <;> simp only [ptrStep, h0, if_true, noAccessCause, PtrStep.fail.injEq] at h <;> subst h
      · exact .sectNoAccess ptr h0 rfl
      · exact .pageNoAccess ptr h0 rfl
    by_cases h4 : 4 ≤ (ptrType ptr).toNat
    · simp only [ptrStep, h0, h4, if_true, if_false, PtrStep.fail.injEq] at h; subst h; exact .badType ptr h4
    by_cases h1 : ptrType ptr = 1
    · rw [ptrStep, if_neg h0, if_neg h4, if_pos h1] at h
      split_ifs at h with hm
      simp only [PtrStep.fail.injEq] at h; subst h; exact .immediateNoncore ptr h1 hm
    have h23 : ptrType ptr = 2 ∨ ptrType ptr = 3 := by bv_omega
    simp only [ptrStep, h0, h4, h1, if_false, ptrThroughSpt] at h
    cases hr : memRead s (s.pager.spb.toNat + ptrPage ptr) with
    | none => simp only [hr, PtrStep.fail.injEq] at h; subst h; exact .noShared ptr h23 hr
    | some e =>
      simp only [hr] at h
      split_ifs at h with hm
      simp only [PtrStep.fail.injEq] at h; subst h; exact .sharedNoncore ptr e h23 hr hm
  · rintro (⟨_, h, rfl⟩ | ⟨_, h, rfl⟩ | ⟨_, h⟩ | ⟨_, h, hm⟩ | ⟨_, h, hr⟩ | ⟨_, e, h, hr, hm⟩)
    · simp [ptrStep, h, noAccessCause]
    · simp [ptrStep, h, noAccessCause]
    · have : ptrType ptr ≠ 0 := by rintro h0; rw [h0] at h; simp at h
      simp only [ptrStep, this, h, if_true, if_false]
    · simp [ptrStep, h]; exact hm
    · rcases h with h | h <;> simp [ptrStep, ptrThroughSpt, h, hr]
    · rcases h with h | h <;> simp [ptrStep, ptrThroughSpt, h, hr] <;> exact hm

/-- A chain that breaks within the steps allowed fails with the cause of its break. -/
theorem evalPtr_of_breaks {s level ptr c n} (h : PtrFails s level ptr c n) :
    ∀ start left, n ≤ left → evalPtr s level left ptr start = .fail c := by
  have now {p c} (h : PtrFails s level p c 0) (start left) : evalPtr s level left p start = .fail c := by
    rw [evalPtr_eq, ptrStep_fail.2 h]
  induction h with
  | noNext p e h hr hm hn =>
    intro start left hl
    obtain ⟨left, rfl⟩ : ∃ l, left = l + 1 := ⟨left - 1, by omega⟩
    rw [evalPtr_eq, ptrStep_follow.2 ⟨rfl, h, e, hr, hm, rfl⟩]; simp only [hn]
  | indirect p e next c n h hr hm hn _ ih =>
    intro start left hl
    obtain ⟨left, rfl⟩ : ∃ l, left = l + 1 := ⟨left - 1, by omega⟩
    rw [evalPtr_eq, ptrStep_follow.2 ⟨rfl, h, e, hr, hm, rfl⟩]; simp only [hn]
    exact ih _ _ (by omega)
  | sectNoAccess p h hl => exact fun _ _ _ => now (.sectNoAccess p h hl) _ _
  | pageNoAccess p h hl => exact fun _ _ _ => now (.pageNoAccess p h hl) _ _
  | badType p h => exact fun _ _ _ => now (.badType p h) _ _
  | immediateNoncore p h hm => exact fun _ _ _ => now (.immediateNoncore p h hm) _ _
  | noShared p h hr => exact fun _ _ _ => now (.noShared p h hr) _ _
  | sharedNoncore p e h hr hm => exact fun _ _ _ => now (.sharedNoncore p e h hr hm) _ _

/-- The pointer an indirect pointer names. -/
def nextPointer (s : State) (p : Word) : Option Word := (nextAddress s p).bind (memRead s)

/-- The pointer reached after `n` indirect steps. -/
def pointerAfter (s : State) : Nat → Word → Option Word
  | 0, p => some p
  | n + 1, p => (nextPointer s p).bind (pointerAfter s n)

theorem nextAddress_eq_some {s p a} : nextAddress s p = some a ↔ ∀ level rts, ∃ rts', ptrStep s level p rts = .follow a rts' := by
  constructor
  · intro h level rts
    unfold nextAddress at h
    split at h
    · rename_i a' r hp
      simp at h; subst h
      obtain ⟨-, h1, e, h2, h3, h4⟩ := ptrStep_follow.1 hp
      exact ⟨_, ptrStep_follow.2 ⟨rfl, h1, e, h2, h3, h4⟩⟩
    · simp at h
  · intro h
    obtain ⟨r, hr⟩ := h .sect 0
    rw [nextAddress, hr]

theorem nextAddress_of_follow {s level p rts a rts'} (h : ptrStep s level p rts = .follow a rts') : nextAddress s p = some a := by
  obtain ⟨-, h1, e, h2, h3, h4⟩ := ptrStep_follow.1 h
  exact nextAddress_eq_some.2 fun level rts => ⟨_, ptrStep_follow.2 ⟨rfl, h1, e, h2, h3, h4⟩⟩

theorem pointerAfter_add (s m n p) : pointerAfter s (m + n) p = (pointerAfter s m p).bind (pointerAfter s n) := by
  induction m generalizing p with
  | zero => simp [pointerAfter]
  | succ m ih => rw [Nat.succ_add]; simp only [pointerAfter]; cases nextPointer s p <;> simp [ih]

theorem pointerAfter_isSome_of_le {s m n p} (h : (pointerAfter s n p).isSome) (hm : m ≤ n) : (pointerAfter s m p).isSome := by
  obtain ⟨d, rfl⟩ := Nat.exists_eq_add_of_le hm
  rw [pointerAfter_add] at h
  cases hh : pointerAfter s m p <;> simp_all

/-- A walk whose allowance is used up has taken that many steps. -/
theorem pointerAfter_of_diverge {s level left ptr rts} (h : evalPtr s level left ptr rts = .diverge) : (pointerAfter s left ptr).isSome := by
  induction left generalizing ptr rts with
  | zero => simp [pointerAfter]
  | succ n ih =>
    rw [evalPtr_eq] at h
    split at h
    · simp at h
    · simp at h
    · rename_i a r hp
      simp only at h
      split at h
      · simp at h
      · rename_i nx hn
        simp only [pointerAfter, nextPointer, nextAddress_of_follow hp, Option.bind_some, hn]
        exact ih h

/-- A chain that never ends uses up any allowance. -/
theorem diverge_of_endless {s level more ptr rts} (h : ∀ n, (pointerAfter s n ptr).isSome) : evalPtr s level more ptr rts = .diverge := by
  induction more generalizing ptr rts with
  | zero =>
    have h1 := h 1
    cases ha : nextAddress s ptr with
    | none => simp [pointerAfter, nextPointer, ha] at h1
    | some a =>
      obtain ⟨r, hr⟩ := nextAddress_eq_some.1 ha level rts
      rw [evalPtr_eq, hr]
  | succ k ih =>
    have h1 := h 1
    cases ha : nextAddress s ptr with
    | none => simp [pointerAfter, nextPointer, ha] at h1
    | some a =>
      obtain ⟨r, hr⟩ := nextAddress_eq_some.1 ha level rts
      cases hn : memRead s a with
      | none => simp [pointerAfter, nextPointer, ha, hn] at h1
      | some nx =>
        rw [evalPtr_eq, hr]; simp only [hn]
        apply ih
        intro n
        have := h (n + 1)
        simpa [pointerAfter, nextPointer, ha, hn] using this

/-- More steps than there are words: some pointer was read twice, and the chain never ends. -/
theorem endless_of_long {s : State} {p : Word} {left : Nat} (hl : s.cfg.physWords < left) (h : (pointerAfter s left p).isSome) : ∀ n, (pointerAfter s n p).isSome := by
  -- the address read at step i
  have hs : ∀ i < left, ∃ q a w, pointerAfter s i p = some q ∧ nextAddress s q = some a ∧ memRead s a = some w ∧ pointerAfter s (i+1) p = some w := by
    intro i hi
    have h1 := pointerAfter_isSome_of_le h (show i + 1 ≤ left from hi)
    rw [pointerAfter_add] at h1
    cases hq : pointerAfter s i p with
    | none => simp [hq] at h1
    | some q =>
      simp only [hq, Option.bind_some] at h1
      cases ha : nextAddress s q with
      | none => simp [pointerAfter, nextPointer, ha] at h1
      | some a =>
        cases hw : memRead s a with
        | none => simp [pointerAfter, nextPointer, ha, hw] at h1
        | some w => exact ⟨q, a, w, rfl, ha, hw, by rw [pointerAfter_add, hq]; simp [pointerAfter, nextPointer, ha, hw]⟩
  choose! q a w h1 h2 h3 h4 using hs
  have hmaps : ∀ i ∈ Finset.range left, a i ∈ Finset.range s.cfg.physWords := by
    intro i hi
    simp only [Finset.mem_range] at *
    exact (memRead_eq_some.1 (h3 i hi)).1
  obtain ⟨i, hi, j, hj, hne, he⟩ := Finset.exists_ne_map_eq_of_card_lt_of_maps_to (by simpa using hl) hmaps
  wlog hij : i < j generalizing i j
  · exact this j hj i hi (Ne.symm hne) he.symm (by omega)
  simp only [Finset.mem_range] at hi hj
  have hw : w i = w j := by have e1 := h3 i hi; have e2 := h3 j hj; rw [he, e2] at e1; simpa using e1.symm
  -- from w i a endless_of_long of length j - i
  have hc : pointerAfter s (j - i) (w i) = some (w i) := by
    have := h4 j hj
    rw [show j + 1 = (i + 1) + (j - i) by omega, pointerAfter_add, h4 i hi] at this
    simpa [hw] using this
  have hk : ∀ k, pointerAfter s (k * (j - i)) (w i) = some (w i) := by
    intro k
    induction k with
    | zero => simp [pointerAfter]
    | succ k ih => rw [Nat.succ_mul, pointerAfter_add, ih]; simpa using hc
  intro n
  have hbig : (pointerAfter s ((i + 1) + n * (j - i)) p).isSome := by rw [pointerAfter_add, h4 i hi]; simp [hk]
  exact pointerAfter_isSome_of_le hbig (by have : n ≤ n * (j - i) := Nat.le_mul_of_pos_right _ (by omega); omega)

theorem allRights_append (start a b) : allRights start (a ++ b) = allRights (allRights start a) b := by simp [allRights]

end Sys2Proof.Machine
end

