-- ==== Sys2Proof/Tests/Slice0.lean ====
section
/-! SUPPORT. The model's own tests: what WellFormed refuses, words written out from spec 30_encoding.md and
95_test_vectors.md decoded, at most two steps per instruction from the vectors, and for every statement with hypotheses
a state and operands that meet them. The expected numbers are the spec's. -/

namespace Sys2Proof.Tests

open Sys2Proof Sys2Proof.Machine

/- One declaration at a time: the kernel evaluations below need no threads of their own. -/
set_option Elab.async false

/-! ## Helpers -/

/-- A command of two words, CTX zero. -/
def cmd (c d : Nat) : Command := ⟨BitVec.ofNat 36 c, BitVec.ofNat 36 d, .zero⟩

def noCtx : Ctx := ⟨0, 0, .none, false⟩

/-- The instruction runs to a next state of which `P` holds. -/
def runsTo (i : Instr) (s : State) (P : State → Bool) : Bool :=
  match exec i s with
  | .next t => P t
  | .fault _ => false
  | .refused _ => false

theorem exists_of_runsTo {i : Instr} {s : State} {P : State → Bool} (h : runsTo i s P = true) :
    ∃ t, exec i s = .next t ∧ P t = true := by
  unfold runsTo at h
  split at h
  · exact ⟨_, ‹_›, h⟩
  · cases h
  · cases h

/-- What an instruction answers. -/
def answer (i : Instr) (s : State) : Option (Status × Nat × Nat) :=
  match exec i s with
  | .next t => t.resp.map fun r => (r.st, r.r0.toNat, r.r1.toNat)
  | .fault _ => none
  | .refused _ => none

/-- The state after an instruction, or the state itself where it stops. -/
def after (i : Instr) (s : State) : State :=
  match exec i s with
  | .next t => t
  | .fault _ => s
  | .refused _ => s

/-- A failing reference, found by running PROBE. -/
theorem exists_failing {s : State} {m : MapSel} {k : Kind} {va : VAddr} {ctx : Ctx} {w : Word} {P : State → Bool}
    (h : runsTo (.probe m k va ctx) s (fun u => decide (u.resp = some ⟨.softfail, w, 0⟩) && P u) = true)
    (hc : NotCached s m k va) : ∃ u, FailingReference s m k va ctx u w ∧ P u = true := by
  obtain ⟨u, hu, hp⟩ := exists_of_runsTo h
  simp only [Bool.and_eq_true, decide_eq_true_eq] at hp
  exact ⟨u, ⟨hu, hp.1, hc⟩, hp.2⟩

/-- A walk that never ends. -/
def endless (i : Instr) (s : State) : Bool :=
  match exec i s with
  | .fault .indirectChainNeverEnds => true
  | _ => false
theorem fault_of_endless {i : Instr} {s : State} (h : endless i s = true) : exec i s = .fault .indirectChainNeverEnds := by
  unfold endless at h; split at h
  · assumption
  · simp at h

/-! ## States (the setups of 95_test_vectors.md) -/

/-- Part 3, but TB[EXEC][HIGH] at the first word beyond memory. -/
def its : State :=
  { State.reset with
    cfg := Config.default .flatIts
    mem := [(0o4000, 0o200021400022), (0o4001, 0o000000600022), (0o4100, 0o600077600100), (0o5000, 0o600030000000)]
    pager := { Pager.reset with pge := true, tb := ⟨0o4000, 0o4100, 0o5000, 0o100000⟩ } }

/-- The pager registers after `WR_UBR 0o100000_000003`, `WR_EBR 0o020002`. -/
def bases : Pager := { Pager.reset with ebp := 2, ebase := 0o2000, pge := true, ubp := 3, ubase := 0o3000 }

/-- Part 4, but D6's page is the first beyond memory. -/
def mid : State :=
  { State.reset with
    cfg := Config.default .flatMid
    mem := [(0o2200, 0o500040400041), (0o2600, 0o400050500051), (0o3000, 0o500021400022), (0o3001, 0o100023500100),
      (0o3400, 0o500030000000)]
    pager := bases }

/-- Part 5, the words the tests read; page 7's pointer names the first page beyond memory. -/
def image : Memory :=
  [(0o3540, 0o174000000007), (0o5010, 0o11), (0o5012, 0o23), (0o5014, 0o7), (0o6020, 0o010000000000)] ++
  [(0o6021, 0o010000000000), (0o6023, 0o010000000000), (0o7000, 0o174000000020), (0o7001, 0o154000000021),
    (0o7002, 0o350003000010), (0o7007, 0o174000000100)] ++
  [(0o7010, 0o174000000024), (0o7013, 0o374013000014), (0o11003, 0o230000000012)]

def multi : State :=
  { State.reset with
    cfg := Config.default .multi
    mem := image
    pager := { bases with spb := 0o5000, csb := 0o6000, csm := 0o770000000001, pur := 0o000100000000 } }

/-- Part 5 without a status table. -/
def plain : State := { multi with pager := { multi.pager with csb := 0, csm := 0, pur := 0 } }

/-- Part 5, EXT = true, with the new pair of T12. -/
def extended : State :=
  { multi with
    cfg := Config.defaultExt
    mem := [(0o3503, 0o000300000000), (0o3504, 0o000001002000)] ++ image }

/-- Part 8, after the references of B9. -/
def watchable : State :=
  { State.reset with
    mem := [(0o2540, 0o174000000010), (0o3502, 0o000200001000), (0o3540, 0o174000000007), (0o7000, 0o174000000020),
      (0o7001, 0o174000000021), (0o10001, 0o174000000031)]
    tlb := ⟨[(1, ⟨⟨true, true⟩, 0o31⟩)], [(1, ⟨⟨true, true⟩, 0o21⟩)]⟩
    pager := bases }

/-- Part 5, the pointers that fail and what they lead to. -/
def broken : State :=
  { multi with
    mem := [(0o3540, 0o174000000007), (0o5013, 0o70000), (0o5015, 0o000001000026), (0o7003, 0o074000000022)] ++
      [(0o7004, 0o574000000022), (0o7005, 0o174001000022), (0o7006, 0o274000777000), (0o7011, 0o374000000013)] ++
      [(0o7014, 0o274000000015)] }

/-- W15: eight indirect steps allowed. -/
def eight : State := { multi with cfg := { multi.cfg with indLimit := some 8 } }

/-- X2: section 1's page table does not exist; and (the first word beyond memory) UBASE + SECT_OFF. -/
def sections : State := { extended with mem := [(0o3503, 0o000300000000), (0o3541, 0o174000000300)] }
def noSections : State := { multi with pager := { multi.pager with ubase := 0o77240 } }

/-- A write watch on user and exec 0o1234. -/
def armed : State := after (.armAbk 0b0010 0o1234) watchable

def limited : State := { armed with cfg := { armed.cfg with abkHitLimit := some 0 } }

def halted : State := { State.reset with halted := true, fatalCode := .refault }

theorem its_inv : Inv its := Inv.of_data (by decide +kernel)
theorem mid_inv : Inv mid := Inv.of_data (by decide +kernel)
theorem multi_inv : Inv multi := Inv.of_data (by decide +kernel)
theorem plain_inv : Inv plain := Inv.of_data (by decide +kernel)
theorem extended_inv : Inv extended := Inv.of_data (by decide +kernel)
theorem watchable_inv : Inv watchable := Inv.of_data (by decide +kernel)
theorem armed_inv : Inv armed := Inv.of_data (by decide +kernel)
theorem halted_inv : Inv halted := Inv.of_data (by decide +kernel)

/-! ## WellFormed: the one check, and what it refuses -/

theorem test_wrTb_8_ill_formed : (Instr.wrTb 8 0).wellFormed = false := by decide
theorem test_rdTb_8_ill_formed : (Instr.rdTb 8).wellFormed = false := by decide

/-! ## Decoding: the command encodings of 95_test_vectors.md part 2 -/

theorem test_decode_xlate :
    decode ⟨0o015000000000, 0o000000200000, ⟨0o777, 0o10000, 4, true⟩⟩ =
      .ok (.xlate .phys .write 0o200000 ⟨0o777, 0o10000, .singleStep, true⟩) := by decide +kernel
theorem test_decode_xlate_exec_fetch :
    decode (cmd 0o010000000000 0o007777000005) = .ok (.xlate .exec .fetch 0o7777000005 noCtx) := by decide +kernel
theorem test_decode_probe :
    decode (cmd 0o022400000000 0o123) = .ok (.probe .user .read 0o123 noCtx) := by decide +kernel
theorem test_decode_invalAll : decode (cmd 0o030000000000 0o777) = .ok .invalAll := by decide +kernel
theorem test_decode_invalOne : decode (cmd 0o040000000000 0o7000777) = .ok (.invalOne 0o7000777) := by decide +kernel
/-- Bits 35:14 of the image are ignored (R102, vector M7). -/
theorem test_decode_wrEbr : decode (cmd 0o050000000000 0o777777760002) = .ok (.wrEbr 2 true) := by decide +kernel
theorem test_decode_rdEbr : decode (cmd 0o060000000000 0) = .ok .rdEbr := by decide +kernel
/-- SEL_AC, CAB 2, PAB 1, no LD_UBR (vector M12). -/
theorem test_decode_wrUbr :
    decode (cmd 0o070000000000 0o402100000077) = .ok (.wrUbr true false 2 1 0o77) := by decide +kernel
theorem test_decode_rdUbr : decode (cmd 0o100000000000 0) = .ok .rdUbr := by decide +kernel
theorem test_decode_wrTb : decode (cmd 0o110160000000 0o100000000) = .ok (.wrTb 7 0o100000000) := by decide +kernel
theorem test_decode_rdTb : decode (cmd 0o120160000000 0) = .ok (.rdTb 7) := by decide +kernel
theorem test_decode_selAcb : decode (cmd 0o130000000000 0o30) = .ok (.selAcb 3 0) := by decide +kernel
theorem test_decode_acrd : decode (cmd 0o140370000000 0) = .ok (.acrd .previous 15) := by decide +kernel
theorem test_decode_acwr : decode (cmd 0o150130000000 0o555) = .ok (.acwr .previous 5 0o555) := by decide +kernel
theorem test_decode_armAbk :
    decode (cmd 0o160000000000 0o740000001234) = .ok (.armAbk 0b1111 0o1234) := by decide +kernel
theorem test_decode_disarmAbk : decode (cmd 0o170000000000 0) = .ok .disarmAbk := by decide +kernel
theorem test_decode_sweep : decode (cmd 0o200000000000 0) = .ok .sweep := by decide +kernel
theorem test_decode_memdiag : decode (cmd 0o210000000000 0o760000000037) = .ok (.memdiag 0o37 0o37) := by decide +kernel
theorem test_decode_rdSts : decode (cmd 0o220000000000 0) = .ok .rdSts := by decide +kernel
theorem test_decode_clrSts : decode (cmd 0o230000000000 0o777777777776) = .ok (.clrSts 6) := by decide +kernel
theorem test_decode_reset : decode (cmd 0o770000000000 0) = .ok .reset := by decide +kernel

/-- The illegal encodings of part 2, each by its own name. -/
theorem test_reject_codes :
    decode (cmd 0 0) = .error .unknownOp ∧ decode (cmd 0o240000000000 0) = .error .unknownOp ∧
    decode (cmd 0o760000000000 0) = .error .unknownOp := by decide +kernel
theorem test_reject_reference :
    decode (cmd 0o016000000000 0) = .error .reservedMap ∧ decode (cmd 0o011400000000 0) = .error .reservedKind ∧
    decode (cmd 0o012420000000 0) = .error .unusedField ∧
    decode ⟨0o012400000000, 0, ⟨0, 0, 5, false⟩⟩ = .error .reservedSeq := by decide +kernel
theorem test_reject_fields :
    decode (cmd 0o032000000000 0) = .error .unusedField ∧ decode (cmd 0o030000000001 0) = .error .lowBits ∧
    decode (cmd 0o040020000000 0) = .error .unusedField ∧ decode (cmd 0o060010000000 0) = .error .unusedField ∧
    decode (cmd 0o120200000000 0) = .error .indexRange := by decide +kernel

/-! ## One step per instruction -/

/-- T1. -/
theorem test_xlate_trap :
    answer (.xlate .user .read 0o2000 ⟨0o700, 1, .none, false⟩) watchable = some (.trap, 0o1000, 4) ∧
    memRead (after (.xlate .user .read 0o2000 ⟨0o700, 1, .none, false⟩) watchable) 0o3500 = some 0o244000002000 ∧
    memRead (after (.xlate .user .read 0o2000 ⟨0o700, 1, .none, false⟩) watchable) 0o3501 = some 0o000040000700 := by
  decide +kernel
/-- T12: the two-word format; the illegal section's address cut to 27 bits. -/
theorem test_xlate_trap_extended :
    answer (.xlate .user .fetch 0o40001000 ⟨0o3004567, 0o12345, .none, false⟩) extended = some (.trap, 0o1002000, 6) ∧
    memRead (after (.xlate .user .fetch 0o40001000 ⟨0o3004567, 0o12345, .none, false⟩) extended) 0o3501 =
      some 0o516240000000 := by decide +kernel
/-- W5: indirect to shared, the rights ANDed. -/
theorem test_probe_indirect :
    answer (.probe .user .read 0o2345 noCtx) multi = some (.ok, 0o000000023345, 0) ∧
    lookup (after (.probe .user .read 0o2345 noCtx) multi) .user 2 = ⟨⟨true, false⟩, 0o23⟩ ∧
    memRead (after (.probe .user .read 0o2345 noCtx) multi) 0o6023 = some 0o010100000000 := by decide +kernel
/-- D8: the borrowed region. -/
theorem test_probe_borrowed :
    answer (.probe .exec .read 0o340000 noCtx) mid = some (.ok, 0o600000030000, 0) ∧
    lookup (after (.probe .exec .read 0o340000 noCtx) mid) .exec 0o340 = ⟨⟨true, true⟩, 0o30⟩ := by decide +kernel
/-- R180. -/
theorem test_invalAll : (after .invalAll watchable).tlb = ⟨[], []⟩ := by decide +kernel
/-- B12: an invalidated watched page does not come back. -/
theorem test_invalOne : lookup (after .disarmAbk (after (.invalOne 0o1000) armed)) .user 1 = Entry.invalid := by
  decide +kernel
/-- R182: the same value again still invalidates. -/
theorem test_wrEbr :
    (after (.wrEbr 2 true) watchable).tlb = ⟨[], []⟩ ∧ (after (.wrEbr 0o77 false) mid).pager.ebase = 0o77000 := by
  decide +kernel
/-- M7. -/
theorem test_rdEbr : answer .rdEbr mid = some (.ok, 0o000000020002, 0) := by decide +kernel
/-- M12: the blocks changed, UBP and the caches kept. -/
theorem test_wrUbr :
    answer .rdUbr (after (.wrUbr true false 2 1 0o77) mid) = some (.ok, 0o502100000003, 0) ∧
    (after (.wrUbr true false 2 1 0o77) watchable).tlb = watchable.tlb := by decide +kernel
/-- R185 after reset. -/
theorem test_rdUbr : answer .rdUbr State.reset = some (.ok, 0o500000000000, 0) := by decide +kernel
/-- M16, M17: 22 bits kept; a register of another generation is illegal. -/
theorem test_wrTb :
    answer (.rdTb 3) (after (.wrTb 3 0o777777777777) its) = some (.ok, 0o000017777777, 0) ∧
    answer (.wrTb 4 1) its = some (.illegal, 0, 0) := by decide +kernel
/-- M15, M17. -/
theorem test_rdTb :
    answer (.rdTb 6) multi = some (.ok, 0o770000000001, 0) ∧ answer (.rdTb 5) mid = some (.illegal, 0, 0) := by
  decide +kernel
/-- A3 to A5 in small: the shadow flushed, the previous block read through it. -/
theorem test_selAcb :
    answer (.acrd .previous 5) (after (.selAcb 3 0) (after (.acwr .current 5 0o105) State.reset)) =
      some (.ok, 0o105, 0) := by decide +kernel
/-- A5: PAB = CAB, the previous context is the shadow. -/
theorem test_acrd :
    answer (.acrd .current 5) (after (.acwr .previous 5 7) (after (.selAcb 3 3) State.reset)) = some (.ok, 7, 0) := by
  decide +kernel
/-- A3: the previous block written, the current one not. -/
theorem test_acwr :
    answer (.acrd .current 5) (after (.acwr .previous 5 0o555) (after (.selAcb 3 0) State.reset)) = some (.ok, 0, 0) := by
  decide +kernel
/-- B1: the access bits forced off in both maps, saved, the page numbers kept. -/
theorem test_armAbk :
    armed.tlb = ⟨[(1, ⟨⟨false, false⟩, 0o31⟩)], [(1, ⟨⟨false, false⟩, 0o21⟩)]⟩ ∧
    armed.abk = ⟨true, 1, 0o1234, 0b0010, ⟨true, true⟩, ⟨true, true⟩⟩ := by decide +kernel
/-- B18. -/
theorem test_armAbk_absent : answer (.armAbk 0 0) mid = some (.illegal, 0, 0) := by decide +kernel
/-- B9: exactly as before. -/
theorem test_disarmAbk : (after .disarmAbk armed).tlb = watchable.tlb := by decide +kernel
/-- G1. -/
theorem test_sweep : answer .rdSts (after .sweep State.reset) = some (.ok, 1, 0) := by decide +kernel
/-- G5, G7. -/
theorem test_memdiag :
    answer (.memdiag 0 0o37) State.reset = some (.ok, 0o407600020000, 0) ∧
    answer (.memdiag 1 0) State.reset = some (.ok, 0, 0) := by decide +kernel
/-- The layout of R106: a controller 1 of one page, and one not present. -/
theorem test_memdiag_configured :
    let s := { State.reset with
      cfg := { State.reset.cfg with memdiag := [⟨1, 0o37, .controller true 1⟩, ⟨0o37, 1, .controller false 0o37777⟩] } }
    answer (.memdiag 1 0o37) s = some (.ok, 0o417600000001, 0) ∧
    answer (.memdiag 0o37 1) s = some (.ok, 0o370200037777, 0) := by decide +kernel
/-- G2. -/
theorem test_rdSts :
    answer .rdSts (after (.probe .phys .read 0o100000 noCtx) (after .sweep State.reset)) = some (.ok, 3, 0) := by
  decide +kernel
/-- G3. -/
theorem test_clrSts : (after (.clrSts 6) { State.reset with sts := 7 }).sts = 1 := by decide +kernel
/-- T10: RESET ends the halt. -/
theorem test_reset :
    answer .rdEbr halted = some (.fatal, 2, 0) ∧ answer .rdEbr (after .reset halted) = some (.ok, 0, 0) := by
  decide +kernel

/-! ## Witnesses: decoding and the step -/

theorem witness_DecodeOfEncode : (Instr.wrTb 7 0o777777777777).wellFormed = true ∧ (Instr.rdTb 0).wellFormed = true := by
  decide
theorem witness_DecodedCommandWord : decode (cmd 0o110160000000 0o777777777777) = .ok (.wrTb 7 0o777777777777) := by
  decide +kernel

/-- One command per clause of R97. -/
theorem witness_IllegalCommand :
    (∀ c ∈ [0o000000000000, 0o030000000001, 0o032000000000, 0o030400000000, 0o040020000000, 0o060010000000] ++
        [0o016000000000, 0o011400000000, 0o120200000000, 0o240000000000], IllegalCommand (cmd c 0)) ∧
    IllegalCommand ⟨0o012400000000, 0, ⟨0, 0, 5, false⟩⟩ := by
  simp only [IllegalCommand]
  decide +kernel

/-- Legal ones: the sequence code, the register and the index at their highest. -/
theorem witness_LegalCommand :
    ¬ IllegalCommand ⟨0o012400000000, 0, ⟨0, 0, 4, false⟩⟩ ∧ ¬ IllegalCommand (cmd 0o140370000000 0) ∧
    ¬ IllegalCommand (cmd 0o120160000000 0) := by
  refine ⟨?_, ?_, ?_⟩ <;> simp only [IllegalCommand] <;> decide +kernel
theorem witness_IllegalCommandOnThePort :
    { State.reset with port := [.command (cmd 0 0)] }.port = .command (cmd 0 0) :: [] := rfl

theorem witness_StepRuns :
    decode (cmd 0o060000000000 0) = .ok .rdEbr ∧
    { State.reset with port := [.command (cmd 0o060000000000 0)] }.port = .command (cmd 0o060000000000 0) :: [] ∧
    decodeTableWord 36 0o060000000000 = some .rdEbr ∧ State.reset.port = [] := by decide +kernel

/-- The last word there is, and the first beyond. -/
theorem witness_OtherAgentsStore :
    Memory.wf State.reset.mem ∧ 0o77777 < State.reset.cfg.physWords ∧ ¬ 0o100000 < State.reset.cfg.physWords ∧
    { State.reset with port := [.store 0o77777 1] }.port = .store 0o77777 1 :: [] := by decide +kernel

theorem witness_EveryStep : Inv State.reset ∧ ∃ t, step State.reset = .next t :=
  ⟨Inv.of_data (by decide +kernel), _, rfl⟩

/-! ## Witnesses: whole-machine rules -/

theorem witness_Prologue :
    (¬ ((multi.cfg.gen = .flatIts ∧ (3 : BitVec 4).toNat ≤ 3) ∨
      (multi.cfg.gen = .multi ∧ 4 ≤ (3 : BitVec 4).toNat ∧ (3 : BitVec 4).toNat ≤ 7))) ∧
    (its.cfg.gen = .flatIts ∧ (3 : BitVec 4).toNat ≤ 3) ∧ mid.cfg.hasAbk = false ∧ halted.halted = true ∧
    Instr.rdTb 4 ≠ .reset ∧ (halted.cfg.gen = .multi ∧ 4 ≤ (4 : BitVec 4).toNat ∧ (4 : BitVec 4).toNat ≤ 7) := by
  decide +kernel

/-- A PROBE that writes nothing for want of a status table, and a command that is no reference. -/
theorem witness_OnlyReferencesWrite :
    (∃ t, exec (.probe .user .read 0o123 noCtx) plain = .next t) ∧ plain.pager.csb = 0 ∧
    (∃ t, exec .sweep plain = .next t) := ⟨⟨_, rfl⟩, rfl, ⟨_, rfl⟩⟩

theorem witness_OnlyReferencesRaise : ∃ t, exec .reset halted = .next t := ⟨_, rfl⟩

theorem witness_Accumulators :
    (∃ t, exec (.selAcb 7 0) State.reset = .next t ∧ decide (t.acs.cab ≠ State.reset.acs.cab) = true) ∧
    (∃ t, exec (.acwr .current 15 1) State.reset = .next t ∧ decide (archReg t.acs 0 15 ≠ 0) = true) :=
  ⟨exists_of_runsTo (by decide +kernel), exists_of_runsTo (by decide +kernel)⟩

/-- Each bit set, and one cleared. -/
theorem witness_StatusBits :
    (∃ t, exec .sweep State.reset = .next t ∧ t.sts.getLsbD 0 = true) ∧
    (∃ t, exec (.probe .phys .read 0o100000 noCtx) State.reset = .next t ∧ t.sts.getLsbD 1 = true) ∧
    (∃ t, exec (.xlate .user .read 0o2000 ⟨0, 0, .intDelivery, false⟩) watchable = .next t ∧ t.sts.getLsbD 2 = true) ∧
    (∃ t, exec (.clrSts 4) { State.reset with sts := 7 } = .next t ∧ (!t.sts.getLsbD 2) = true) :=
  ⟨exists_of_runsTo (by decide +kernel), exists_of_runsTo (by decide +kernel), exists_of_runsTo (by decide +kernel),
    exists_of_runsTo (by decide +kernel)⟩

/-- T10: UBASE beyond memory; then RESET. -/
theorem witness_Halt :
    (∃ t, exec (.xlate .user .read 0o2000 noCtx) { watchable with pager := { bases with ubp := 0o17777, ubase := 0o17777000 } }
      = .next t ∧ t.halted = true) ∧
    (∃ t, exec .reset halted = .next t ∧ (!t.halted) = true) :=
  ⟨exists_of_runsTo (by decide +kernel), exists_of_runsTo (by decide +kernel)⟩

/-- An entry kept by another command, and one replaced by a refill. -/
theorem witness_NoOtherCommandDiscards :
    Inv watchable ∧ (lookup watchable .user 1).acc ≠ .none ∧ (∃ t, exec .sweep watchable = .next t) ∧
    (∃ t, exec (.probe .user .read 0o1000 noCtx) watchable = .next t ∧ (lookup t .user 1).acc.vr = true) :=
  ⟨watchable_inv, by decide +kernel, ⟨_, rfl⟩, exists_of_runsTo (by decide +kernel)⟩

/-- W15: the one exception to an answer. -/
theorem witness_EveryCommandIsAnswered :
    exec (.probe .user .read 0o13000 noCtx) eight = .fault .indirectChainNeverEnds ∧
    illegalSection eight.cfg (decompose eight.cfg 0o13000) = false ∧
    resolve eight .user (decompose eight.cfg 0o13000) .read = .diverge ∧ NotCached eight .user .read 0o13000 :=
  ⟨fault_of_endless (by decide +kernel), by decide +kernel, by decide +kernel, Or.inr (by decide +kernel)⟩

/-! ## Witnesses: hits, the physical map, PROBE -/

theorem witness_XlateHit :
    watchable.halted = false ∧ illegalSection watchable.cfg (decompose watchable.cfg 0o1777) = false ∧
    (lookup watchable .user (decompose watchable.cfg 0o1777).vp).acc.vw = true ∧
    (lookup watchable .exec (decompose watchable.cfg 0o1000).vp).acc.vr = true := by decide +kernel

/-- The last word of memory and the first beyond (M4, M5). -/
theorem witness_PhysicalMap :
    State.reset.halted = false ∧ (0o77777 : VAddr).toNat % 2 ^ 22 < State.reset.cfg.physWords ∧
    State.reset.cfg.physWords ≤ (0o100000 : VAddr).toNat % 2 ^ 22 := by decide +kernel

/-- The modified-bit sequence of part 5. -/
theorem witness_SecondReference :
    Inv multi ∧ multi.halted = false ∧
    (∃ t, exec (.xlate (modeMap .user) .write 0o123 noCtx) multi = .next t ∧
      decide (Answers t .ok 0o000000020123 0) = true) ∧
    (decompose multi.cfg 0o777).vp = (decompose multi.cfg 0o123).vp :=
  ⟨multi_inv, rfl, exists_of_runsTo (by decide +kernel), by decide +kernel⟩

theorem witness_ProbeCompletes :
    (∃ t, exec (.probe .user .read 0o123 noCtx) multi = .next t ∧ decide (Answers t .ok 0o400000020123 0) = true) ∧
    (∃ t, exec (.probe .user .write 0o1000 noCtx) multi = .next t ∧
      decide (Answers t .softfail 0o304000001000 0) = true) :=
  ⟨exists_of_runsTo (by decide +kernel), exists_of_runsTo (by decide +kernel)⟩

theorem witness_XlateMiss :
    Inv multi ∧ NotCached multi .user .write 0o123 ∧
    ∃ u, exec (.probe .user .write 0o123 noCtx) multi = .next u ∧ decide (Answers u .ok 0o600000020123 0) = true :=
  ⟨multi_inv, Or.inr (by decide +kernel), exists_of_runsTo (by decide +kernel)⟩

/-! ## Witnesses: the walkers -/

/-- The last page there is and the first beyond (M2, M3). -/
theorem witness_PagingOff :
    Inv State.reset ∧ State.reset.pager.pge = false ∧
    illegalSection State.reset.cfg (decompose State.reset.cfg 0o77777) = false ∧
    (decompose State.reset.cfg 0o77777).vp < State.reset.cfg.physPages ∧
    abkMatch State.reset .exec (decompose State.reset.cfg 0o77777) .fetch false = false ∧
    State.reset.cfg.physPages ≤ (decompose State.reset.cfg 0o100000).vp :=
  ⟨Inv.of_data (by decide +kernel), by decide +kernel⟩

/-- I5, I4, I8, I7, I10: a clause each; the refused page is the first beyond memory, the granted the last in it, and
the missing table word the first beyond memory. -/
theorem witness_FlatItsWalk :
    Inv its ∧ its.halted = false ∧ its.pager.pge = true ∧ its.cfg.gen = .flatIts ∧
    (memRead its (0o4000 + 2 / 2) = some 0o000000600022 ∧ 0o000000600022 / 2 ^ 18 / 2 ^ 16 = 0) ∧
    (memRead its (0o4000 + 1 / 2) = some 0o200021400022 ∧ 0o200021400022 % 2 ^ 18 / 2 ^ 16 = 2) ∧
    (memRead its (0o4100 + 1 / 2) = some 0o600077600100 ∧ 0o600077600100 % 2 ^ 18 / 2 ^ 16 = 3 ∧
      its.cfg.physPages ≤ 0o600077600100 % 2 ^ 18 % 2 ^ 13) ∧
    (0o600077600100 / 2 ^ 18 / 2 ^ 16 = 3 ∧ 0o600077600100 / 2 ^ 18 % 2 ^ 13 < its.cfg.physPages ∧
      abkMatch its .user (decompose its.cfg 0o400005) .read false = false) ∧
    its.cfg.physWords ≤ its.pager.tb.execHigh.toNat + 0 / 2 :=
  ⟨its_inv, by decide +kernel⟩
theorem witness_FlatItsWalk_ends :
    answer (.probe .user .fetch 0o2000 noCtx) its = some (.softfail, 0o204000002000, 0) ∧
    answer (.probe .user .read 0o401005 noCtx) its = some (.softfail, 0o251000401005, 0) ∧
    answer (.probe .user .write 0o3456 noCtx) its = some (.ok, 0o600000022456, 0) ∧
    answer (.probe .exec .read 0o400000 noCtx) its = some (.softfail, 0o051000400000, 0) := by decide +kernel

/-- D5, D4, D6, D10; and the four rows of the address table at their ends. -/
theorem witness_FlatMidWalk :
    Inv mid ∧ mid.halted = false ∧ mid.pager.pge = true ∧ mid.cfg.gen = .flatMid ∧
    (memRead mid (0o3000 + 2 / 2) = some 0o100023500100 ∧ 0o100023500100 / 2 ^ 18 / 2 ^ 17 = 0) ∧
    (memRead mid (0o3000 + 1 / 2) = some 0o500021400022 ∧ 0o500021400022 % 2 ^ 18 / 2 ^ 17 = 1 ∧
      0o500021400022 % 2 ^ 18 / 2 ^ 15 % 2 = 0) ∧
    (0o100023500100 % 2 ^ 18 / 2 ^ 17 = 1 ∧ 0o100023500100 % 2 ^ 18 / 2 ^ 15 % 2 = 1 ∧
      mid.cfg.physPages ≤ 0o100023500100 % 2 ^ 18 % 2 ^ 13) ∧
    (memRead mid (0o2000 + 0o200 + (0o400 - 0o400) / 2) = some 0o500040400041 ∧ 0o500040400041 / 2 ^ 18 / 2 ^ 17 = 1 ∧
      0o500040400041 / 2 ^ 18 / 2 ^ 15 % 2 = 1 ∧ 0o500040400041 / 2 ^ 18 % 2 ^ 13 < mid.cfg.physPages ∧
      abkMatch mid .exec (decompose mid.cfg 0o400000) .write false = false) :=
  ⟨mid_inv, by decide +kernel⟩
theorem witness_FlatMidWalk_missing :
    let s := { mid with pager := { bases with ubp := 0o100, ubase := 0o100000 } }
    Inv s ∧ s.cfg.physWords ≤ s.pager.ubase.toNat + 0 / 2 :=
  ⟨Inv.of_data (by decide +kernel), by decide +kernel⟩
/-- The four rows of R148 at their first and last pages. -/
theorem witness_FlatMidWalk_addresses :
    midEntryAddress mid .user 0o777 = 0o3377 ∧ midEntryAddress mid .exec 0 = 0o2600 ∧
    midEntryAddress mid .exec 0o337 = 0o2757 ∧ midEntryAddress mid .exec 0o340 = 0o3400 ∧
    midEntryAddress mid .exec 0o377 = 0o3417 ∧ midEntryAddress mid .exec 0o400 = 0o2200 ∧
    midEntryAddress mid .exec 0o777 = 0o2377 := by decide +kernel

/-- W5's page pointer: indirect, then shared, to page 0o23. -/
theorem witness_PtrChain : PtrChain multi 0o350003000010 [0b1010, 0b0110] 0o23 1 :=
  .indirect _ 0o11 0o230000000012 [0b0110] 0o23 0 (by decide +kernel) (by decide +kernel) (by decide +kernel)
    (by decide +kernel) (.shared _ 0o23 (by decide +kernel) (by decide +kernel) (by decide +kernel))

/-- W19's section pointer; W7, W8, W10, W9, W11, W16's page pointers; and one that breaks after an indirect step. -/
theorem witness_PtrFails :
    PtrFails broken .sect 0 .mlSectNoAccess 0 ∧ PtrFails broken .page 0o074000000022 .mlPageNoAccess 0 ∧
    PtrFails broken .page 0o574000000022 .mlBadType 0 ∧ PtrFails broken .page 0o400000000000 .mlBadType 0 ∧
    PtrFails broken .page 0o174001000022 .mlNoncore 0 ∧ PtrFails broken .page 0o274000777000 .nxmSpt 0 ∧
    PtrFails broken .page 0o274000000015 .mlNoncore 0 ∧ PtrFails broken .page 0o374000000013 .nxmIndirect 1 ∧
    PtrFails multi .page 0o350000000010 .mlPageNoAccess 1 :=
  ⟨.sectNoAccess _ (by decide +kernel) rfl, .pageNoAccess _ (by decide +kernel) rfl, .badType _ (by decide +kernel),
    .badType _ (by decide +kernel), .immediateNoncore _ (by decide +kernel) (by decide +kernel),
    .noShared _ (by decide +kernel) (by decide +kernel),
    .sharedNoncore _ 0o000001000026 (by decide +kernel) (by decide +kernel) (by decide +kernel),
    .noNext _ 0o70000 (by decide +kernel) (by decide +kernel) (by decide +kernel) (by decide +kernel),
    .indirect _ 0o11 0 _ 0 (by decide +kernel) (by decide +kernel) (by decide +kernel) (by decide +kernel)
      (.pageNoAccess _ (by decide +kernel) rfl)⟩

/-- A section or page pointer that is immediate. -/
theorem immediateChain {s : State} {p : Word} {pn : Nat} (h : ptrType p = 1) (hm : ptrMedium p = 0) (hp : ptrPage p = pn) :
    PtrChain s p [ptrRights p] pn 0 := hp ▸ .immediate p h hm

/-- A pointer that names itself, in a memory of one page. -/
def looping : State :=
  { State.reset with
    cfg := { Config.default .multi with physPages := 1 }
    mem := [(0o13, 0o374013000014)] }
theorem witness_Exhausted :
    looping.cfg.physWords < 513 ∧ evalPtr looping .page 513 0o374013000014 0b1111 = .diverge := by decide +kernel

/-- What the witnesses of the MULTI walk share: page `va`'s two pointers. -/
abbrev WalkPremises (s : State) (m : Mode) (va : VAddr) (sp pp : Word) (pt : Nat) : Prop :=
  s.halted = false ∧ s.pager.pge = true ∧ s.cfg.gen = .multi ∧ illegalSection s.cfg (decompose s.cfg va) = false ∧
  memRead s ((if m = .user then s.pager.ubase.toNat else s.pager.ebase.toNat) + s.cfg.sectOff + (decompose s.cfg va).sect) =
    some sp ∧ memRead s (pt * 512 + (decompose s.cfg va).pg.toNat) = some pp

/-- W2 and W5 with the status table, W21's form without. -/
theorem witness_MultiWalk :
    Inv multi ∧ WalkPremises multi .user 0o2345 0o174000000007 0o350003000010 7 ∧
    PtrChain multi 0o174000000007 [ptrRights 0o174000000007] 7 0 ∧
    PtrChain multi 0o350003000010 [0b1010, 0b0110] 0o23 1 ∧
    (0 + 1 ≤ indirectAllowance multi.cfg ∧ 0o23 < multi.cfg.physPages ∧
      abkMatch multi .user (decompose multi.cfg 0o2345) .read false = false ∧ multi.pager.csb ≠ 0 ∧
      memRead multi (multi.pager.csb.toNat + 0o23) = some 0o010000000000 ∧ 0o010000000000 / 2 ^ 30 ≠ 0) :=
  ⟨multi_inv, by decide +kernel, immediateChain (by decide +kernel) (by decide +kernel) (by decide +kernel), witness_PtrChain,
    by decide +kernel⟩
theorem witness_MultiWalk_write :
    Inv plain ∧ WalkPremises plain .user 0o123 0o174000000007 0o174000000020 7 ∧
    PtrChain plain 0o174000000007 [ptrRights 0o174000000007] 7 0 ∧
    PtrChain plain 0o174000000020 [ptrRights 0o174000000020] 0o20 0 ∧
    ((allRights 0b1111 ([ptrRights 0o174000000007] ++ [ptrRights 0o174000000020])).getLsbD 2 = true ∧
      0 + 0 ≤ indirectAllowance plain.cfg ∧ 0o20 < plain.cfg.physPages ∧ plain.pager.csb = 0 ∧
      abkMatch plain .user (decompose plain.cfg 0o123) .write false = false) :=
  ⟨plain_inv, by decide +kernel, immediateChain (by decide +kernel) (by decide +kernel) (by decide +kernel),
    immediateChain (by decide +kernel) (by decide +kernel) (by decide +kernel), by decide +kernel⟩

/-- W18's form at the first word beyond memory; W19's section pointer; X2; and page 4's pointer, one clause each. -/
theorem witness_MultiFailures :
    ((noSections.halted = false ∧ noSections.pager.pge = true ∧ noSections.cfg.gen = .multi) ∧
      noSections.pager.ubase.toNat + noSections.cfg.sectOff + 0 = noSections.cfg.physWords ∧
      memRead noSections (noSections.pager.ubase.toNat + noSections.cfg.sectOff + 0) = none) ∧
    (memRead broken (broken.pager.ebase.toNat + broken.cfg.sectOff + 0) = some 0 ∧
      PtrFails broken .sect 0 .mlSectNoAccess 0 ∧ 0 ≤ indirectAllowance broken.cfg) ∧
    (illegalSection sections.cfg (decompose sections.cfg 0o1000123) = false ∧
      memRead sections (sections.pager.ubase.toNat + sections.cfg.sectOff + 1) = some 0o174000000300 ∧
      PtrChain sections 0o174000000300 [ptrRights 0o174000000300] 0o300 0 ∧ memRead sections (0o300 * 512 + 0) = none) ∧
    (WalkPremises broken .user 0o4000 0o174000000007 0o574000000022 7 ∧
      PtrChain broken 0o174000000007 [ptrRights 0o174000000007] 7 0 ∧
      PtrFails broken .page 0o574000000022 .mlBadType 0 ∧ 0 + 0 ≤ indirectAllowance broken.cfg) :=
  ⟨by decide +kernel, ⟨by decide +kernel, witness_PtrFails.1, by decide +kernel⟩,
    ⟨by decide +kernel, by decide +kernel, immediateChain (by decide +kernel) (by decide +kernel) (by decide +kernel),
      by decide +kernel⟩,
    ⟨by decide +kernel, immediateChain (by decide +kernel) (by decide +kernel) (by decide +kernel),
      witness_PtrFails.2.2.1, by decide +kernel⟩⟩
/-- W7 to W11, W16. -/
theorem witness_MultiFailures_pages :
    answer (.probe .user .fetch 0o3000 noCtx) broken = some (.softfail, 0o204000003000, 0) ∧
    answer (.probe .user .read 0o4000 noCtx) broken = some (.softfail, 0o250000004000, 0) ∧
    answer (.probe .user .read 0o6000 noCtx) broken = some (.softfail, 0o251000006000, 0) ∧
    answer (.probe .user .read 0o5000 noCtx) broken = some (.softfail, 0o250000005000, 0) ∧
    answer (.probe .user .read 0o14000 noCtx) broken = some (.softfail, 0o250000014000, 0) ∧
    answer (.probe .user .read 0o11000 noCtx) broken = some (.softfail, 0o251000011000, 0) := by decide +kernel
/-- The causes of W9, W16, W18, X2: no number in the fault word tells them apart. -/
theorem witness_MultiFailures_causes :
    (after (.probe .user .read 0o6000 noCtx) broken).fd.cause = .nxmSpt ∧
    (after (.probe .user .read 0o11000 noCtx) broken).fd.cause = .nxmIndirect ∧
    (after (.probe .user .read 0 noCtx) noSections).fd.cause = .nxmSectPtr ∧
    (after (.probe .user .read 0o1000123 noCtx) sections).fd.cause = .nxmPagePtr := by decide +kernel

/-- W12, W13, W4. -/
theorem witness_MultiFailures_final :
    (WalkPremises multi .user 0o7000 0o174000000007 0o174000000100 7 ∧
      PtrChain multi 0o174000000100 [ptrRights 0o174000000100] 0o100 0 ∧ multi.cfg.physPages ≤ 0o100) ∧
    (WalkPremises multi .user 0o10000 0o174000000007 0o174000000024 7 ∧
      PtrChain multi 0o174000000024 [ptrRights 0o174000000024] 0o24 0 ∧
      (0o24 < multi.cfg.physPages ∧ multi.pager.csb ≠ 0 ∧ memRead multi (multi.pager.csb.toNat + 0o24) = some 0 ∧
        (0 : Word).toNat / 2 ^ 30 = 0)) ∧
    (WalkPremises multi .user 0o1000 0o174000000007 0o154000000021 7 ∧
      PtrChain multi 0o154000000021 [ptrRights 0o154000000021] 0o21 0 ∧
      ((allRights 0b1111 ([ptrRights 0o174000000007] ++ [ptrRights 0o154000000021])).getLsbD 2 = false ∧
        memRead multi (multi.pager.csb.toNat + 0o21) = some 0o010000000000)) :=
  ⟨⟨by decide +kernel, immediateChain (by decide +kernel) (by decide +kernel) (by decide +kernel), by decide +kernel⟩,
    ⟨by decide +kernel, immediateChain (by decide +kernel) (by decide +kernel) (by decide +kernel), by decide +kernel⟩,
    ⟨by decide +kernel, immediateChain (by decide +kernel) (by decide +kernel) (by decide +kernel), by decide +kernel⟩⟩
/-- W17: the record is the first word beyond memory. -/
theorem witness_MultiFailures_final_record :
    let s := { multi with pager := { multi.pager with csb := 0o77760 } }
    WalkPremises s .user 0o123 0o174000000007 0o174000000020 7 ∧
    PtrChain s 0o174000000020 [ptrRights 0o174000000020] 0o20 0 ∧
    (0o20 < s.cfg.physPages ∧ s.pager.csb ≠ 0 ∧ s.cfg.physWords ≤ s.pager.csb.toNat + 0o20) :=
  ⟨by decide +kernel, immediateChain (by decide +kernel) (by decide +kernel) (by decide +kernel), by decide +kernel⟩
theorem witness_MultiWalk_ends :
    answer (.probe .user .read 0o7000 noCtx) multi = some (.softfail, 0o251000007000, 0) ∧
    answer (.probe .user .read 0o10000 noCtx) multi = some (.softfail, 0o254000010000, 0) ∧
    answer (.probe .user .write 0o123 noCtx) multi = some (.ok, 0o600000020123, 0) ∧
    answer (.probe .user .read 0o0 noCtx) { multi with pager := { multi.pager with csb := 0o77760 } } =
      some (.softfail, 0o251000000000, 0) := by decide +kernel

/-- X4: section 32 of 32. -/
theorem witness_IllegalSection :
    extended.halted = false ∧ extended.cfg.ext = true ∧ extended.cfg.nsect ≤ (0o40000000 : VAddr).toNat / 2 ^ 18 := by
  decide +kernel

/-- B5: the watched word written; B4: the next word, which does not match. -/
theorem witness_MatchingReference :
    armed.halted = false ∧ illegalSection armed.cfg (decompose armed.cfg 0o1234) = false ∧
    resolve armed .user (decompose armed.cfg 0o1234) .write = .ok 0o21 true none ∧ armed.cfg.hasAbk = true ∧
    armed.abk.active = true ∧ (decompose armed.cfg 0o1234).vp = armed.abk.page ∧
    (decompose armed.cfg 0o1234).va = armed.abk.addr ∧ armed.abk.cond.getLsbD 1 = true ∧
    armed.abk.cond.getLsbD 0 = false ∧
    resolve armed .user (decompose armed.cfg 0o1235) .write = .ok 0o21 true none ∧
    (decompose armed.cfg 0o1235).va ≠ armed.abk.addr ∧ armed.cfg.abkGranule = .word := by decide +kernel
/-- A watch on every kind, of the user map alone. -/
def userWatch : State := after (.armAbk 0b1111 0o1234) watchable
theorem witness_MatchingReference_kinds :
    userWatch.abk.active = true ∧ userWatch.abk.cond.getLsbD 3 = true ∧ userWatch.abk.cond.getLsbD 2 = true ∧
    userWatch.abk.cond.getLsbD 0 = true ∧
    resolve userWatch .user (decompose userWatch.cfg 0o1234) .fetch = .ok 0o21 true none := by decide +kernel
/-- B11 and B15 match. -/
theorem test_break_matches :
    answer (.probe .user .fetch 0o1234 noCtx) userWatch = some (.softfail, 0o220000001234, 0) ∧
    answer (.probe .user .write 0o1777 noCtx) { armed with cfg := { armed.cfg with abkGranule := .page } } =
      some (.softfail, 0o320000001777, 0) := by decide +kernel
/-- Another word, kind, page, map, a non-interruptible sequence, and no watch do not (B4, B2, B11, B7). -/
theorem test_break_does_not_match :
    answer (.probe .user .write 0o1235 noCtx) armed = some (.ok, 0o600000021235, 0) ∧
    answer (.probe .user .read 0o1234 noCtx) armed = some (.ok, 0o600000021234, 0) ∧
    answer (.probe .user .write 0o234 noCtx) armed = some (.ok, 0o600000020234, 0) ∧
    answer (.probe .exec .read 0o1234 noCtx) userWatch = some (.ok, 0o600000031234, 0) ∧
    answer (.probe .user .write 0o1234 ⟨0, 0, .none, true⟩) armed = some (.ok, 0o600000021234, 0) ∧
    answer (.probe .user .write 0o1234 noCtx) watchable = some (.ok, 0o600000021234, 0) := by decide +kernel

/-! ## Witnesses: faults and the trap sequence -/

/-- T1 (a page without a pointer), EXT false. -/
theorem witness_TrapSaves :
    Inv watchable ∧ watchable.halted = false ∧
    (∃ u, FailingReference watchable .user .read 0o2000 noCtx u 0o244000002000 ∧ decide (u.fd.tag ≠ .abk) = true) ∧
    effectiveSeq watchable.cfg .none ≠ .intDelivery ∧ TrapAreaExists watchable ∧ watchable.cfg.ext = false :=
  ⟨watchable_inv, rfl, exists_failing (by decide +kernel) (Or.inr (by decide +kernel)), by decide +kernel,
    by unfold TrapAreaExists; decide +kernel, rfl⟩
/-- T12, EXT true. -/
theorem witness_TrapSaves_extended :
    Inv extended ∧ extended.halted = false ∧
    (∃ u, FailingReference extended .user .fetch 0o40001000 noCtx u 0o212040001000 ∧ decide (u.fd.tag ≠ .abk) = true) ∧
    effectiveSeq extended.cfg .singleStep ≠ .intDelivery ∧ TrapAreaExists extended ∧ extended.cfg.ext = true :=
  ⟨extended_inv, rfl, exists_failing (by decide +kernel) (Or.inl (by decide +kernel)), by decide +kernel,
    by unfold TrapAreaExists; decide +kernel, rfl⟩
/-- B5: a break within the limit. -/
theorem witness_TrapSaves_break :
    Inv armed ∧ (∃ u, FailingReference armed .user .write 0o1234 noCtx u 0o320000001234 ∧
      decide (u.fd.tag = .abk ∧ armed.cfg.abkHitLimit = none) = true) ∧ TrapAreaExists armed :=
  ⟨armed_inv, exists_failing (by decide +kernel) (Or.inr (by decide +kernel)), by unfold TrapAreaExists; decide +kernel⟩

/-- T4's events: the request first. -/
theorem witness_UndoHook :
    (∃ t, exec (.xlate .user .read 0o2000 ⟨0o700, 1, .indirectFetch, false⟩) watchable = .next t ∧
      decide (t.events = [.undoReq .indirectFetch 0o700 1, .memWrite 0o3500 0o244000002000, .memWrite 0o3501 0o000040000700])
        = true) ∧
    (∃ t, exec (.xlate .user .read 0o1000 ⟨0, 0, .trapInsn, false⟩) watchable = .next t ∧
      decide (Answers t .ok 0o21000 0) = true) ∧
    (∃ t, exec .sweep watchable = .next t ∧ watchable.halted = false) :=
  ⟨exists_of_runsTo (by decide +kernel), exists_of_runsTo (by decide +kernel), ⟨_, rfl, rfl⟩⟩

/-- T5, T6: both policies. -/
theorem witness_FaultInsideInterruptDelivery :
    (∃ u, FailingReference watchable .user .read 0o2000 ⟨0o700, 1, .intDelivery, false⟩ u 0o244000002000 ∧
      decide (watchable.cfg.intFault = .statusResume) = true) ∧
    (∃ u, FailingReference mid .user .write 0o1123 ⟨0o700, 1, .intDelivery, false⟩ u 0o304000001123 ∧
      decide (mid.cfg.intFault = .fatal) = true) :=
  ⟨exists_failing (by decide +kernel) (Or.inr (by decide +kernel)),
    exists_failing (by decide +kernel) (Or.inr (by decide +kernel))⟩
/-- A break: not counted. -/
theorem witness_BreakInsideInterruptDelivery :
    (∃ u, FailingReference armed .user .write 0o1234 ⟨0o500, 0o17, .intDelivery, false⟩ u 0o320000001234 ∧
      decide (u.fd.tag = .abk) = true) ∧
    answer (.xlate .user .write 0o1234 ⟨0o500, 0o17, .intDelivery, false⟩) armed = some (.intresume, 0o320000001234, 0) ∧
    (after (.xlate .user .write 0o1234 ⟨0o500, 0o17, .intDelivery, false⟩) armed).abkHits = 0 :=
  ⟨exists_failing (by decide +kernel) (Or.inr (by decide +kernel)), by decide +kernel⟩

/-- The fault word's place beyond memory (T10); and only the old pair's, the last word of memory taking the fault
word. -/
theorem witness_MissingTrapLocation :
    let s := { watchable with pager := { bases with ubp := 0o17777, ubase := 0o17777000 } }
    Inv s ∧ (∃ u, FailingReference s .user .read 0o2000 noCtx u 0o251000002000 ∧ decide (u.fd.tag ≠ .abk) = true) ∧
    ¬ TrapAreaExists s ∧ s.cfg.physWords ≤ trapTableBase s + s.cfg.pfwOff :=
  ⟨Inv.of_data (by decide +kernel), exists_failing (by decide +kernel) (Or.inr (by decide +kernel)),
    by unfold TrapAreaExists; decide +kernel, by decide +kernel⟩
theorem witness_MissingTrapLocation_old :
    let s := { watchable with cfg := { watchable.cfg with pfwOff := 0o74777, oldOff := 0o75000 } }
    Inv s ∧ (∃ u, FailingReference s .user .read 0o2000 noCtx u 0o244000002000 ∧ decide (u.fd.tag ≠ .abk) = true) ∧
    ¬ TrapAreaExists s ∧ trapTableBase s + s.cfg.pfwOff + 1 = s.cfg.physWords :=
  ⟨Inv.of_data (by decide +kernel), exists_failing (by decide +kernel) (Or.inr (by decide +kernel)),
    by unfold TrapAreaExists; decide +kernel, by decide +kernel⟩

/-- B16 with the limit 0: the first break exceeds it. -/
theorem witness_TooManyBreaks :
    limited.halted = false ∧
    (∃ u, FailingReference limited .user .write 0o1234 noCtx u 0o320000001234 ∧ decide (u.fd.tag = .abk) = true) ∧
    effectiveSeq limited.cfg .none ≠ .intDelivery ∧ limited.cfg.abkHitLimit = some 0 ∧ 0 < limited.abkHits + 1 :=
  ⟨by decide +kernel, exists_failing (by decide +kernel) (Or.inr (by decide +kernel)), by decide +kernel, by decide +kernel,
    by decide +kernel⟩

theorem witness_FailedXlate :
    Memory.wf watchable.mem ∧ watchable.halted = false ∧
    ∃ t, exec (.xlate .user .read 0o2000 noCtx) watchable = .next t ∧ decide (Answers t .trap 0o1000 4) = true :=
  ⟨by decide +kernel, rfl, exists_of_runsTo (by decide +kernel)⟩

/-! ## Witnesses: maintenance, accumulators, the address break, diagnostics -/

/-- Every statement whose one premise is that the PU runs: INVAL_ALL, WR_EBR, RD_EBR, WR_UBR, RD_UBR, SEL_ACB, SWEEP,
MEMDIAG, RD_STS, CLR_STS; and MEMDIAG with no reply configured (the configured one: test_memdiag_configured). -/
theorem witness_running : State.reset.halted = false ∧ State.reset.cfg.memdiag = [] := ⟨rfl, rfl⟩

/-- The last legal section and the first illegal one. -/
theorem witness_InvalOne :
    (∀ m, sparseWf Entry.invalid (tlbOf extended m)) ∧ extended.halted = false ∧
    illegalSection extended.cfg (decompose extended.cfg 0o37777777) = false ∧
    illegalSection extended.cfg (decompose extended.cfg 0o40000000) = true :=
  ⟨extended_inv.tlbCanonical, by decide +kernel⟩

theorem witness_RdUbrBack :
    mid.halted = false ∧ (∃ t, exec .rdUbr mid = .next t ∧ decide (Answers t .ok 0o500000000003 0) = true) ∧
    (cmd 0o070000000000 0o500000000003).cmd = 0o070000000000 ∧
    (cmd 0o070000000000 0o500000000003).data = 0o500000000003 :=
  ⟨rfl, exists_of_runsTo (by decide +kernel), by decide +kernel, by decide +kernel⟩

/-- WR_TB and RD_TB: every register of each generation that has some, and its neighbours outside. -/
theorem witness_TableRegister :
    (its.halted = false ∧ multi.halted = false) ∧
    ((∀ idx ∈ [(0 : BitVec 4), 1, 2, 3], LegalTableIndex its.cfg idx) ∧ ¬ LegalTableIndex its.cfg 4) ∧
    ((∀ idx ∈ [(4 : BitVec 4), 5, 6, 7], LegalTableIndex multi.cfg idx) ∧ ¬ LegalTableIndex multi.cfg 3 ∧
      ¬ LegalTableIndex multi.cfg 8) := by
  simp only [LegalTableIndex]
  decide +kernel

/-- ACRD and ACWR: PAB equal to CAB, and not. -/
theorem witness_Accumulator :
    State.reset.halted = false ∧ State.reset.acs.plive = (State.reset.acs.pab == State.reset.acs.cab) ∧
    (let s := after (.selAcb 7 0) State.reset; s.halted = false ∧ s.acs.plive = (s.acs.pab == s.acs.cab)) := by
  decide +kernel

/-- ARM_ABK with a mask of U alone, with a word to watch, (EXT true) with an illegal section, over a prior watch, and
without an address break. -/
theorem witness_ArmAbk :
    (watchable.halted = false ∧ watchable.cfg.hasAbk = true ∧ watchable.abk.active = false ∧ armed.abk.active = true) ∧
    (∀ m, sparseWf Entry.invalid (tlbOf watchable m)) ∧ (∀ m, sparseWf Entry.invalid (tlbOf armed m)) ∧
    (condNonEmpty 0b0001 = false ∧ condNonEmpty 0b0011 = true ∧ condNonEmpty 0b1000 = true ∧
      illegalSection watchable.cfg (decompose watchable.cfg 0o1234) = false ∧
      illegalSection extended.cfg (decompose extended.cfg 0o40000000) = true) ∧ mid.cfg.hasAbk = false :=
  ⟨by decide +kernel, watchable_inv.tlbCanonical, armed_inv.tlbCanonical, by decide +kernel, rfl⟩

theorem witness_DisarmAbk :
    (armed.halted = false ∧ armed.cfg.hasAbk = true ∧ armed.abk.active = true ∧
      (lookup armed .user armed.abk.page).ppn = 0o21) ∧
    (∀ m, sparseWf Entry.invalid (tlbOf armed m)) ∧ mid.cfg.hasAbk = false :=
  ⟨by decide +kernel, armed_inv.tlbCanonical, rfl⟩

theorem witness_DisarmAfterArm :
    Inv watchable ∧ watchable.halted = false ∧ watchable.cfg.hasAbk = true ∧ watchable.abk.active = false ∧
    ∃ t, exec (.armAbk 0b0010 0o1234) watchable = .next t ∧ t.abk.active = true :=
  ⟨watchable_inv, rfl, rfl, rfl, exists_of_runsTo (by decide +kernel)⟩

theorem witness_ArmingTwice :
    Inv armed ∧ armed.halted = false ∧ armed.cfg.hasAbk = true ∧
    ∃ t, exec (.armAbk 0b1111 0o1234) armed = .next t ∧ t.abk.active = true :=
  ⟨armed_inv, by decide +kernel, by decide +kernel, exists_of_runsTo (by decide +kernel)⟩

end Sys2Proof.Tests
end

/-! # Scope: a step runs one command, and every command is answered (spec 00_scope.md R15) -/

namespace Sys2Proof.Machine

open Sys2Proof

/-! ## The step -/

theorem step_command {s : State} {c : Command} {rest : List Input} {i : Instr} (hp : s.port = .command c :: rest)
    (hd : decode c = .ok i) : step s = exec i { s with port := rest } := by
  simp [step, hp, hd]

theorem step_of_empty_port {s : State} (hp : s.port = []) : step s = .next s := by
  simp [step, hp]

theorem decodeTableWord_eq_some {nbits w : Nat} {i : Instr} :
    decodeTableWord nbits w = some i ↔ decode (Command.ofTableWord nbits w) = .ok i := by
  unfold decodeTableWord
  cases decode (Command.ofTableWord nbits w) <;> simp

/-- The command `withFetchWord` presents is the one taken, so the state it was presented to is the one it acts on. -/
theorem step_withFetchWord {s : State} {nbits w : Nat} {i : Instr} (hd : decodeTableWord nbits w = some i) :
    step (s.withFetchWord nbits w) = exec i s :=
  step_command rfl (decodeTableWord_eq_some.1 hd)

/-- Settles O4: a command on the port, a table word presented, and the empty port. -/
theorem stepRunsTheDecodedInstruction : Obligations.StepRunsTheDecodedInstruction :=
  ⟨fun _ _ _ _ => step_command, fun _ _ _ _ => step_withFetchWord, fun _ => step_of_empty_port⟩

/-! ## Answers -/

/-- The result is a next state with a response. -/
def Answered (r : Result) : Prop := ∃ t, r = .next t ∧ t.resp ≠ none

theorem answered_next {t : State} (h : t.resp ≠ none) : Answered (.next t) := ⟨t, rfl, h⟩

theorem answered_respond (st : Status) (r0 r1 : Word) (s : State) : Answered (.next (respond st r0 r1 s)) :=
  answered_next (by simp)

theorem trap_resp_ne_none (fw : Word) (ctx : Ctx) (s : State) : (trap fw ctx s).resp ≠ none := by
  obtain ⟨-, -, -, -, -, -, -, answer, -⟩ := trap_spec fw ctx s
  obtain ⟨code, -, -, -, hr⟩ | ⟨-, -, st, r0, r1, hr, -⟩ := answer
  · simp [hr]
  · simp [hr]

/-- A declared fault answers SOFTFAIL, or what the trap sequence answers (R262). -/
theorem declareFault_resp_ne_none (addr : VAddr) (k : Kind) (m : MapSel) (c : Cause) (ctx : Ctx) (trapAllowed : Bool)
    (s : State) : (declareFault addr k m c ctx trapAllowed s).resp ≠ none := by
  cases trapAllowed with
  | true => rw [declareFault_true]; exact trap_resp_ne_none _ _ _
  | false => rw [declareFault_false]; simp

/-- The prologue answers by itself, or leaves the answer to a running PU's effect (R129). -/
theorem runCommand_answered_or_effect (legal : Bool) (f : State → Result) (s : State) :
    Answered (runCommand legal f s) ∨ (s.halted = false ∧ runCommand legal f s = f (beginCommand s)) := by
  obtain ⟨-, h⟩ | ⟨-, -, h⟩ | ⟨-, hs, h⟩ := runCommand_cases (legal := legal) (f := f) (s := s) rfl
  · exact .inl (h ▸ answered_respond _ _ _ _)
  · exact .inl (h ▸ answered_respond _ _ _ _)
  · exact .inr ⟨hs, h⟩

/-! ## The commands that are no reference -/

/-- Every command but XLATE, PROBE and RESET goes through the prologue to an effect that answers OK. -/
theorem exec_eq_runCommand_ok {i : Instr} (hx : ∀ m k va ctx, i ≠ .xlate m k va ctx)
    (hp : ∀ m k va ctx, i ≠ .probe m k va ctx) (hr : i ≠ .reset) (s : State) :
    ∃ f : State → Result, exec i s = runCommand (legalHere s.cfg i) f s ∧
      ∀ u, ∃ r0 t, f u = .next (respond .ok r0 0 t) := by
  cases i with
  | xlate m k va ctx => exact absurd rfl (hx m k va ctx)
  | probe m k va ctx => exact absurd rfl (hp m k va ctx)
  | reset => exact absurd rfl hr
  | _ => exact ⟨_, rfl, fun _ => ⟨_, _, rfl⟩⟩

theorem exec_answered_of_not_reference {i : Instr} (hx : ∀ m k va ctx, i ≠ .xlate m k va ctx)
    (hp : ∀ m k va ctx, i ≠ .probe m k va ctx) (s : State) : Answered (exec i s) := by
  by_cases hr : i = .reset
  · subst hr
    exact answered_respond _ _ _ _
  · obtain ⟨f, he, hok⟩ := exec_eq_runCommand_ok hx hp hr s
    rw [he]
    obtain h | ⟨-, h⟩ := runCommand_answered_or_effect (legalHere s.cfg i) f s
    · exact h
    · obtain ⟨r0, t, ht⟩ := hok (beginCommand s)
      rw [h, ht]
      exact answered_respond _ _ _ _

/-! ## The references -/

/-- The walk of a reference to map `m` never ends: a legal section, a diverging resolve phase and, for XLATE, no hit
(R122, R163). -/
def WalkHangs (isProbe : Bool) (m : MapSel) (k : Kind) (va : VAddr) (s : State) : Prop :=
  ∃ m' : Mode, m = modeMap m' ∧ illegalSection s.cfg (decompose s.cfg va) = false ∧
    resolve s m' (decompose s.cfg va) k = .diverge ∧
    (isProbe = false → hit (lookup s m' (decompose s.cfg va).vp) k = false)

/-- The event list, which starts afresh, has no part in the walk. -/
theorem walkHangs_beginCommand {isProbe : Bool} {m : MapSel} {k : Kind} {va : VAddr} {s : State} :
    WalkHangs isProbe m k va (beginCommand s) ↔ WalkHangs isProbe m k va s := by
  simp [WalkHangs]

theorem ReferenceEnd.answered_or_hangs {isProbe : Bool} {m : MapSel} {k : Kind} {va : VAddr} {ctx : Ctx} {s : State}
    {r : Result} (h : ReferenceEnd isProbe m k va ctx s r) :
    Answered r ∨ (r = .fault .indirectChainNeverEnds ∧ WalkHangs isProbe m k va s) := by
  cases h with
  | answered r0 => exact .inl (answered_respond _ _ _ _)
  | faulted addr c => exact .inl (answered_next (declareFault_resp_ne_none _ _ _ _ _ _ _))
  | installed => exact .inl (answered_respond _ _ _ _)
  | endless m' hm hsec hres hhit => exact .inr ⟨rfl, m', hm, hsec, hres, hhit⟩

/-- A command whose effect is a reference is answered, unless the PU runs and the walk hangs. -/
theorem runCommand_reference {isProbe : Bool} {m : MapSel} {k : Kind} {va : VAddr} {ctx : Ctx} {f : State → Result}
    (hf : ∀ u, ReferenceEnd isProbe m k va ctx u (f u)) (s : State) :
    Answered (runCommand true f s) ∨
      (runCommand true f s = .fault .indirectChainNeverEnds ∧ s.halted = false ∧ WalkHangs isProbe m k va s) := by
  obtain h | ⟨hs, h⟩ := runCommand_answered_or_effect true f s
  · exact .inl h
  · rw [h]
    obtain ha | ⟨hr, hw⟩ := (hf (beginCommand s)).answered_or_hangs
    · exact .inl ha
    · exact .inr ⟨hr, hs, walkHangs_beginCommand.1 hw⟩

theorem exec_xlate_answered_or_hangs (m : MapSel) (k : Kind) (va : VAddr) (ctx : Ctx) (s : State) :
    Answered (exec (.xlate m k va ctx) s) ∨
      (exec (.xlate m k va ctx) s = .fault .indirectChainNeverEnds ∧ s.halted = false ∧ WalkHangs false m k va s) :=
  runCommand_reference (xlateEffect_ends m k va ctx) s

theorem exec_probe_answered_or_hangs (m : MapSel) (k : Kind) (va : VAddr) (ctx : Ctx) (s : State) :
    Answered (exec (.probe m k va ctx) s) ∨
      (exec (.probe m k va ctx) s = .fault .indirectChainNeverEnds ∧ s.halted = false ∧ WalkHangs true m k va s) :=
  runCommand_reference (probeEffect_ends m k va ctx) s

theorem notCached_of_miss {s : State} {m : Mode} {k : Kind} {va : VAddr}
    (h : hit (lookup s m (decompose s.cfg va).vp) k = false) : NotCached s (modeMap m) k va := by
  cases m <;> exact .inr h

/-- Settles O9, by cases on the instruction: only the two references walk, and only a paged MULTI walk can diverge. -/
theorem everyCommandIsAnsweredUnlessTheWalkHangs : Obligations.EveryCommandIsAnsweredUnlessTheWalkHangs := by
  intro i s
  by_cases hx : ∃ m k va ctx, i = .xlate m k va ctx
  · obtain ⟨m, k, va, ctx, rfl⟩ := hx
    obtain h | ⟨hf, hs, m', rfl, hsec, hres, hmiss⟩ := exec_xlate_answered_or_hangs m k va ctx s
    · exact .inl h
    · obtain ⟨hpge, hgen⟩ := resolve_eq_diverge hres
      exact .inr ⟨hf, hgen, hpge, hs, m', k, va, ctx, hsec, hres, .inl ⟨rfl, notCached_of_miss (hmiss rfl)⟩⟩
  by_cases hp : ∃ m k va ctx, i = .probe m k va ctx
  · obtain ⟨m, k, va, ctx, rfl⟩ := hp
    obtain h | ⟨hf, hs, m', rfl, hsec, hres, -⟩ := exec_probe_answered_or_hangs m k va ctx s
    · exact .inl h
    · obtain ⟨hpge, hgen⟩ := resolve_eq_diverge hres
      exact .inr ⟨hf, hgen, hpge, hs, m', k, va, ctx, hsec, hres, .inr rfl⟩
  · push Not at hx hp
    exact .inl (exec_answered_of_not_reference hx hp s)

end Sys2Proof.Machine

/-! # State: the invariant and the halt (spec 10_state.md R20 to R48) -/

namespace Sys2Proof.Machine

open Sys2Proof

/-! ## No walk reports the cause of the address break -/

theorem inRange_ne_fail_abk {cfg : Config} {ppn : Nat} {r : Resolved} (hr : r ≠ .fail .abk) :
    inRange cfg ppn r ≠ .fail .abk := by
  unfold inRange
  split
  · simp
  · exact hr

theorem resolveIts_ne_fail_abk (s : State) (m : Mode) (pg : BitVec 9) (k : Kind) :
    resolveIts s m pg k ≠ .fail .abk := by
  unfold resolveIts
  split
  · simp
  · simp only [itsEntry]
    split_ifs
    · simp
    · simp
    · exact inRange_ne_fail_abk (by simp)

theorem resolveMid_ne_fail_abk (s : State) (m : Mode) (pg : BitVec 9) (k : Kind) :
    resolveMid s m pg k ≠ .fail .abk := by
  unfold resolveMid
  split
  · simp
  · simp only [midEntry]
    split_ifs
    · simp
    · simp
    · exact inRange_ne_fail_abk (by simp)

theorem evalPtr_ne_fail_abk (s : State) (level : Level) (left : Nat) (ptr : Word) (rts : BitVec 4) :
    evalPtr s level left ptr rts ≠ .fail .abk := by
  induction left generalizing ptr rts with
  | zero =>
    rw [evalPtr_eq]
    cases hp : ptrStep s level ptr rts with
    | fail c => rintro ⟨⟩; nomatch ptrStep_fail.1 hp
    | page pn rts' => simp
    | follow a rts' => simp
  | succ left ih =>
    rw [evalPtr_eq]
    cases hp : ptrStep s level ptr rts with
    | fail c => rintro ⟨⟩; nomatch ptrStep_fail.1 hp
    | page pn rts' => simp
    | follow a rts' =>
      cases hn : memRead s a with
      | none => simp [hn]
      | some next => simpa [hn] using ih next rts'

theorem resolveFinal_ne_fail_abk (s : State) (ppn : Nat) (rts : BitVec 4) (k : Kind) :
    resolveFinal s ppn rts k ≠ .fail .abk := by
  apply inRange_ne_fail_abk
  split_ifs
  · simp
  · simp
  · split
    · simp
    · simp only [checkStatus]; split_ifs <;> simp

theorem resolveMulti_ne_fail_abk (s : State) (m : Mode) (sect : Nat) (pg : BitVec 9) (k : Kind) :
    resolveMulti s m sect pg k ≠ .fail .abk := by
  unfold resolveMulti
  split
  · simp
  · split
    · rename_i he; rintro ⟨⟩; exact evalPtr_ne_fail_abk _ _ _ _ _ he
    · simp
    · unfold resolvePagePointer
      split
      · simp
      · split
        · rename_i he; rintro ⟨⟩; exact evalPtr_ne_fail_abk _ _ _ _ _ he
        · simp
        · exact resolveFinal_ne_fail_abk _ _ _ _

/-- The address break is the comparator's to declare, never a resolve phase's (R142, R221). -/
theorem resolve_ne_fail_abk (s : State) (m : Mode) (p : VParts) (k : Kind) : resolve s m p k ≠ .fail .abk := by
  unfold resolve
  split
  · exact inRange_ne_fail_abk (by simp)
  · split
    · exact resolveIts_ne_fail_abk _ _ _ _
    · exact resolveMid_ne_fail_abk _ _ _ _
    · exact resolveMulti_ne_fail_abk _ _ _ _ _

theorem active_of_abkMatch {s : State} {m : Mode} {p : VParts} {k : Kind} {nonint : Bool}
    (h : abkMatch s m p k nonint = true) : s.abk.active = true := by
  simp only [abkMatch, Bool.and_eq_true] at h
  obtain ⟨⟨⟨⟨⟨⟨-, hactive⟩, -⟩, -⟩, -⟩, -⟩, -⟩ := h
  exact hactive

theorem describeFault_tag_eq_abk {addr : VAddr} {k : Kind} {m : MapSel} {c : Cause} :
    (describeFault addr k m c).tag = .abk ↔ c = .abk := by
  cases c <;> simp [describeFault, classify]

/-! ## Taking a fault keeps the invariant -/

/-- The trap sequence ends outside itself, halted with a code or as before, and counts a break only where a watch is
armed (R226, R264, R280). -/
theorem Inv.trap {s : State} (h : Inv s) (hbreak : s.fd.tag = .abk → s.abk.active = true) (fw : Word) (ctx : Ctx) :
    Inv (trap fw ctx s) := by
  obtain ⟨-, -, ⟨mem, es, rfl, -, wf, -, inside⟩, -, hmem, htrap, -, halt, -, hits⟩ := trap_spec fw ctx s
  have hits0 : s.abk.active = false → (Machine.trap fw ctx s).abkHits = 0 := by
    intro ha
    rcases hits with hh | htag
    · rw [hh]; exact (h.abkIdle ha).2
    · simp [hbreak htag] at ha
  have hcode : (Machine.trap fw ctx s).halted = true ↔ (Machine.trap fw ctx s).fatalCode ≠ .none := by
    obtain ⟨code, hne, hhalt, hc, -⟩ | ⟨hhalt, hc, -⟩ := halt
    · simp [hhalt, hc, hne]
    · rw [hhalt, hc]; exact h.haltCode
  have hwrites : Inv { s with mem := mem, events := s.events ++ es } :=
    h.withMem (wf h.memCanonical) (inside h.memCanonical h.memInside) _
  exact ((hwrites.withHits hits0).withHalt hcode).congr (by simp) hmem (by simp) (by simp) (by simp) (by simp)
    rfl rfl rfl htrap

theorem Inv.declareFault {s : State} (h : Inv s) {c : Cause} (hbreak : c = .abk → s.abk.active = true) (addr : VAddr)
    (k : Kind) (m : MapSel) (ctx : Ctx) (trapAllowed : Bool) : Inv (declareFault addr k m c ctx trapAllowed s) := by
  have hrec := h.recordFault (describeFault addr k m c)
  cases trapAllowed with
  | true =>
    rw [declareFault_true]
    exact hrec.trap (by simpa [describeFault_tag_eq_abk] using hbreak) _ ctx
  | false =>
    rw [declareFault_false]
    exact hrec.respond _ _ _

/-! ## RESET -/

/-- Nothing cached, no watch: the clauses on the caches and the break. -/
theorem cacheOk_of_empty {cfg : Config} (h : cfg.wf) {look : Mode → Nat → Entry}
    (hlook : ∀ m vp, look m vp = Entry.invalid) : CacheOk cfg look Abk.idle 0 := by
  constructor
  case pages => exact fun m vp hne => absurd (hlook m vp) hne
  case entries => intro m vp; rw [hlook]; exact entryOk_invalid h
  case present => nofun
  case idle => exact fun _ => ⟨rfl, rfl⟩
  case watch => nofun
  case saved => intro m; cases m <;> nofun
  case untouched => intro m _; cases m <;> rfl
  case true' => nofun

theorem pagerOk_reset (cfg : Config) : PagerOk cfg Pager.reset :=
  ⟨rfl, rfl, fun _ => rfl, fun _ => ⟨rfl, rfl, rfl, rfl⟩⟩

/-- The "global pager reset" of R301. -/
theorem Inv.pagerReset {s : State} (h : Inv s) : Inv (pagerReset s) := by
  have hregs := ((h.select 0 0).withPager (pagerOk_reset _)).withHalt (b := false) (c := .none) (by simp)
  refine hregs.withCache rfl rfl rfl rfl rfl rfl rfl ?_ ?_
  · intro m; cases m <;> exact sparseWf_nil _
  · exact cacheOk_of_empty h.config (lookup_nil rfl)

/-! ## The commands that are no reference -/

/-- What the effect `g` of a command that is no reference keeps: the halt, the configuration and, where the command
exists, the invariant. -/
structure PlainEffect (i : Instr) (g : State → State) : Prop where
  halted : ∀ u, (g u).halted = u.halted
  cfg : ∀ u, (g u).cfg = u.cfg
  inv : ∀ u, Inv u → legalHere u.cfg i = true → Inv (g u)

theorem plainEffect_id (i : Instr) : PlainEffect i id := ⟨fun _ => rfl, fun _ => rfl, fun _ h _ => h⟩

@[simp] theorem writeUbr_halted (selAc ldUbr : Bool) (cab pab : BitVec 3) (ubp : Ppn) (s : State) :
    (writeUbr selAc ldUbr cab pab ubp s).halted = s.halted := by
  cases selAc <;> cases ldUbr <;> simp [writeUbr]

@[simp] theorem writeUbr_cfg (selAc ldUbr : Bool) (cab pab : BitVec 3) (ubp : Ppn) (s : State) :
    (writeUbr selAc ldUbr cab pab ubp s).cfg = s.cfg := by
  cases selAc <;> cases ldUbr <;> simp [writeUbr]

/-- Each flag of WR_UBR by itself (R184). -/
theorem Inv.writeUbr {s : State} (h : Inv s) (selAc ldUbr : Bool) (cab pab : BitVec 3) (ubp : Ppn) :
    Inv (writeUbr selAc ldUbr cab pab ubp s) := by
  cases selAc <;> cases ldUbr
  · exact h
  · exact (h.loadUbr ubp).invalidateBoth
  · exact h.select cab pab
  · exact ((h.select cab pab).loadUbr ubp).invalidateBoth

theorem Inv.setSts {s : State} (h : Inv s) (bits : BitVec 3) : Inv (setSts bits s) :=
  h.congr rfl rfl rfl rfl rfl rfl rfl rfl rfl rfl

theorem Inv.clearSts {s : State} (h : Inv s) (mask : BitVec 3) : Inv (clearSts mask s) :=
  h.congr rfl rfl rfl rfl rfl rfl rfl rfl rfl rfl

/-- Every command but XLATE, PROBE and RESET goes through the prologue to a plain effect and the answer OK. -/
theorem exec_eq_plainEffect {i : Instr} (hx : ∀ m k va ctx, i ≠ .xlate m k va ctx)
    (hp : ∀ m k va ctx, i ≠ .probe m k va ctx) (hr : i ≠ .reset) (s : State) :
    ∃ (r0 : State → Word) (g : State → State), PlainEffect i g ∧
      exec i s = runCommand (legalHere s.cfg i) (fun u => .next (respond .ok (r0 u) 0 (g u))) s := by
  cases i with
  | xlate m k va ctx => exact absurd rfl (hx m k va ctx)
  | probe m k va ctx => exact absurd rfl (hp m k va ctx)
  | reset => exact absurd rfl hr
  | invalAll => exact ⟨fun _ => 0, invalidateBoth, ⟨by simp, by simp, fun _ h _ => h.invalidateBoth⟩, rfl⟩
  | invalOne va =>
    exact ⟨fun _ => 0, invalidateAddress va, ⟨by simp, by simp, fun _ h _ => h.invalidateAddress va⟩, rfl⟩
  | wrEbr ebp pge =>
    exact ⟨fun _ => 0, fun u => invalidateBoth (loadEbr ebp pge u),
      ⟨by simp, by simp, fun _ h _ => (h.loadEbr ebp pge).invalidateBoth⟩, rfl⟩
  | wrUbr selAc ldUbr cab pab ubp =>
    exact ⟨fun _ => 0, writeUbr selAc ldUbr cab pab ubp,
      ⟨by simp, by simp, fun _ h _ => h.writeUbr selAc ldUbr cab pab ubp⟩, rfl⟩
  | wrTb idx d =>
    exact ⟨fun _ => 0, fun u => invalidateBoth (loadTable idx d u),
      ⟨by simp, by simp, fun _ h hl => (h.withPager (h.pagerOk.writeTable hl d)).invalidateBoth⟩, rfl⟩
  | selAcb cab pab => exact ⟨fun _ => 0, select cab pab, ⟨by simp, by simp, fun _ h _ => h.select cab pab⟩, rfl⟩
  | acwr x r d =>
    exact ⟨fun _ => 0, fun u => { u with acs := acWrite u.acs x r d },
      ⟨by simp, by simp, fun _ h _ => h.withAcs (by simpa using h.prevTable)⟩, rfl⟩
  | armAbk cond va => exact ⟨fun _ => 0, arm cond va, ⟨by simp, by simp, fun _ h hl => h.arm hl cond va⟩, rfl⟩
  | disarmAbk => exact ⟨fun _ => 0, disarm, ⟨by simp, by simp, fun _ h _ => h.disarm⟩, rfl⟩
  | sweep => exact ⟨fun _ => 0, setSts stsSweepDone, ⟨by simp, by simp, fun _ h _ => h.setSts _⟩, rfl⟩
  | clrSts mask => exact ⟨fun _ => 0, clearSts mask, ⟨by simp, by simp, fun _ h _ => h.clearSts mask⟩, rfl⟩
  | rdEbr => exact ⟨fun u => ebrImage u.pager.ebp u.pager.pge, id, plainEffect_id _, rfl⟩
  | rdUbr => exact ⟨fun u => ubrImage true true u.acs.cab u.acs.pab u.pager.ubp, id, plainEffect_id _, rfl⟩
  | rdTb idx => exact ⟨fun u => readTable idx u.pager, id, plainEffect_id _, rfl⟩
  | acrd x r => exact ⟨fun u => acRead u.acs x r, id, plainEffect_id _, rfl⟩
  | memdiag ctl fn => exact ⟨fun u => memdiagReply u.cfg ctl fn, id, plainEffect_id _, rfl⟩
  | rdSts => exact ⟨fun u => stsImage u.sts, id, plainEffect_id _, rfl⟩

theorem exec_xlate_eq (m : MapSel) (k : Kind) (va : VAddr) (ctx : Ctx) (s : State) :
    exec (.xlate m k va ctx) s = runCommand true (xlateEffect m k va ctx) s := rfl

theorem exec_probe_eq (m : MapSel) (k : Kind) (va : VAddr) (ctx : Ctx) (s : State) :
    exec (.probe m k va ctx) s = runCommand true (probeEffect m k va ctx) s := rfl

/-- Every command but RESET goes through the prologue. -/
theorem exec_eq_runCommand {i : Instr} (hr : i ≠ .reset) (s : State) :
    ∃ (legal : Bool) (f : State → Result), exec i s = runCommand legal f s := by
  by_cases hx : ∃ m k va ctx, i = .xlate m k va ctx
  · obtain ⟨m, k, va, ctx, rfl⟩ := hx
    exact ⟨_, _, exec_xlate_eq m k va ctx s⟩
  by_cases hp : ∃ m k va ctx, i = .probe m k va ctx
  · obtain ⟨m, k, va, ctx, rfl⟩ := hp
    exact ⟨_, _, exec_probe_eq m k va ctx s⟩
  · push Not at hx hp
    obtain ⟨r0, g, -, he⟩ := exec_eq_plainEffect hx hp hr s
    exact ⟨_, _, he⟩

/-! ## The invariant -/

/-- Every next state of the result has the invariant and the configuration of `s`. -/
def KeepsInv (s : State) (r : Result) : Prop := ∀ t, r = .next t → Inv t ∧ t.cfg = s.cfg

theorem keepsInv_next {s t : State} (h : Inv t) (hc : t.cfg = s.cfg) : KeepsInv s (.next t) := by
  rintro t ⟨⟩
  exact ⟨h, hc⟩

theorem keepsInv_fault (s : State) (r : Fault) : KeepsInv s (.fault r) := by
  rintro t ⟨⟩

/-- The prologue keeps what the effect keeps (R129). -/
theorem runCommand_keepsInv {legal : Bool} {f : State → Result} {s : State} (h : Inv s)
    (hf : legal = true → KeepsInv s (f (beginCommand s))) : KeepsInv s (runCommand legal f s) := by
  obtain ⟨-, he⟩ | ⟨-, -, he⟩ | ⟨hl, -, he⟩ := runCommand_cases (legal := legal) (f := f) (s := s) rfl
  · rw [he]; exact keepsInv_next (h.beginCommand.respond _ _ _) rfl
  · rw [he]; exact keepsInv_next (h.beginCommand.respond _ _ _) rfl
  · rw [he]; exact hf hl

/-- A refill declares a fault, with the cause of the break only where a watch is armed, or installs one entry (R140). -/
theorem refill_keepsInv {s : State} (h : Inv s) (isProbe : Bool) (m : Mode) (va : VAddr) (k : Kind) (ctx : Ctx) :
    KeepsInv s (refill isProbe m va k ctx s) := by
  obtain ⟨c, he, hc⟩ | ⟨ppn, wperm, status, hsec, hres, -, he⟩ | ⟨-, -, he⟩ :=
    refill_cases isProbe m va k ctx s
  · have hbreak : c = .abk → s.abk.active = true := by
      rintro rfl
      obtain ⟨-, hcause⟩ | ⟨-, hfail⟩ | ⟨-, hmatch, -⟩ := hc
      · cases hcause
      · exact absurd hfail (resolve_ne_fail_abk _ _ _ _)
      · exact active_of_abkMatch hmatch
    rw [he]
    exact keepsInv_next (h.declareFault hbreak _ _ _ _ _) (declareFault_cfg _ _ _ _ _ _ _)
  · rw [he]; exact keepsInv_next ((h.commitRefill hsec hres).respond _ _ _) (by simp)
  · rw [he]; exact keepsInv_fault s _

theorem physMap_keepsInv {s : State} (h : Inv s) (isProbe : Bool) (k : Kind) (va : VAddr) (ctx : Ctx) :
    KeepsInv s (.next (physMap isProbe k va ctx s)) := by
  simp only [physMap]
  split
  · exact keepsInv_next (h.respond _ _ _) (by simp)
  · refine keepsInv_next (h.declareFault ?_ _ _ _ _ _) (declareFault_cfg _ _ _ _ _ _ _)
    nofun

theorem translate_keepsInv {s : State} (h : Inv s) (m : Mode) (k : Kind) (va : VAddr) (ctx : Ctx) :
    KeepsInv s (translate m k va ctx s) := by
  simp only [translate]
  split
  · exact keepsInv_next (h.respond _ _ _) (by simp)
  · exact refill_keepsInv h _ _ _ _ _

theorem xlateEffect_keepsInv {s : State} (h : Inv s) (m : MapSel) (k : Kind) (va : VAddr) (ctx : Ctx) :
    KeepsInv s (xlateEffect m k va ctx s) := by
  cases m with
  | phys => exact physMap_keepsInv h false k va ctx
  | exec => exact translate_keepsInv h .exec k va ctx
  | user => exact translate_keepsInv h .user k va ctx

theorem probeEffect_keepsInv {s : State} (h : Inv s) (m : MapSel) (k : Kind) (va : VAddr) (ctx : Ctx) :
    KeepsInv s (probeEffect m k va ctx s) := by
  cases m with
  | phys => exact physMap_keepsInv h true k va ctx
  | exec => exact refill_keepsInv h true .exec va k ctx
  | user => exact refill_keepsInv h true .user va k ctx

theorem exec_keepsInv {s : State} (h : Inv s) (i : Instr) : KeepsInv s (exec i s) := by
  by_cases hx : ∃ m k va ctx, i = .xlate m k va ctx
  · obtain ⟨m, k, va, ctx, rfl⟩ := hx
    rw [exec_xlate_eq]
    exact runCommand_keepsInv h fun _ => xlateEffect_keepsInv h.beginCommand m k va ctx
  by_cases hp : ∃ m k va ctx, i = .probe m k va ctx
  · obtain ⟨m, k, va, ctx, rfl⟩ := hp
    rw [exec_probe_eq]
    exact runCommand_keepsInv h fun _ => probeEffect_keepsInv h.beginCommand m k va ctx
  by_cases hr : i = .reset
  · subst hr
    exact keepsInv_next (h.beginCommand.pagerReset.respond _ _ _) rfl
  push Not at hx hp
  obtain ⟨r0, g, hg, he⟩ := exec_eq_plainEffect hx hp hr s
  rw [he]
  exact runCommand_keepsInv h fun hl =>
    keepsInv_next ((hg.inv _ h.beginCommand hl).respond _ _ _) (by simp [hg.cfg])

/-- Taking an input off the port changes nothing the invariant speaks of. -/
theorem Inv.withPort {s : State} (h : Inv s) (port : List Input) : Inv { s with port := port } :=
  h.congr rfl rfl rfl rfl rfl rfl rfl rfl rfl rfl

/-- Settles O7, by cases on the input taken; `exec_keepsInv` is the case of a command. -/
theorem everyStepKeepsTheInvariant : Obligations.EveryStepKeepsTheInvariant := by
  suffices hstep : ∀ s, Inv s → KeepsInv s (step s) from fun s t h ht => hstep s h t ht
  intro s h
  unfold step
  split
  · exact keepsInv_next h rfl
  · exact keepsInv_next ((h.withPort _).otherStore _ _) rfl
  · split
    · exact exec_keepsInv (h.withPort _) _
    · exact keepsInv_next ((h.withPort _).beginCommand.respond _ _ _) rfl

/-- Settles O8, clause by clause over the listed data of the reset state. -/
theorem resetStateHasTheInvariant : Obligations.ResetStateHasTheInvariant := by
  have stores : StoresData State.reset := by decide
  have registers : RegistersData State.reset := by decide
  have watch : BreakData State.reset := by decide
  apply Inv.of_data
  simp only [invData, Bool.and_eq_true, decide_eq_true_eq]
  exact ⟨⟨stores, registers⟩, watch⟩

/-! ## The halt (R43, R280, R281) -/

/-- A halted PU stays halted under every command that goes through the prologue (R129). -/
theorem runCommand_stays_halted {legal : Bool} {f : State → Result} {s t : State} (hs : s.halted = true)
    (ht : runCommand legal f s = .next t) : t.halted = true := by
  obtain ⟨-, he⟩ | ⟨-, -, he⟩ | ⟨-, hrun, -⟩ := runCommand_cases ht
  · cases he; exact hs
  · cases he; exact hs
  · simp [hs] at hrun

/-- A running PU's command is answered ILLEGAL and leaves it running, or is its effect (R129). -/
theorem runCommand_running_or_effect {legal : Bool} {f : State → Result} {s t : State} (hs : s.halted = false)
    (ht : runCommand legal f s = .next t) : t.halted = false ∨ f (beginCommand s) = .next t := by
  obtain ⟨-, he⟩ | ⟨-, hhalt, -⟩ | ⟨-, -, he⟩ := runCommand_cases ht
  · cases he; exact .inl hs
  · simp [hs] at hhalt
  · exact .inr he.symm

/-- A fatal stop as the command's answer shows it (R280). -/
def StoppedFatally (t : State) : Prop :=
  t.fatalCode ≠ .none ∧ Answers t .fatal (fatalCodeWord t.fatalCode) 0

theorem trap_halts_fatally {s : State} (hs : s.halted = false) {fw : Word} {ctx : Ctx}
    (ht : (trap fw ctx s).halted = true) : StoppedFatally (trap fw ctx s) := by
  obtain ⟨-, -, -, -, -, -, -, halt, -⟩ := trap_spec fw ctx s
  obtain ⟨code, hne, -, hc, hresp⟩ | ⟨hhalt, -⟩ := halt
  · exact ⟨hc ▸ hne, by rw [Answers, hc, hresp]⟩
  · simp [hhalt, hs] at ht

/-- A reference halts a running PU only by a trap that stops fatally, so PROBE never does (R127, R280). -/
theorem ReferenceEnd.halts_fatally {isProbe : Bool} {m : MapSel} {k : Kind} {va : VAddr} {ctx : Ctx} {s t : State}
    (hs : s.halted = false) (ht : t.halted = true) (h : ReferenceEnd isProbe m k va ctx s (.next t)) :
    isProbe = false ∧ StoppedFatally t := by
  cases h with
  | answered r0 => simp [hs] at ht
  | installed => simp [hs] at ht
  | faulted addr c =>
    cases isProbe with
    | true => simp [declareFault_false, hs] at ht
    | false => exact ⟨rfl, trap_halts_fatally (by simp [hs]) ht⟩

theorem runCommand_reference_halts_fatally {isProbe : Bool} {m : MapSel} {k : Kind} {va : VAddr} {ctx : Ctx}
    {f : State → Result} (hf : ∀ u, ReferenceEnd isProbe m k va ctx u (f u)) {s t : State} (hs : s.halted = false)
    (hh : t.halted = true) (ht : runCommand true f s = .next t) : isProbe = false ∧ StoppedFatally t := by
  obtain hrun | he := runCommand_running_or_effect hs ht
  · simp [hh] at hrun
  · have hend := hf (beginCommand s)
    rw [he] at hend
    exact hend.halts_fatally (by simpa using hs) hh

theorem exec_plain_stays_running {i : Instr} (hx : ∀ m k va ctx, i ≠ .xlate m k va ctx)
    (hp : ∀ m k va ctx, i ≠ .probe m k va ctx) {s t : State} (hs : s.halted = false) (ht : exec i s = .next t) :
    t.halted = false := by
  by_cases hr : i = .reset
  · subst hr; cases ht; rfl
  · obtain ⟨r0, g, hg, he⟩ := exec_eq_plainEffect hx hp hr s
    obtain hrun | he := runCommand_running_or_effect hs (he ▸ ht)
    · exact hrun
    · cases he; simpa [hg.halted] using hs

/-- A command that halts a running PU is an XLATE that stops fatally (R43, R281). -/
theorem exec_halts {i : Instr} {s t : State} (hs : s.halted = false) (hh : t.halted = true)
    (ht : exec i s = .next t) : (∃ m k va ctx, i = .xlate m k va ctx) ∧ StoppedFatally t := by
  by_cases hx : ∃ m k va ctx, i = .xlate m k va ctx
  · refine ⟨hx, ?_⟩
    obtain ⟨m, k, va, ctx, rfl⟩ := hx
    exact (runCommand_reference_halts_fatally (xlateEffect_ends m k va ctx) hs hh ht).2
  by_cases hp : ∃ m k va ctx, i = .probe m k va ctx
  · obtain ⟨m, k, va, ctx, rfl⟩ := hp
    cases (runCommand_reference_halts_fatally (probeEffect_ends m k va ctx) hs hh ht).1
  · push Not at hx hp
    simp [exec_plain_stays_running hx hp hs ht] at hh

/-- Settles O15: `exec_halts` one way; the other way, no command but RESET acts on a halted PU (R129). -/
theorem haltIsSetByXlateAndClearedByReset : Obligations.HaltIsSetByXlateAndClearedByReset := by
  intro i s t ht
  refine ⟨fun hs hh => exec_halts hs hh ht, fun hs hh => ?_⟩
  by_contra hr
  obtain ⟨legal, f, he⟩ := exec_eq_runCommand hr s
  simp [runCommand_stays_halted hs (he ▸ ht)] at hh

end Sys2Proof.Machine

/-! # PhysicalStore: who writes it (spec 20_memory.md R60 to R73) -/

namespace Sys2Proof.Machine

open Sys2Proof

/-! ## A store of another agent (R67, R315) -/

theorem step_store {s : State} {pa : Nat} {w : Word} {rest : List Input} (hp : s.port = .store pa w :: rest) :
    step s = .next (otherStore pa w { s with port := rest }) := by
  simp [step, hp]

theorem unchanged_otherStore (pa : Nat) (w : Word) (s : State) : Unchanged [.mem] s (otherStore pa w s) :=
  unchanged_of_fields [.mem] (by simp) (by simp) (mem := by simp) (tlb := by simp) (pager := by simp) (acs := by simp)
    (fd := by simp) (abk := by simp) (hits := by simp) (sts := by simp) (halt := by simp)

/-- Settles O6: `memRead_otherStore` is the read after the store, `unchanged_otherStore` the frame. -/
theorem otherAgentsStoreIsReadBack : Obligations.OtherAgentsStoreIsReadBack := by
  intro s pa w rest hwf hp
  have hread := memRead_otherStore (s := { s with port := rest }) hwf pa w
  exact ⟨_, step_store hp, hread, unchanged_otherStore pa w _, rfl, rfl⟩

/-! ## Results that store nothing (R64) -/

/-- Every next state of the result has the memory and the event list of `s`. -/
def StoresNothing (s : State) (r : Result) : Prop := ∀ t, r = .next t → t.mem = s.mem ∧ t.events = s.events

theorem storesNothing_next {s t : State} (hm : t.mem = s.mem) (he : t.events = s.events) :
    StoresNothing s (.next t) := by
  rintro t ⟨⟩
  exact ⟨hm, he⟩

theorem storesNothing_fault (s : State) (r : Fault) : StoresNothing s (.fault r) := by
  rintro t ⟨⟩

/-- The prologue stores nothing by itself (R129). -/
theorem runCommand_storesNothing {legal : Bool} {f : State → Result} {s : State}
    (hf : StoresNothing (beginCommand s) (f (beginCommand s))) :
    StoresNothing (beginCommand s) (runCommand legal f s) := by
  obtain ⟨-, he⟩ | ⟨-, -, he⟩ | ⟨-, -, he⟩ := runCommand_cases (legal := legal) (f := f) (s := s) rfl
  · rw [he]; exact storesNothing_next rfl rfl
  · rw [he]; exact storesNothing_next rfl rfl
  · rw [he]; exact hf

/-! ## The commands that are no reference -/

@[simp] theorem writeUbr_mem (selAc ldUbr : Bool) (cab pab : BitVec 3) (ubp : Ppn) (s : State) :
    (writeUbr selAc ldUbr cab pab ubp s).mem = s.mem := by
  cases selAc <;> cases ldUbr <;> simp [writeUbr]

@[simp] theorem writeUbr_events (selAc ldUbr : Bool) (cab pab : BitVec 3) (ubp : Ppn) (s : State) :
    (writeUbr selAc ldUbr cab pab ubp s).events = s.events := by
  cases selAc <;> cases ldUbr <;> simp [writeUbr]

/-- What a command does to a running PU if it is neither a reference nor RESET; a command that only reads does nothing.
The arms of XLATE, PROBE and RESET mean nothing: `exec_eq_plainUpdate` speaks of the other commands. -/
def plainUpdate (i : Instr) (s : State) : State :=
  match i with
  | .invalAll => invalidateBoth s
  | .invalOne va => invalidateAddress va s
  | .wrEbr ebp pge => invalidateBoth (loadEbr ebp pge s)
  | .wrUbr selAc ldUbr cab pab ubp => writeUbr selAc ldUbr cab pab ubp s
  | .wrTb idx d => invalidateBoth (loadTable idx d s)
  | .selAcb cab pab => select cab pab s
  | .acwr x r d => { s with acs := acWrite s.acs x r d }
  | .armAbk cond va => arm cond va s
  | .disarmAbk => disarm s
  | .sweep => setSts stsSweepDone s
  | .clrSts mask => clearSts mask s
  | .xlate .. | .probe .. | .reset => s
  | .rdEbr | .rdUbr | .rdTb _ | .acrd .. | .memdiag .. | .rdSts => s

/-- r0 of such a command's answer OK; 0 from one that reads nothing. -/
def plainReply (i : Instr) (s : State) : Word :=
  match i with
  | .rdEbr => ebrImage s.pager.ebp s.pager.pge
  | .rdUbr => ubrImage true true s.acs.cab s.acs.pab s.pager.ubp
  | .rdTb idx => readTable idx s.pager
  | .acrd x r => acRead s.acs x r
  | .memdiag ctl fn => memdiagReply s.cfg ctl fn
  | .rdSts => stsImage s.sts
  | .xlate .. | .probe .. | .reset => 0
  | .invalAll | .invalOne _ | .wrEbr .. | .wrUbr .. | .wrTb .. | .selAcb .. | .acwr .. => 0
  | .armAbk .. | .disarmAbk | .sweep | .clrSts _ => 0

/-- Every command but XLATE, PROBE and RESET goes through the prologue to its update and the answer OK (R129). -/
theorem exec_eq_plainUpdate {i : Instr} (hx : ∀ m k va ctx, i ≠ .xlate m k va ctx)
    (hp : ∀ m k va ctx, i ≠ .probe m k va ctx) (hr : i ≠ .reset) (s : State) :
    exec i s =
      runCommand (legalHere s.cfg i) (fun u => .next (respond .ok (plainReply i u) 0 (plainUpdate i u))) s := by
  cases i with
  | xlate m k va ctx => exact absurd rfl (hx m k va ctx)
  | probe m k va ctx => exact absurd rfl (hp m k va ctx)
  | reset => exact absurd rfl hr
  | _ => rfl

@[simp] theorem plainUpdate_mem (i : Instr) (s : State) : (plainUpdate i s).mem = s.mem := by
  cases i <;> simp [plainUpdate]

@[simp] theorem plainUpdate_events (i : Instr) (s : State) : (plainUpdate i s).events = s.events := by
  cases i <;> simp [plainUpdate]

theorem exec_storesNothing_of_not_reference {i : Instr} (hx : ∀ m k va ctx, i ≠ .xlate m k va ctx)
    (hp : ∀ m k va ctx, i ≠ .probe m k va ctx) (s : State) : StoresNothing (beginCommand s) (exec i s) := by
  by_cases hr : i = .reset
  · subst hr
    exact storesNothing_next rfl rfl
  · rw [exec_eq_plainUpdate hx hp hr]
    exact runCommand_storesNothing (storesNothing_next (by simp) (by simp))

/-! ## PROBE (R127, R165) -/

/-- Without a status table, or outside MULTI, no walk reads a status record (R164, R166). -/
theorem status_eq_none_of_resolve {s : State} (hs : s.cfg.gen ≠ .multi ∨ s.pager.csb = 0) {m : Mode} {p : VParts}
    {k : Kind} {ppn : Nat} {wperm : Bool} {status : Option (Nat × Word)}
    (h : resolve s m p k = .ok ppn wperm status) : status = none := by
  obtain ⟨-, -, hrecord⟩ := resolve_eq_ok h
  cases status with
  | none => rfl
  | some record =>
    obtain ⟨-, -, hgen, hcsb, -⟩ := hrecord record.1 record.2 rfl
    exact absurd hs (not_or.2 ⟨not_not.2 hgen, hcsb⟩)

/-- PROBE answers, soft-fails or installs an entry; only the commit of a status record stores (R165, R262). -/
theorem ReferenceEnd.probe_storesNothing {m : MapSel} {k : Kind} {va : VAddr} {ctx : Ctx} {s : State} {r : Result}
    (hs : s.cfg.gen ≠ .multi ∨ s.pager.csb = 0) (h : ReferenceEnd true m k va ctx s r) : StoresNothing s r := by
  cases h with
  | answered r0 => exact storesNothing_next (by simp) (by simp)
  | faulted addr c => exact storesNothing_next (by simp [declareFault_false]) (by simp [declareFault_false])
  | installed m' ppn wperm status _ _ hres =>
    obtain rfl := status_eq_none_of_resolve hs hres
    exact storesNothing_next (by simp) (by simp)
  | endless => exact storesNothing_fault s _

theorem exec_probe_storesNothing {s : State} (hs : s.cfg.gen ≠ .multi ∨ s.pager.csb = 0) (m : MapSel) (k : Kind)
    (va : VAddr) (ctx : Ctx) : StoresNothing (beginCommand s) (exec (.probe m k va ctx) s) := by
  rw [exec_probe_eq]
  exact runCommand_storesNothing ((probeEffect_ends m k va ctx (beginCommand s)).probe_storesNothing hs)

/-- Settles O11: the commands that are no reference, and PROBE where it finds no status record, store nothing. -/
theorem onlyReferencesWritePhysicalStore : Obligations.OnlyReferencesWritePhysicalStore := by
  intro i s t ht
  refine ⟨fun hx hp => exec_storesNothing_of_not_reference hx hp s t ht, ?_⟩
  rintro m k va ctx rfl hs
  exact exec_probe_storesNothing hs m k va ctx t ht

end Sys2Proof.Machine

/-! # Encoding: decode and encode, illegal commands, the prologue (spec 30_encoding.md R90 to R113) -/

namespace Sys2Proof.Machine

open Sys2Proof

/-! ## The table of operations (R96) -/

theorem rowOfOp_op_of_mem {row : OpRow} (h : row ∈ opTable) : rowOfOp row.op = row := by
  revert h; revert row; decide

/-- A code finds a row exactly when it is the code of an operation, whose row it then is. -/
theorem rowOfCode_eq_some {code : BitVec 6} {row : OpRow} :
    rowOfCode code = some row ↔ ∃ op, row = rowOfOp op ∧ code = (rowOfOp op).code := by
  constructor
  · intro h
    have hcode : row.code = code := by simpa using List.find?_some h
    have hrow := rowOfOp_op_of_mem (List.mem_of_find?_eq_some h)
    exact ⟨row.op, hrow.symm, by rw [hrow, hcode]⟩
  · rintro ⟨op, rfl, rfl⟩
    exact rowOfCode_rowOfOp op

/-! ## CMD words of an operation (R91, R92) -/

theorem unusedClear_iff {f : Format} {w : Word} :
    f.unusedClear w = true ↔ (f ≠ .t → cmdM w = 0 ∧ cmdK w = 0) ∧ (f ≠ .i → f ≠ .a → cmdR w = 0) ∧
      (f ≠ .a → cmdX w = 0) := by
  cases f <;> simp [Format.unusedClear, and_assoc]

/-- `w` is a CMD word of the operation: its code, bits 20:0 zero, the fields its format leaves out zero. -/
structure CmdOf (op : Op) (w : Word) : Prop where
  code : cmdOp w = (rowOfOp op).code
  low : cmdLow w = 0
  clear : (rowOfOp op).format.unusedClear w = true

/-- Such a word is the encoding of its fields. -/
theorem CmdOf.encodeCmd_fields {op : Op} {w : Word} (h : CmdOf op w) :
    encodeCmd op (cmdM w) (cmdK w) (cmdR w) (cmdX w) = w := by
  conv_rhs => rw [cmd_fields w, h.low, h.code]
  rfl

/-- Formats N, V and D. -/
theorem CmdOf.encodeCmd_plain {op : Op} {w : Word} (h : CmdOf op w) (hf : (rowOfOp op).format ∉ [.t, .i, .a]) :
    encodeCmd op 0 0 0 0 = w := by
  simp only [List.mem_cons, List.not_mem_nil, or_false, not_or] at hf
  obtain ⟨ht, hi, ha⟩ := hf
  obtain ⟨hmk, hr, hx⟩ := unusedClear_iff.1 h.clear
  obtain ⟨hm, hk⟩ := hmk ht
  have he := h.encodeCmd_fields
  rwa [hm, hk, hr hi ha, hx ha] at he

theorem CmdOf.encodeCmd_reference {op : Op} {w : Word} (h : CmdOf op w) (ht : (rowOfOp op).format = .t) {m : MapSel}
    {k : Kind} (hm : cmdM w = m.code) (hk : cmdK w = k.code) : encodeCmd op m.code k.code 0 0 = w := by
  obtain ⟨-, hr, hx⟩ := unusedClear_iff.1 h.clear
  have he := h.encodeCmd_fields
  rwa [hm, hk, hr (by simp [ht]) (by simp [ht]), hx (by simp [ht])] at he

theorem CmdOf.encodeCmd_indexed {op : Op} {w : Word} (h : CmdOf op w) (hi : (rowOfOp op).format = .i) :
    encodeCmd op 0 0 (cmdR w) 0 = w := by
  obtain ⟨hmk, -, hx⟩ := unusedClear_iff.1 h.clear
  obtain ⟨hm, hk⟩ := hmk (by simp [hi])
  have he := h.encodeCmd_fields
  rwa [hm, hk, hx (by simp [hi])] at he

theorem CmdOf.encodeCmd_accumulator {op : Op} {w : Word} (h : CmdOf op w) (ha : (rowOfOp op).format = .a) :
    encodeCmd op 0 0 (cmdR w) (AcCtx.ofCode (cmdX w)).code = w := by
  obtain ⟨hmk, -, -⟩ := unusedClear_iff.1 h.clear
  obtain ⟨hm, hk⟩ := hmk (by simp [ha])
  have he := h.encodeCmd_fields
  rwa [hm, hk, ← AcCtx.code_ofCode (cmdX w)] at he

theorem encodedFields (i : Instr) : Laws.EncodedFields.Statement i := by
  cases i with
  | xlate => exact Laws.EncodedFields.xlate ..
  | probe => exact Laws.EncodedFields.probe ..
  | invalAll => exact Laws.EncodedFields.invalAll
  | invalOne => exact Laws.EncodedFields.invalOne ..
  | wrEbr => exact Laws.EncodedFields.wrEbr ..
  | rdEbr => exact Laws.EncodedFields.rdEbr
  | wrUbr => exact Laws.EncodedFields.wrUbr ..
  | rdUbr => exact Laws.EncodedFields.rdUbr
  | wrTb => exact Laws.EncodedFields.wrTb ..
  | rdTb => exact Laws.EncodedFields.rdTb ..
  | selAcb => exact Laws.EncodedFields.selAcb ..
  | acrd => exact Laws.EncodedFields.acrd ..
  | acwr => exact Laws.EncodedFields.acwr ..
  | armAbk => exact Laws.EncodedFields.armAbk ..
  | disarmAbk => exact Laws.EncodedFields.disarmAbk
  | sweep => exact Laws.EncodedFields.sweep
  | memdiag => exact Laws.EncodedFields.memdiag ..
  | rdSts => exact Laws.EncodedFields.rdSts
  | clrSts => exact Laws.EncodedFields.clrSts ..
  | reset => exact Laws.EncodedFields.reset

theorem cmdOf_encode (i : Instr) : CmdOf i.op (encode i).cmd := by
  obtain ⟨hrow, hlow, hclear⟩ := encodedFields i
  obtain ⟨op, hop, hcode⟩ := rowOfCode_eq_some.1 hrow
  exact ⟨by rw [hcode, hop], hlow, hclear⟩

/-! ## What the decoder accepts (R97) -/

/-- With the code of an operation a command decodes exactly when CMD is a word of that operation and its operands
decode. -/
theorem decode_eq_ok_of_code {op : Op} {c : Command} (hop : cmdOp c.cmd = (rowOfOp op).code) {i : Instr} :
    decode c = .ok i ↔ CmdOf op c.cmd ∧ decodeOperands op c = .ok i := by
  simp only [decode, hop, rowOfCode_rowOfOp, rowOfOp_op]
  split_ifs with hlow hclear
  · exact ⟨nofun, fun h => absurd h.1.low hlow⟩
  · exact ⟨nofun, fun h => absurd h.1.clear (by simp [hclear])⟩
  · exact ⟨fun h => ⟨⟨hop, not_not.1 hlow, by simpa using hclear⟩, h⟩, And.right⟩

theorem exists_code_of_decode {c : Command} {i : Instr} (h : decode c = .ok i) :
    ∃ op, cmdOp c.cmd = (rowOfOp op).code := by
  unfold decode at h
  split at h
  · cases h
  · next row hrow =>
    obtain ⟨op, -, hop⟩ := rowOfCode_eq_some.1 hrow
    exact ⟨op, hop⟩

theorem decode_eq_ok {c : Command} {i : Instr} :
    decode c = .ok i ↔ ∃ op, CmdOf op c.cmd ∧ decodeOperands op c = .ok i := by
  constructor
  · intro h
    obtain ⟨op, hop⟩ := exists_code_of_decode h
    exact ⟨op, (decode_eq_ok_of_code hop).1 h⟩
  · rintro ⟨op, hc, h⟩
    exact (decode_eq_ok_of_code hc.code).2 ⟨hc, h⟩

/-- The operands of XLATE and PROBE decode exactly when M, K and CTX.seq are codes (R91, R94, R97). -/
theorem decodeReference_eq_ok {mk : MapSel → Kind → VAddr → Ctx → Instr} {c : Command} {i : Instr} :
    decodeReference mk c = .ok i ↔ ∃ m k q, cmdM c.cmd = m.code ∧ cmdK c.cmd = k.code ∧ c.ctx.seq = q.code ∧
      i = mk m k (c.data.extractLsb' 0 30) ⟨c.ctx.pc, c.ctx.flags, q, c.ctx.nonint⟩ := by
  constructor
  · intro h
    unfold decodeReference at h
    split at h
    · cases h
    · next m hm =>
      split at h
      · cases h
      · next k hk =>
        split at h
        · cases h
        · next q hq =>
          cases h
          exact ⟨m, k, q, (MapSel.code_of_ofCode hm).symm, (Kind.code_of_ofCode hk).symm,
            (Seq.code_of_ofCode hq).symm, rfl⟩
  · rintro ⟨m, k, q, hm, hk, hq, rfl⟩
    simp [decodeReference, hm, hk, hq]

/-- The operand of WR_TB and RD_TB decodes exactly when the index is at most 7 (R97). -/
theorem decodeIndexed_eq_ok {mk : BitVec 4 → Instr} {c : Command} {i : Instr} :
    decodeIndexed mk c = .ok i ↔ tableIndexOk (cmdR c.cmd) = true ∧ i = mk (cmdR c.cmd) := by
  unfold decodeIndexed
  split_ifs with h <;> simp [h, eq_comm]

/-! ## Decode of encode -/

theorem decodeReference_of_encode {mk : MapSel → Kind → VAddr → Ctx → Instr} {i : Instr} {op : Op} {m : MapSel}
    {k : Kind} {va : VAddr} {ctx : Ctx} (hcmd : i.cmd = encodeCmd op m.code k.code 0 0)
    (hdata : i.data = addressData va) (hctx : i.ctxBits = ctx.bits) :
    decodeReference mk (encode i) = .ok (mk m k va ctx) :=
  decodeReference_eq_ok.2 ⟨m, k, ctx.seq, by simp [encode, hcmd, encodeCmd], by simp [encode, hcmd, encodeCmd],
    by simp [encode, hctx, Ctx.bits], by simp [encode, hdata, hctx, Ctx.bits]⟩

/-- Each operand is a field of CMD, of DATA's image or of CTX that the encoder wrote. -/
theorem decodeOperands_encode {i : Instr} (hw : i.wellFormed = true) : decodeOperands i.op (encode i) = .ok i := by
  cases i with
  | xlate m k va ctx => exact decodeReference_of_encode rfl rfl rfl
  | probe m k va ctx => exact decodeReference_of_encode rfl rfl rfl
  | wrTb idx value =>
    have hidx : cmdR (encode (.wrTb idx value)).cmd = idx := cmdR_cmdWord ..
    exact (decodeIndexed_eq_ok (mk := fun idx => .wrTb idx value)).2 ⟨by rwa [hidx], by rw [hidx]⟩
  | rdTb idx =>
    have hidx : cmdR (encode (.rdTb idx)).cmd = idx := cmdR_cmdWord ..
    exact decodeIndexed_eq_ok.2 ⟨by rwa [hidx], by rw [hidx]⟩
  | acrd x r => simp [Instr.op, decodeOperands, encode, Instr.cmd, encodeCmd]
  | acwr x r value => simp [Instr.op, decodeOperands, encode, Instr.cmd, encodeCmd, Instr.data]
  | _ => simp [Instr.op, decodeOperands, encode, Instr.data]

/-- Settles O1: CMD names the operation, and the operands come back. -/
theorem decodeOfEncodeIsTheInstruction : Obligations.DecodeOfEncodeIsTheInstruction :=
  fun i hw => decode_eq_ok.2 ⟨i.op, cmdOf_encode i, decodeOperands_encode hw⟩

theorem decode_of_encode_eq {i : Instr} {c : Command} (hw : i.wellFormed = true) (hc : encode i = c) :
    decode c = .ok i := hc ▸ decodeOfEncodeIsTheInstruction i hw

/-- Settles O5: each command is what its instruction encodes to. -/
theorem specCommandWordsDecode : Obligations.SpecCommandWordsDecode := by
  unfold Obligations.SpecCommandWordsDecode
  refine ⟨?_, ?_, ?_, ?_, ?_, ?_, ?_, ?_, ?_, ?_, ?_, ?_⟩ <;> exact decode_of_encode_eq rfl rfl

/-! ## Encode of decode -/

/-- What decoded goes back to the same CMD word, to DATA on its image and, for a reference, to the same CTX. -/
theorem encode_of_decodeOperands {op : Op} {c : Command} {i : Instr} (hc : CmdOf op c.cmd)
    (h : decodeOperands op c = .ok i) :
    i.wellFormed = true ∧ (encode i).cmd = c.cmd ∧ (encode i).data = c.data &&& definedData i ∧
      (i.op = .xlate ∨ i.op = .probe → (encode i).ctx = c.ctx) := by
  cases op with
  | xlate =>
    obtain ⟨m, k, q, hm, hk, hq, rfl⟩ := decodeReference_eq_ok.1 h
    exact ⟨rfl, hc.encodeCmd_reference rfl hm hk, addressData_extract _,
      fun _ => by simp [encode, Instr.ctxBits, Ctx.bits, ← hq]⟩
  | probe =>
    obtain ⟨m, k, q, hm, hk, hq, rfl⟩ := decodeReference_eq_ok.1 h
    exact ⟨rfl, hc.encodeCmd_reference rfl hm hk, addressData_extract _,
      fun _ => by simp [encode, Instr.ctxBits, Ctx.bits, ← hq]⟩
  | wrTb =>
    obtain ⟨hidx, rfl⟩ := (decodeIndexed_eq_ok (mk := fun idx => .wrTb idx c.data)).1 h
    exact ⟨hidx, hc.encodeCmd_indexed rfl, BitVec.and_allOnes.symm, nofun⟩
  | rdTb =>
    obtain ⟨hidx, rfl⟩ := decodeIndexed_eq_ok.1 h
    exact ⟨hidx, hc.encodeCmd_indexed rfl, BitVec.and_zero.symm, nofun⟩
  | acrd => cases h; exact ⟨rfl, hc.encodeCmd_accumulator rfl, BitVec.and_zero.symm, nofun⟩
  | acwr => cases h; exact ⟨rfl, hc.encodeCmd_accumulator rfl, BitVec.and_allOnes.symm, nofun⟩
  | invalOne => cases h; exact ⟨rfl, hc.encodeCmd_plain (by decide), addressData_extract _, nofun⟩
  | wrEbr => cases h; exact ⟨rfl, hc.encodeCmd_plain (by decide), ebrImage_extract _, nofun⟩
  | wrUbr => cases h; exact ⟨rfl, hc.encodeCmd_plain (by decide), ubrImage_extract _, nofun⟩
  | selAcb => cases h; exact ⟨rfl, hc.encodeCmd_plain (by decide), acselImage_extract _, nofun⟩
  | armAbk => cases h; exact ⟨rfl, hc.encodeCmd_plain (by decide), abkImage_extract _, nofun⟩
  | memdiag => cases h; exact ⟨rfl, hc.encodeCmd_plain (by decide), memdiagImage_extract _, nofun⟩
  | clrSts => cases h; exact ⟨rfl, hc.encodeCmd_plain (by decide), stsImage_extract _, nofun⟩
  | invalAll | rdEbr | rdUbr | disarmAbk | sweep | rdSts | reset =>
    cases h
    exact ⟨rfl, hc.encodeCmd_plain (by decide), BitVec.and_zero.symm, nofun⟩

/-- Settles O2, by cases on the operation CMD names. -/
theorem decodedCommandWordIsItsEncoding : Obligations.DecodedCommandWordIsItsEncoding := by
  intro c i h
  obtain ⟨op, hc, hoperands⟩ := decode_eq_ok.1 h
  exact encode_of_decodeOperands hc hoperands

/-! ## Illegal commands (R97) -/

/-! ### The fields of CMD as numbers -/

theorem cmdOp_toNat (w : Word) : (cmdOp w).toNat = w.toNat / 2 ^ 30 := by
  simp only [cmdOp, BitVec.extractLsb'_toNat, Nat.shiftRight_eq_div_pow]; omega

theorem cmdM_toNat (w : Word) : (cmdM w).toNat = w.toNat / 2 ^ 28 % 4 := by
  simp [cmdM, Nat.shiftRight_eq_div_pow]

theorem cmdK_toNat (w : Word) : (cmdK w).toNat = w.toNat / 2 ^ 26 % 4 := by
  simp [cmdK, Nat.shiftRight_eq_div_pow]

theorem cmdR_toNat (w : Word) : (cmdR w).toNat = w.toNat / 2 ^ 22 % 16 := by
  simp [cmdR, Nat.shiftRight_eq_div_pow]

theorem cmdX_toNat (w : Word) : (cmdX w).toNat = w.toNat / 2 ^ 21 % 2 := by
  simp [cmdX, Nat.shiftRight_eq_div_pow]

theorem cmdLow_toNat (w : Word) : (cmdLow w).toNat = w.toNat % 2 ^ 21 := by
  simp [cmdLow]

/-! ### The codes R97 speaks of are those of R96's table, by format -/

theorem legalCodes_eq : legalCodes = opTable.map fun row => row.code.toNat := by decide

theorem toNat_mem_legalCodes {code : BitVec 6} : code.toNat ∈ legalCodes ↔ ∃ op, code = (rowOfOp op).code := by
  rw [legalCodes_eq, List.mem_map]
  constructor
  · rintro ⟨row, hrow, hcode⟩
    exact ⟨row.op, by rw [rowOfOp_op_of_mem hrow, toNat_inj.1 hcode]⟩
  · rintro ⟨op, rfl⟩
    exact ⟨_, List.mem_of_find?_eq_some (rowOfCode_rowOfOp op), rfl⟩

theorem code_mem_referenceCodes (op : Op) : (rowOfOp op).code.toNat ∈ referenceCodes ↔ (rowOfOp op).format = .t := by
  cases op <;> decide

theorem code_mem_indexCodes (op : Op) : (rowOfOp op).code.toNat ∈ indexCodes ↔ (rowOfOp op).format = .i := by
  cases op <;> decide

theorem code_mem_accumulatorCodes (op : Op) :
    (rowOfOp op).code.toNat ∈ accumulatorCodes ↔ (rowOfOp op).format = .a := by
  cases op <;> decide

/-! ### The clauses of R97 and the decoder -/

/-- R97 on the fields of CMD. -/
theorem illegalCommand_iff {c : Command} :
    IllegalCommand c ↔
      (cmdOp c.cmd).toNat ∉ legalCodes ∨ cmdLow c.cmd ≠ 0 ∨
      ((cmdM c.cmd ≠ 0 ∨ cmdK c.cmd ≠ 0) ∧ (cmdOp c.cmd).toNat ∉ referenceCodes) ∨
      (cmdR c.cmd ≠ 0 ∧ (cmdOp c.cmd).toNat ∉ indexCodes ∧ (cmdOp c.cmd).toNat ∉ accumulatorCodes) ∨
      (cmdX c.cmd ≠ 0 ∧ (cmdOp c.cmd).toNat ∉ accumulatorCodes) ∨
      ((cmdOp c.cmd).toNat ∈ referenceCodes ∧ (cmdM c.cmd = 3 ∨ cmdK c.cmd = 3 ∨ 4 < c.ctx.seq.toNat)) ∨
      ((cmdOp c.cmd).toNat ∈ indexCodes ∧ 7 < (cmdR c.cmd).toNat) := by
  simp only [IllegalCommand, ne_eq, ← toNat_inj, cmdOp_toNat, cmdM_toNat, cmdK_toNat, cmdR_toNat, cmdX_toNat,
    cmdLow_toNat]
  rfl

/-- The operands of the operation are none of the reserved values of R97. -/
def OperandsLegal (op : Op) (c : Command) : Prop :=
  ((rowOfOp op).format = .t → cmdM c.cmd ≠ 3 ∧ cmdK c.cmd ≠ 3 ∧ c.ctx.seq.toNat ≤ 4) ∧
  ((rowOfOp op).format = .i → (cmdR c.cmd).toNat ≤ 7)

theorem not_illegalCommand_iff_of_code {op : Op} {c : Command} (hop : cmdOp c.cmd = (rowOfOp op).code) :
    ¬ IllegalCommand c ↔ CmdOf op c.cmd ∧ OperandsLegal op c := by
  have hcmd : CmdOf op c.cmd ↔ cmdLow c.cmd = 0 ∧ (rowOfOp op).format.unusedClear c.cmd = true :=
    ⟨fun h => ⟨h.low, h.clear⟩, fun h => ⟨hop, h.1, h.2⟩⟩
  have hlegal : (rowOfOp op).code.toNat ∈ legalCodes := toNat_mem_legalCodes.2 ⟨op, rfl⟩
  rw [illegalCommand_iff, hcmd, unusedClear_iff, OperandsLegal, hop, code_mem_referenceCodes, code_mem_indexCodes,
    code_mem_accumulatorCodes]
  cases (rowOfOp op).format <;> simp [hlegal] <;> tauto

theorem exists_mapSel_code_iff {b : BitVec 2} : (∃ m : MapSel, b = m.code) ↔ b ≠ 3 := by
  have hsome : (MapSel.ofCode b).isSome = true ↔ b ≠ 3 := by revert b; decide
  rw [← hsome, Option.isSome_iff_exists]
  exact exists_congr fun m => ⟨by rintro rfl; simp, fun h => (MapSel.code_of_ofCode h).symm⟩

theorem exists_kind_code_iff {b : BitVec 2} : (∃ k : Kind, b = k.code) ↔ b ≠ 3 := by
  have hsome : (Kind.ofCode b).isSome = true ↔ b ≠ 3 := by revert b; decide
  rw [← hsome, Option.isSome_iff_exists]
  exact exists_congr fun k => ⟨by rintro rfl; simp, fun h => (Kind.code_of_ofCode h).symm⟩

theorem exists_seq_code_iff {b : BitVec 3} : (∃ q : Seq, b = q.code) ↔ b.toNat ≤ 4 := by
  have hsome : (Seq.ofCode b).isSome = true ↔ b.toNat ≤ 4 := by revert b; decide
  rw [← hsome, Option.isSome_iff_exists]
  exact exists_congr fun q => ⟨by rintro rfl; simp, fun h => (Seq.code_of_ofCode h).symm⟩

theorem exists_decodeReference {mk : MapSel → Kind → VAddr → Ctx → Instr} {c : Command} :
    (∃ i, decodeReference mk c = .ok i) ↔ cmdM c.cmd ≠ 3 ∧ cmdK c.cmd ≠ 3 ∧ c.ctx.seq.toNat ≤ 4 := by
  rw [← exists_mapSel_code_iff, ← exists_kind_code_iff, ← exists_seq_code_iff]
  simp only [decodeReference_eq_ok]
  constructor
  · rintro ⟨-, m, k, q, hm, hk, hq, rfl⟩
    exact ⟨⟨m, hm⟩, ⟨k, hk⟩, ⟨q, hq⟩⟩
  · rintro ⟨⟨m, hm⟩, ⟨k, hk⟩, ⟨q, hq⟩⟩
    exact ⟨_, m, k, q, hm, hk, hq, rfl⟩

theorem exists_decodeIndexed {mk : BitVec 4 → Instr} {c : Command} :
    (∃ i, decodeIndexed mk c = .ok i) ↔ (cmdR c.cmd).toNat ≤ 7 := by
  simp [decodeIndexed_eq_ok, tableIndexOk]

theorem exists_decodeOperands {op : Op} {c : Command} :
    (∃ i, decodeOperands op c = .ok i) ↔ OperandsLegal op c := by
  cases op with
  | xlate | probe => exact exists_decodeReference.trans ⟨fun h => ⟨fun _ => h, nofun⟩, fun h => h.1 rfl⟩
  | wrTb =>
    exact (exists_decodeIndexed (mk := fun idx => .wrTb idx c.data)).trans
      ⟨fun h => ⟨nofun, fun _ => h⟩, fun h => h.2 rfl⟩
  | rdTb => exact exists_decodeIndexed.trans ⟨fun h => ⟨nofun, fun _ => h⟩, fun h => h.2 rfl⟩
  | _ => exact ⟨fun _ => ⟨nofun, nofun⟩, fun _ => ⟨_, rfl⟩⟩

/-- R97 lists what the decoder rejects. -/
theorem exists_decode_iff {c : Command} : (∃ i, decode c = .ok i) ↔ ¬ IllegalCommand c := by
  by_cases hcode : ∃ op, cmdOp c.cmd = (rowOfOp op).code
  · obtain ⟨op, hop⟩ := hcode
    rw [not_illegalCommand_iff_of_code hop, ← exists_decodeOperands]
    simp only [decode_eq_ok_of_code hop, exists_and_left]
  · have hill : IllegalCommand c := illegalCommand_iff.2 (.inl (mt toNat_mem_legalCodes.1 hcode))
    exact ⟨fun ⟨_, h⟩ => absurd (exists_code_of_decode h) hcode, fun h => absurd hill h⟩

theorem step_rejected {s : State} {c : Command} {rest : List Input} (hp : s.port = .command c :: rest)
    (hd : ¬ ∃ i, decode c = .ok i) : step s = .next (answerIllegal { s with port := rest }) := by
  cases h : decode c with
  | ok i => exact absurd ⟨i, h⟩ hd
  | error r => simp [step, hp, h]

/-- Settles O3: `exists_decode_iff` says which commands are illegal, `step_rejected` what the step answers. -/
theorem illegalCommandAnswersIllegal : Obligations.IllegalCommandAnswersIllegal :=
  fun _ _ _ hp => ⟨fun h => step_rejected hp fun hd => exists_decode_iff.1 hd h, exists_decode_iff.2⟩

/-! ## The prologue (R99, R129) -/

theorem tableRegisterExists_iff {cfg : Config} {idx : BitVec 4} :
    tableRegisterExists cfg idx = true ↔ LegalTableIndex cfg idx := by
  cases h : cfg.gen <;> simp [tableRegisterExists, LegalTableIndex, h]

/-- What the configuration lacks (R99): a table register, or the address break. -/
theorem legalHere_eq_false_iff {cfg : Config} {i : Instr} :
    legalHere cfg i = false ↔
      (∃ idx, ((∃ d, i = .wrTb idx d) ∨ i = .rdTb idx) ∧ ¬ LegalTableIndex cfg idx) ∨
      (((∃ cond va, i = .armAbk cond va) ∨ i = .disarmAbk) ∧ cfg.hasAbk = false) := by
  cases i <;> simp [legalHere, ← tableRegisterExists_iff]

theorem exec_eq_runCommand_legalHere {i : Instr} (hr : i ≠ .reset) (s : State) :
    ∃ f, exec i s = runCommand (legalHere s.cfg i) f s := by
  cases i with
  | xlate m k va ctx => exact ⟨_, exec_xlate_eq m k va ctx s⟩
  | probe m k va ctx => exact ⟨_, exec_probe_eq m k va ctx s⟩
  | _ => exact ⟨_, exec_eq_plainUpdate (by simp) (by simp) hr s⟩

theorem unchanged_respond_beginCommand (st : Status) (r0 r1 : Word) (s : State) :
    Unchanged [] s (respond st r0 r1 (beginCommand s)) :=
  (unchanged_beginCommand s).trans (unchanged_respond st r0 r1 _)

/-- Settles O10: the two tests of the prologue, in their order. -/
theorem prologueAnswersIllegalThenFatal : Obligations.PrologueAnswersIllegalThenFatal := by
  intro i s absent
  have habsent : absent ↔ legalHere s.cfg i = false := legalHere_eq_false_iff.symm
  rw [habsent, Bool.not_eq_false]
  constructor
  · intro hl
    have hr : i ≠ .reset := by rintro rfl; cases hl
    obtain ⟨f, he⟩ := exec_eq_runCommand_legalHere hr s
    exact ⟨answerIllegal s, by rw [he, hl, runCommand_illegal], rfl, rfl, unchanged_respond_beginCommand ..⟩
  · intro hl hs hr
    obtain ⟨f, he⟩ := exec_eq_runCommand_legalHere hr s
    exact ⟨answerHalted s, by rw [he, hl, runCommand_halted hs], rfl, rfl, unchanged_respond_beginCommand ..⟩

/-- A command that exists, is no reference and is not RESET, given to a running PU. -/
theorem exec_plain_running {i : Instr} (hx : ∀ m k va ctx, i ≠ .xlate m k va ctx)
    (hp : ∀ m k va ctx, i ≠ .probe m k va ctx) (hr : i ≠ .reset) {s : State} (hl : legalHere s.cfg i = true)
    (hs : s.halted = false) :
    exec i s = .next (respond .ok (plainReply i (beginCommand s)) 0 (plainUpdate i (beginCommand s))) := by
  rw [exec_eq_plainUpdate hx hp hr, hl, runCommand_running hs]

/-! ## RD_UBR and WR_UBR (R103, R184, R185) -/

theorem decode_wrUbr_image {c : Command} (hc : c.cmd = 0o070000000000) {selAc ldUbr : Bool} {cab pab : BitVec 3}
    {ubp : Ppn} (hd : c.data = ubrImage selAc ldUbr cab pab ubp) : decode c = .ok (.wrUbr selAc ldUbr cab pab ubp) := by
  have hcmd : CmdOf .wrUbr c.cmd := by rw [hc]; exact cmdOf_encode (.wrUbr false false 0 0 0)
  exact decode_eq_ok.2 ⟨.wrUbr, hcmd, by simp [decodeOperands, hd]⟩

theorem baseOfPage_eq (p : Ppn) : baseOfPage p = BitVec.ofNat 22 (p.toNat * 512) := by
  apply BitVec.eq_of_toNat_eq
  have := p.isLt
  simp only [baseOfPage, toNat_append_add, BitVec.ofNat_eq_ofNat, BitVec.toNat_ofNat]
  omega

/-- Settles O45: the word is the image with both flags set, so WR_UBR of it selects the blocks and loads the base. -/
theorem rdUbrWordWrittenBackRestores : Obligations.RdUbrWordWrittenBackRestores := by
  intro s t u w c hs hu ht hw hcmd hdata
  rw [exec_plain_running (by simp) (by simp) (by simp) rfl hs] at ht
  cases ht
  cases hw
  refine ⟨_, _, decode_wrUbr_image hcmd hdata, exec_plain_running (by simp) (by simp) (by simp) rfl hu, rfl, ?_⟩
  simp [plainUpdate, writeUbr, baseOfPage_eq]

/-! ## MEMDIAG (R106, R236, R238) -/

/-- A reply is 0 or has the layout of R106. -/
theorem memdiagReply_cases (cfg : Config) (ctl fn : BitVec 5) :
    memdiagReply cfg ctl fn = 0 ∨ ∃ (present : Bool) (size : BitVec 14), memdiagReply cfg ctl fn =
      BitVec.ofNat 36 (present.toNat * 2 ^ 35 + ctl.toNat * 2 ^ 30 + fn.toNat * 2 ^ 25 + size.toNat) := by
  obtain ⟨r, hr⟩ : ∃ r, memdiagReply cfg ctl fn = memdiagWord ctl fn r := ⟨_, rfl⟩
  rw [hr]
  cases r with
  | noController => exact .inl rfl
  | controller present size => exact .inr ⟨present, size, memdiagWord_controller ctl fn present size⟩

theorem memdiagReply_of_first {cfg : Config} {ctl fn : BitVec 5} {r : MemdiagReply} {rows : List MemdiagRow}
    (h : cfg.memdiag = ⟨ctl, fn, r⟩ :: rows) : memdiagReply cfg ctl fn = memdiagWord ctl fn r := by
  simp [memdiagReply, h]

theorem memdiagReply_of_none {cfg : Config} (h : cfg.memdiag = []) (ctl fn : BitVec 5) :
    memdiagReply cfg ctl fn =
      if ctl = 0 then BitVec.ofNat 36 (2 ^ 35 + ctl.toNat * 2 ^ 30 + fn.toNat * 2 ^ 25 + 0o20000) else 0 := by
  have hdefault : memdiagReply cfg ctl fn = memdiagWord ctl fn (memdiagDefault ctl) := by simp [memdiagReply, h]
  rw [hdefault, memdiagDefault]
  split_ifs
  · simp [memdiagWord_controller]
  · rfl

/-- Settles O57: the reply in general, of the first row listed, and of no row. -/
theorem memdiagReportsTheTopology : Obligations.MemdiagReportsTheTopology := by
  intro s ctl fn hs
  have answers {w : Word} (h : memdiagReply s.cfg ctl fn = w) :
      Answers (respond .ok (memdiagReply s.cfg ctl fn) 0 (beginCommand s)) .ok w 0 := by rw [h]; rfl
  refine ⟨_, exec_plain_running (by simp) (by simp) (by simp) rfl hs, rfl, rfl, unchanged_respond_beginCommand ..,
    ?_, ?_, ?_⟩
  · obtain h | ⟨present, size, h⟩ := memdiagReply_cases s.cfg ctl fn
    · exact .inl (answers h)
    · exact .inr ⟨present, size, answers h⟩
  · exact fun rows present size h =>
      answers ((memdiagReply_of_first h).trans (memdiagWord_controller ctl fn present size))
  · exact fun h => answers (memdiagReply_of_none h ctl fn)

end Sys2Proof.Machine

/-! # Translation: the cache, the physical map and PROBE (spec 40_translate.md R120 to R127) -/

namespace Sys2Proof.Machine

open Sys2Proof

/-! ## Hits (R121, R122) -/

theorem hit_iff {e : Entry} {k : Kind} :
    hit e k = true ↔ (k = .write ∧ e.acc.vw = true) ∨ ((k = .fetch ∨ k = .read) ∧ e.acc.vr = true) := by
  cases k <;> simp [hit]

/-- A reference a cache answers: the response is all that changes. -/
theorem exec_xlate_of_hit {s : State} {m : Mode} {k : Kind} {va : VAddr} (hs : s.halted = false)
    (hsec : illegalSection s.cfg (decompose s.cfg va) = false)
    (hh : hit (lookup s m (decompose s.cfg va).vp) k = true) (ctx : Ctx) :
    exec (.xlate (modeMap m) k va ctx) s =
      .next (respond .ok (physWord (lookup s m (decompose s.cfg va).vp).ppn.toNat (decompose s.cfg va).off) 0
        (beginCommand s)) := by
  rw [exec_xlate_running hs, xlateEffect_modeMap]
  simp [translate, hsec, hh]

/-- A reference no cache answers is refilled (R122). -/
theorem exec_xlate_of_miss {s : State} {m : Mode} {k : Kind} {va : VAddr} (hs : s.halted = false)
    (h : illegalSection s.cfg (decompose s.cfg va) = true ∨ hit (lookup s m (decompose s.cfg va).vp) k = false)
    (ctx : Ctx) : exec (.xlate (modeMap m) k va ctx) s = refill false m va k ctx (beginCommand s) := by
  rw [exec_xlate_running hs, xlateEffect_modeMap]
  rcases h with h | h <;> simp [translate, h]

/-- Settles O17: `hit_iff` reads the hypothesis as a hit, `exec_xlate_of_hit` gives the next state. -/
theorem xlateHitAnswersFromTheCache : Obligations.XlateHitAnswersFromTheCache := by
  intro s m k va ctx hs p hsec hvalid
  exact ⟨_, exec_xlate_of_hit hs hsec (hit_iff.2 hvalid) ctx, rfl, rfl, rfl, unchanged_respond_beginCommand ..⟩

/-! ## The words of a reference (R73, R108) -/

theorem probeWord_ofNat {n : Nat} (h : n < 2 ^ 34) (tw cw : Bool) :
    probeWord (BitVec.ofNat 36 n) tw cw = BitVec.ofNat 36 (tw.toNat * 2 ^ 35 + cw.toNat * 2 ^ 34 + n) := by
  apply BitVec.eq_of_toNat_eq
  rw [probeWord]
  simp only [toNat_append_add, encodeBit_toNat, BitVec.extractLsb'_toNat, BitVec.toNat_ofNat, Nat.shiftRight_zero]
  have htw := tw.toNat_le
  have hcw := cw.toNat_le
  omega

/-- TW and CW lie above the address. -/
theorem probeWord_mod {n : Nat} (h : n < 2 ^ 22) (tw cw : Bool) :
    (probeWord (BitVec.ofNat 36 n) tw cw).toNat % 2 ^ 22 = n := by
  rw [probeWord_ofNat (by omega), BitVec.toNat_ofNat]
  omega

/-! ## The physical map (R124) -/

theorem physMapAddress_toNat (va : VAddr) : (physMapAddress va).toNat = va.toNat % 2 ^ 22 := by
  simp [physMapAddress]

theorem zero_append_physMapAddress (n : Nat) (va : VAddr) :
    (0 : BitVec n) ++ physMapAddress va = BitVec.ofNat (n + 22) (va.toNat % 2 ^ 22) := by
  have fits : va.toNat % 2 ^ 22 < 2 ^ (n + 22) :=
    (Nat.mod_lt _ (by decide)).trans_le (Nat.pow_le_pow_right (by decide) (Nat.le_add_left 22 n))
  apply BitVec.eq_of_toNat_eq
  rw [toNat_append_add, physMapAddress_toNat, BitVec.toNat_ofNat, Nat.mod_eq_of_lt fits]
  simp

section physMap
variable {s : State} (hs : s.halted = false) {va : VAddr} (k : Kind) (ctx : Ctx)
include hs

theorem exec_xlate_phys_of_exists (h : va.toNat % 2 ^ 22 < s.cfg.physWords) :
    exec (.xlate .phys k va ctx) s =
      .next (respond .ok (BitVec.ofNat 36 (va.toNat % 2 ^ 22)) 0 (beginCommand s)) := by
  rw [exec_xlate_running hs, xlateEffect, physMap, zero_append_physMapAddress, physMapAddress_toNat]
  exact congrArg _ (if_pos h)

theorem exec_probe_phys_of_exists (h : va.toNat % 2 ^ 22 < s.cfg.physWords) :
    exec (.probe .phys k va ctx) s =
      .next (respond .ok (probeWord (BitVec.ofNat 36 (va.toNat % 2 ^ 22)) true true) 0 (beginCommand s)) := by
  rw [exec_probe_running hs, probeEffect, physMap, zero_append_physMapAddress, physMapAddress_toNat]
  exact congrArg _ (if_pos h)

theorem exec_probe_phys_of_missing (h : s.cfg.physWords ≤ va.toNat % 2 ^ 22) :
    exec (.probe .phys k va ctx) s =
      .next (declareFault (BitVec.ofNat 30 (va.toNat % 2 ^ 22)) k .phys .physmapNxm ctx false (beginCommand s)) := by
  rw [exec_probe_running hs, probeEffect, physMap, zero_append_physMapAddress 8, physMapAddress_toNat]
  exact congrArg _ (if_neg (not_lt.2 h))

end physMap

/-- Settles O18, by whether the word exists. -/
theorem physicalMapIsTheIdentityWhereMemoryExists : Obligations.PhysicalMapIsTheIdentityWhereMemoryExists := by
  intro s k va ctx hs pa
  refine ⟨fun h => ⟨?_, ?_⟩, fun h => ?_⟩
  · exact ⟨_, exec_xlate_phys_of_exists hs k ctx h, rfl, rfl, unchanged_respond_beginCommand ..⟩
  · refine ⟨_, exec_probe_phys_of_exists hs k ctx h, ?_, rfl, unchanged_respond_beginCommand ..⟩
    rw [probeWord_ofNat (by omega)]
    rfl
  · exact ⟨_, exec_probe_phys_of_missing hs k ctx h, softFailed_declareFault ..⟩

/-! ## References that complete (R122, R140) -/

/-- A declared fault is never answered OK (R262, R264). -/
theorem declareFault_not_ok {addr : VAddr} {k : Kind} {m : MapSel} {c : Cause} {ctx : Ctx} {trapAllowed : Bool}
    {s : State} {r0 r1 : Word} : ¬ Answers (declareFault addr k m c ctx trapAllowed s) .ok r0 r1 := by
  cases trapAllowed with
  | false => simp [declareFault_false]
  | true =>
    rw [declareFault_true]
    obtain ⟨-, -, -, -, -, -, -, answer, -⟩ := trap_spec (faultWord (describeFault addr k m c)) ctx
      (recordFault (describeFault addr k m c) s)
    obtain ⟨code, -, -, -, hr⟩ | ⟨-, -, st, q0, q1, hr, rfl | rfl⟩ := answer <;> simp [Answers, hr]

/-- A refill answered OK resolved, matched no break and installed its entry. -/
theorem refill_completes {isProbe : Bool} {m : Mode} {va : VAddr} {k : Kind} {ctx : Ctx} {s t : State} {r0 r1 : Word}
    (ht : refill isProbe m va k ctx s = .next t) (ha : Answers t .ok r0 r1) :
    ∃ ppn wperm status, illegalSection s.cfg (decompose s.cfg va) = false ∧
      resolve s m (decompose s.cfg va) k = .ok ppn wperm status ∧
      abkMatch s m (decompose s.cfg va) k ctx.nonint = false ∧
      t = respond .ok (refillWord isProbe ppn (decompose s.cfg va).off wperm (grantedWrite s wperm status k)) 0
        (commitRefill m (decompose s.cfg va).vp k ppn wperm status s) := by
  obtain ⟨c, h, -⟩ | ⟨ppn, wperm, status, hsec, hres, habk, h⟩ | ⟨-, -, h⟩ := refill_cases isProbe m va k ctx s
  · cases h.symm.trans ht
    exact absurd ha declareFault_not_ok
  · cases h.symm.trans ht
    exact ⟨ppn, wperm, status, hsec, hres, habk, rfl⟩
  · cases h.symm.trans ht

/-- The page of a reference that resolves fits the ppn field of an entry (R10, R168). -/
theorem Inv.resolved_lt {s : State} (h : Inv s) {m : Mode} {p : VParts} {k : Kind} {ppn : Nat} {wperm : Bool}
    {status : Option (Nat × Word)} (hr : resolve s m p k = .ok ppn wperm status) : ppn < 2 ^ 13 := by
  obtain ⟨-, -, -, -, hpages, -⟩ := h.config
  obtain ⟨hppn, -⟩ := resolve_eq_ok hr
  omega

/-! ## A second reference (R122 corner case b) -/

/-- The entry a refill installs answers the reference that asked for it: a WRITE that resolved has vw. -/
theorem hit_refillEntry {s : State} {m : Mode} {p : VParts} {k : Kind} {ppn : Nat} {wperm : Bool}
    {status : Option (Nat × Word)} (hr : resolve s m p k = .ok ppn wperm status) :
    hit (refillEntry ppn (grantedWrite s wperm status k)) k = true := by
  obtain ⟨-, hw, -⟩ := resolve_eq_ok hr
  cases k with
  | fetch => rfl
  | read => rfl
  | write => exact grantedWrite_write (hw rfl)

/-- After an XLATE that completed, the cache holds the entry it was answered with. -/
theorem cached_of_xlate_ok {s t : State} {m : Mode} {k : Kind} {va : VAddr} {ctx : Ctx} {r0 r1 : Word} (inv : Inv s)
    (hs : s.halted = false) (ht : exec (.xlate (modeMap m) k va ctx) s = .next t) (ha : Answers t .ok r0 r1) :
    illegalSection s.cfg (decompose s.cfg va) = false ∧ t.cfg = s.cfg ∧ t.halted = false ∧
      hit (lookup t m (decompose s.cfg va).vp) k = true ∧
      r0 = physWord (lookup t m (decompose s.cfg va).vp).ppn.toNat (decompose s.cfg va).off := by
  by_cases hc : illegalSection s.cfg (decompose s.cfg va) = false ∧ hit (lookup s m (decompose s.cfg va).vp) k = true
  · obtain ⟨hsec, hh⟩ := hc
    rw [exec_xlate_of_hit hs hsec hh] at ht
    cases ht; cases ha
    exact ⟨hsec, rfl, hs, by simpa using hh, by simp⟩
  · rw [exec_xlate_of_miss hs (by simpa [or_iff_not_imp_left] using hc)] at ht
    obtain ⟨ppn, wperm, status, hsec, hres, -, rfl⟩ := refill_completes ht ha
    cases ha
    have entry : lookup (commitRefill m (decompose s.cfg va).vp k ppn wperm status (beginCommand s)) m
        (decompose s.cfg va).vp = refillEntry ppn (grantedWrite (beginCommand s) wperm status k) := by
      rw [lookup_commitRefill (tlbWf_beginCommand inv.tlbCanonical m), if_pos ⟨rfl, rfl⟩]
    have ppn_lt : ppn < 2 ^ 13 := inv.beginCommand.resolved_lt hres
    simp only [beginCommand_cfg, lookup_respond, entry]
    refine ⟨hsec, by simp, by simpa using hs, hit_refillEntry hres, ?_⟩
    rw [refillEntry, BitVec.toNat_ofNat, Nat.mod_eq_of_lt ppn_lt]
    rfl

/-- The section is the high part of the page number (R72). -/
theorem decompose_sect (cfg : Config) (va : VAddr) : (decompose cfg va).sect = (decompose cfg va).vp / 512 := by
  have hpg := (decompose cfg va).pg.isLt
  have hvp : (decompose cfg va).vp = (decompose cfg va).sect * 512 + (decompose cfg va).pg.toNat := rfl
  omega

/-- Settles O19: the entry the first reference left (`cached_of_xlate_ok`) answers the second. -/
theorem secondReferenceToAPageHits : Obligations.SecondReferenceToAPageHits := by
  intro s t m k va va' ctx ctx' r0 r1 inv hs ht ha hvp
  obtain ⟨hsec, hcfg, hrun, hh, hr0⟩ := cached_of_xlate_ok inv hs ht ha
  rw [← hcfg] at hsec hvp hh hr0 ⊢
  have hsec' : illegalSection t.cfg (decompose t.cfg va') = false := by
    rwa [illegalSection, decompose_sect, hvp, ← decompose_sect]
  rw [← hvp] at hh hr0
  have hword : r0.toNat / 512 = (lookup t m (decompose t.cfg va').vp).ppn.toNat := by
    have hoff := (decompose t.cfg va).off.isLt
    rw [hr0, physWord_toNat _ _ (BitVec.isLt _)]
    omega
  refine ⟨_, exec_xlate_of_hit hrun hsec' hh ctx', ?_, rfl, unchanged_respond_beginCommand ..⟩
  rw [hword]
  rfl

/-! ## PROBE (R127) -/

/-- Settles O20, by the ways a reference ends: of PROBE every fault soft-fails, everything else is answered OK. -/
theorem probeCompletesOrSoftFails : Obligations.ProbeCompletesOrSoftFails := by
  intro s t m k va ctx hs ht
  have hend := probeEffect_ends m k va ctx (beginCommand s)
  rw [← exec_probe_running hs, ht] at hend
  cases hend with
  | answered r0 => exact .inl ⟨r0, rfl⟩
  | installed m' ppn wperm status => exact .inl ⟨_, rfl⟩
  | faulted addr c =>
    obtain ⟨-, answer, sts, events, frame⟩ := softFailed_declareFault (s := s) addr k m c ctx
    exact .inr ⟨answer, events, frame, sts⟩

/-! ## XLATE and PROBE walk alike (R122, R127, R140) -/

/-- Where no cache answers: the same resolve and commit phases, another word. -/
theorem exec_xlate_of_probe_ok {s u : State} {m : Mode} {k : Kind} {va : VAddr} {ctx : Ctx} {w : Word} (inv : Inv s)
    (hs : s.halted = false)
    (hmiss : illegalSection s.cfg (decompose s.cfg va) = true ∨ hit (lookup s m (decompose s.cfg va).vp) k = false)
    (hu : exec (.probe (modeMap m) k va ctx) s = .next u) (ha : Answers u .ok w 0) :
    exec (.xlate (modeMap m) k va ctx) s =
      .next { u with resp := some ⟨.ok, BitVec.ofNat 36 (w.toNat % 2 ^ 22), 0⟩ } := by
  rw [exec_probe_running hs, probeEffect_modeMap] at hu
  obtain ⟨ppn, wperm, status, hsec, hres, habk, rfl⟩ := refill_completes hu ha
  have word : w.toNat % 2 ^ 22 = ppn * 512 + (decompose s.cfg va).off.toNat := by
    have ppn_lt : ppn < 2 ^ 13 := inv.beginCommand.resolved_lt hres
    have hoff := (decompose s.cfg va).off.isLt
    cases ha
    exact probeWord_mod (by omega) ..
  rw [exec_xlate_of_miss hs hmiss, refill_of_ok hsec hres habk, word]
  rfl

/-- Settles O21: the physical map by its definition, a cached map by `exec_xlate_of_probe_ok`. -/
theorem xlateMissInstallsWhatProbeInstalls : Obligations.XlateMissInstallsWhatProbeInstalls := by
  intro s u m k va ctx w inv hs hmiss hu ha
  cases m with
  | exec => exact exec_xlate_of_probe_ok (m := .exec) inv hs hmiss hu ha
  | user => exact exec_xlate_of_probe_ok (m := .user) inv hs hmiss hu ha
  | phys =>
    by_cases h : va.toNat % 2 ^ 22 < s.cfg.physWords
    · cases (exec_probe_phys_of_exists hs k ctx h).symm.trans hu
      cases ha
      rw [probeWord_mod (Nat.mod_lt _ (by decide))]
      exact exec_xlate_phys_of_exists hs k ctx h
    · cases (exec_probe_phys_of_missing hs k ctx (not_lt.1 h)).symm.trans hu
      exact absurd ha declareFault_not_ok

end Sys2Proof.Machine

/-! # The refill engine: the walkers, seen through PROBE (spec 41_refill.md R140 to R168) -/

namespace Sys2Proof.Machine

open Sys2Proof

/-! ## The resolve phase of each kind of PU (R140) -/

theorem resolve_of_paging_off {s : State} (h : s.pager.pge = false) (m : Mode) (p : VParts) (k : Kind) :
    resolve s m p k = resolveIdentity s p.vp := if_pos h

section paging
variable {s : State} (hpge : s.pager.pge = true) (m : Mode) (p : VParts) (k : Kind)
include hpge

theorem resolve_of_flatIts (hgen : s.cfg.gen = .flatIts) : resolve s m p k = resolveIts s m p.pg k := by
  simp [resolve, hpge, hgen]

theorem resolve_of_flatMid (hgen : s.cfg.gen = .flatMid) : resolve s m p k = resolveMid s m p.pg k := by
  simp [resolve, hpge, hgen]

theorem resolve_of_multi (hgen : s.cfg.gen = .multi) : resolve s m p k = resolveMulti s m p.sect p.pg k := by
  simp [resolve, hpge, hgen]

end paging

/-! ## The range test that ends every walk (R168) -/

theorem inRange_of_lt {cfg : Config} {ppn : Nat} (h : ppn < cfg.physPages) (r : Resolved) : inRange cfg ppn r = r :=
  if_neg (not_le.2 h)

theorem inRange_of_le {cfg : Config} {ppn : Nat} (h : cfg.physPages ≤ ppn) (r : Resolved) :
    inRange cfg ppn r = .fail .ppnRange := if_pos h

/-! ## PROBE after a walk without a status record (R141, R147, R151) -/

section walked
variable {s : State} {m : Mode} {k : Kind} {va : VAddr} {ctx : Ctx} {ppn : Nat}

/-- The walk reached a page that is not in memory. -/
theorem probe_of_page_beyond (hs : s.halted = false) (hsec : illegalSection s.cfg (decompose s.cfg va) = false)
    {r : Resolved} (hr : resolve s m (decompose s.cfg va) k = inRange s.cfg ppn r) (h : s.cfg.physPages ≤ ppn) :
    ∃ t, exec (.probe (modeMap m) k va ctx) s = .next t ∧
      SoftFailed s t (decompose s.cfg va).va k (modeMap m) .ppnRange :=
  probe_of_resolve_fail hs hsec (hr.trans (inRange_of_le h r))

/-- The walk reached a page of memory, and no break matches: TW = CW = vw = wperm, PhysicalStore is not written. -/
theorem probe_of_page (inv : Inv s) (hs : s.halted = false)
    (hsec : illegalSection s.cfg (decompose s.cfg va) = false) {wperm : Bool}
    (hr : resolve s m (decompose s.cfg va) k = inRange s.cfg ppn (.ok ppn wperm none)) (h : ppn < s.cfg.physPages)
    (ha : abkMatch s m (decompose s.cfg va) k ctx.nonint = false) :
    ∃ t, exec (.probe (modeMap m) k va ctx) s = .next t ∧
      Installed s t m (decompose s.cfg va).vp ⟨⟨true, wperm⟩, BitVec.ofNat 13 ppn⟩
        (BitVec.ofNat 36 ((if wperm then 2 ^ 35 + 2 ^ 34 else 0) + ppn * 512 + (decompose s.cfg va).off.toNat)) ∧
      t.mem = s.mem ∧ t.events = [] := by
  obtain ⟨t, ht, hi, hmem, hev⟩ := probe_of_resolve_ok inv hs hsec (hr.trans (inRange_of_lt h _)) ha
  refine ⟨t, ht, ?_, hmem, hev⟩
  rw [grantedWrite] at hi
  cases wperm <;> exact hi

end walked

/-! ## Paging off (R141) -/

/-- Settles O22: with paging off the resolve phase is the range test alone. -/
theorem pagingOffIsTheIdentityMap : Obligations.PagingOffIsTheIdentityMap := by
  intro s m k va ctx inv hs hpge p hsec
  have hr := resolve_of_paging_off hpge m p k
  exact ⟨fun h ha => probe_of_page inv hs hsec hr h ha, probe_of_page_beyond hs hsec hr⟩

/-! ## The entry of a flat table as numbers (R61, R145, R149) -/

/-- The parity of the page number selects the half of the word. -/
theorem halfEntry_parity (w : Word) (pg : BitVec 9) :
    (halfEntry w (pg.getLsbD 0)).toNat = if pg.toNat % 2 = 0 then w.toNat / 2 ^ 18 else w.toNat % 2 ^ 18 := by
  rw [halfEntry_toNat, BitVec.getLsbD, Nat.testBit_zero]
  rcases Nat.mod_two_eq_zero_or_one pg.toNat with h | h <;> simp [h]

theorem itsEntry_eq (s : State) (e : BitVec 18) (k : Kind) :
    itsEntry s e k =
      if e.toNat / 2 ^ 16 = 0 then .fail .itsNoAccess
      else if k = .write ∧ e.toNat / 2 ^ 16 ≠ 3 then .fail .itsWriteRo
      else inRange s.cfg (e.toNat % 2 ^ 13) (.ok (e.toNat % 2 ^ 13) (decide (e.toNat / 2 ^ 16 = 3)) none) := by
  have acc (n : BitVec 2) : e.extractLsb' 16 2 = n ↔ e.toNat / 2 ^ 16 = n.toNat := by
    have he := e.isLt
    rw [← BitVec.toNat_inj, BitVec.extractLsb'_toNat, Nat.shiftRight_eq_div_pow]
    omega
  have acc3 : (e.extractLsb' 16 2 == 3) = decide (e.toNat / 2 ^ 16 = 3) := decide_eq_decide.2 (acc 3)
  simp only [itsEntry, acc3, ne_eq, acc 0, acc 3, BitVec.extractLsb'_toNat, Nat.shiftRight_zero]
  rfl

theorem midEntry_eq (s : State) (e : BitVec 18) (k : Kind) :
    midEntry s e k =
      if e.toNat / 2 ^ 17 = 0 then .fail .midNoAccess
      else if k = .write ∧ e.toNat / 2 ^ 15 % 2 = 0 then .fail .midWriteRo
      else inRange s.cfg (e.toNat % 2 ^ 13) (.ok (e.toNat % 2 ^ 13) (decide (e.toNat / 2 ^ 15 % 2 = 1)) none) := by
  have bit (i : Nat) : e.getLsbD i = decide (e.toNat / 2 ^ i % 2 = 1) := Nat.testBit_eq_decide_div_mod_eq
  have hA : (e.getLsbD 17 = false) = (e.toNat / 2 ^ 17 = 0) := by
    have he := e.isLt
    rw [bit, decide_eq_false_iff_not, eq_iff_iff]
    omega
  have hW : (e.getLsbD 15 = false) = (e.toNat / 2 ^ 15 % 2 = 0) := by
    rw [bit, decide_eq_false_iff_not, eq_iff_iff]
    omega
  simp only [midEntry, hA, hW, BitVec.extractLsb'_toNat, Nat.shiftRight_zero]
  rw [bit 15]

/-! ## FLAT_ITS (R144 to R147) -/

/-- The top bit of the page number selects the table, the other eight the word (R144, R146). -/
theorem itsEntryAddress_eq (s : State) (m : Mode) (pg : BitVec 9) :
    itsEntryAddress s m pg = (itsBase s m (decide (0o400 ≤ pg.toNat))).toNat + pg.toNat % 0o400 / 2 := by
  have top : pg.getLsbD 8 = decide (0o400 ≤ pg.toNat) := BitVec.msb_eq_decide pg
  rw [itsEntryAddress, top, BitVec.extractLsb'_toNat]
  rfl

theorem itsBase_of_page (s : State) (m : Mode) (n : Nat) :
    itsBase s m (decide (0o400 ≤ n)) =
      if m = .user then (if n < 0o400 then s.pager.tb.userLow else s.pager.tb.userHigh)
      else (if n < 0o400 then s.pager.tb.execLow else s.pager.tb.execHigh) := by
  by_cases h : n < 0o400 <;> cases m <;> simp [itsBase, h]

/-- Settles O23: the word is missing, or its half goes through the checks of `itsEntry_eq` in their order. -/
theorem flatItsWalk : Obligations.FlatItsWalk := by
  intro s m k va ctx inv hs hpge hgen p pg tb base a
  have hsec : illegalSection s.cfg p = false := illegalSection_flat inv (by simp [hgen]) va
  have addr : itsEntryAddress s m p.pg = a := by
    rw [itsEntryAddress_eq, itsBase_of_page]
    cases m <;> rfl
  have walk : resolve s m p k = resolveIts s m p.pg k := resolve_of_flatIts hpge m p k hgen
  rw [resolveIts, addr] at walk
  refine ⟨fun h => probe_of_resolve_fail hs hsec (by rw [walk, memRead_eq_none.2 h]), ?_⟩
  intro w hw e acc ppn
  have entry : (halfEntry w (p.pg.getLsbD 0)).toNat = e := halfEntry_parity w p.pg
  simp only [hw, itsEntry_eq, entry] at walk
  have granted (h0 : acc ≠ 0) (hk : k = .write → acc = 3) :
      resolve s m p k = inRange s.cfg ppn (.ok ppn (decide (acc = 3)) none) := by
    rw [walk, if_neg h0, if_neg fun ⟨hwr, h3⟩ => h3 (hk hwr)]
  refine ⟨fun h0 => ?_, fun hk h12 => ?_, fun h0 hk hp => ?_, fun h0 hk hp ha => ?_⟩
  · exact probe_of_resolve_fail hs hsec (by rw [walk, if_pos h0])
  · exact probe_of_resolve_fail hs hsec (by rw [walk, if_neg (by omega), if_pos ⟨hk, by omega⟩])
  · exact probe_of_page_beyond hs hsec (granted h0 hk) hp
  · simpa only [decide_eq_true_eq] using probe_of_page inv hs hsec (granted h0 hk) hp ha

/-! ## FLAT_MID (R148 to R151) -/

/-- The four rows of R148, in the order of the pages. -/
theorem midEntryAddress_eq (s : State) (m : Mode) (pg : BitVec 9) :
    midEntryAddress s m pg =
      if m = .user then s.pager.ubase.toNat + pg.toNat / 2
      else if pg.toNat ≤ 0o337 then s.pager.ebase.toNat + s.cfg.midLoOff + pg.toNat / 2
      else if pg.toNat ≤ 0o377 then s.pager.ubase.toNat + s.cfg.midPpOff + (pg.toNat - 0o340) / 2
      else s.pager.ebase.toNat + s.cfg.midHiOff + (pg.toNat - 0o400) / 2 := by
  cases m with
  | user => rfl
  | exec =>
    simp only [midEntryAddress, reduceCtorEq, if_false]
    split_ifs <;> omega

/-- Settles O24: the word is missing, or its half goes through the checks of `midEntry_eq` in their order. -/
theorem flatMidWalk : Obligations.FlatMidWalk := by
  intro s m k va ctx inv hs hpge hgen p pg ubase ebase a
  have hsec : illegalSection s.cfg p = false := illegalSection_flat inv (by simp [hgen]) va
  have addr : midEntryAddress s m p.pg = a := midEntryAddress_eq s m p.pg
  have walk : resolve s m p k = resolveMid s m p.pg k := resolve_of_flatMid hpge m p k hgen
  rw [resolveMid, addr] at walk
  refine ⟨fun h => probe_of_resolve_fail hs hsec (by rw [walk, memRead_eq_none.2 h]), ?_⟩
  intro w hw e bitA bitW ppn
  have entry : (halfEntry w (p.pg.getLsbD 0)).toNat = e := halfEntry_parity w p.pg
  simp only [hw, midEntry_eq, entry] at walk
  have granted (hA : bitA = 1) (hk : k = .write → bitW = 1) :
      resolve s m p k = inRange s.cfg ppn (.ok ppn (decide (bitW = 1)) none) := by
    rw [walk, if_neg (by omega), if_neg fun ⟨hwr, h0⟩ => absurd (hk hwr) (by omega)]
  refine ⟨fun hA => ?_, fun hA hk hW => ?_, fun hA hk hp => ?_, fun hA hk hp ha => ?_⟩
  · exact probe_of_resolve_fail hs hsec (by rw [walk, if_pos hA])
  · exact probe_of_resolve_fail hs hsec (by rw [walk, if_neg (by omega), if_pos ⟨hk, hW⟩])
  · exact probe_of_page_beyond hs hsec (granted hA hk) hp
  · simpa only [decide_eq_true_eq] using probe_of_page inv hs hsec (granted hA hk) hp ha

/-! ## EvalPtr and chains of pointers (R156 to R163) -/

/-- A turn that reaches a page is a chain of one pointer. -/
theorem ptrChain_of_step {s : State} {level : Level} {ptr : Word} {start rts : BitVec 4} {pn : Nat}
    (h : ptrStep s level ptr start = .page pn rts) : PtrChain s ptr [ptrRights ptr] pn 0 := by
  obtain ⟨-, ⟨ht, hm, rfl⟩ | ⟨ht, e, he, hm, rfl⟩⟩ := ptrStep_page.1 h
  · exact .immediate ptr ht hm
  · exact .shared ptr e ht he hm

/-- Within the steps allowed a chain ends at a page or breaks; else the walk uses them up. -/
theorem chain_or_break_or_diverge (s : State) (level : Level) (left : Nat) (ptr : Word) (start : BitVec 4) :
    (∃ rs pn n, PtrChain s ptr rs pn n ∧ n ≤ left) ∨ (∃ c n, PtrFails s level ptr c n ∧ n ≤ left) ∨
      evalPtr s level left ptr start = .diverge := by
  induction left generalizing ptr start with
  | zero =>
    cases hstep : ptrStep s level ptr start with
    | fail c => exact .inr (.inl ⟨c, 0, ptrStep_fail.1 hstep, le_rfl⟩)
    | page pn rts => exact .inl ⟨_, pn, 0, ptrChain_of_step hstep, le_rfl⟩
    | follow a rts => exact .inr (.inr (by rw [evalPtr_eq, hstep]))
  | succ left ih =>
    cases hstep : ptrStep s level ptr start with
    | fail c => exact .inr (.inl ⟨c, 0, ptrStep_fail.1 hstep, Nat.zero_le _⟩)
    | page pn rts => exact .inl ⟨_, pn, 0, ptrChain_of_step hstep, Nat.zero_le _⟩
    | follow a rts =>
      obtain ⟨-, ht, e, he, hm, rfl⟩ := ptrStep_follow.1 hstep
      cases hnext : memRead s (ptrPage e * 512 + ptrIndex ptr) with
      | none => exact .inr (.inl ⟨_, 1, .noNext ptr e ht he hm hnext, Nat.le_add_left 1 left⟩)
      | some next =>
        obtain ⟨rs, pn, n, hc, hn⟩ | ⟨c, n, hf, hn⟩ | hd := ih next rts
        · exact .inl ⟨_, pn, n + 1, .indirect ptr e next rs pn n ht he hm hnext hc, Nat.succ_le_succ hn⟩
        · exact .inr (.inl ⟨c, n + 1, .indirect ptr e next c n ht he hm hnext hf, Nat.succ_le_succ hn⟩)
        · exact .inr (.inr (by rw [evalPtr_eq, hstep]; simpa only [hnext] using hd))

/-- `evalPtr_of_chain` with the steps left as a difference. -/
theorem evalPtr_of_chain_le {s : State} {ptr : Word} {rs : List (BitVec 4)} {pn n left : Nat}
    (h : PtrChain s ptr rs pn n) (hn : n ≤ left) (level : Level) (start : BitVec 4) :
    evalPtr s level left ptr start = .page pn (allRights start rs) (left - n) := by
  obtain ⟨rest, rfl⟩ := Nat.exists_eq_add_of_le' hn
  rw [Nat.add_sub_cancel]
  exact evalPtr_of_chain h start rest

section evalPtr
variable {s : State} {level : Level} {ptr : Word} {start : BitVec 4} {left : Nat}

theorem evalPtr_eq_page {pn : Nat} {rts : BitVec 4} {rest : Nat} :
    evalPtr s level left ptr start = .page pn rts rest ↔
      ∃ rs n, PtrChain s ptr rs pn n ∧ rts = allRights start rs ∧ left = rest + n := by
  constructor
  · intro h
    obtain ⟨rs, pn', n, hc, hn⟩ | ⟨c, n, hf, hn⟩ | hd := chain_or_break_or_diverge s level left ptr start
    · cases (evalPtr_of_chain_le hc hn level start).symm.trans h
      exact ⟨rs, n, hc, rfl, (Nat.sub_add_cancel hn).symm⟩
    · cases (evalPtr_of_breaks hf start left hn).symm.trans h
    · cases hd.symm.trans h
  · rintro ⟨rs, n, hc, rfl, rfl⟩
    exact evalPtr_of_chain hc start rest

theorem evalPtr_eq_fail {c : Cause} :
    evalPtr s level left ptr start = .fail c ↔ ∃ n, PtrFails s level ptr c n ∧ n ≤ left := by
  constructor
  · intro h
    obtain ⟨rs, pn, n, hc, hn⟩ | ⟨c', n, hf, hn⟩ | hd := chain_or_break_or_diverge s level left ptr start
    · cases (evalPtr_of_chain_le hc hn level start).symm.trans h
    · cases (evalPtr_of_breaks hf start left hn).symm.trans h
      exact ⟨n, hf, hn⟩
    · cases hd.symm.trans h
  · rintro ⟨n, hf, hn⟩
    exact evalPtr_of_breaks hf start left hn

theorem evalPtr_eq_diverge :
    evalPtr s level left ptr start = .diverge ↔
      (∀ rs pn n, PtrChain s ptr rs pn n → left < n) ∧ (∀ c n, PtrFails s level ptr c n → left < n) := by
  constructor
  · intro h
    refine ⟨fun rs pn n hc => not_le.1 fun hn => ?_, fun c n hf => not_le.1 fun hn => ?_⟩
    · cases (evalPtr_of_chain_le hc hn level start).symm.trans h
    · cases (evalPtr_of_breaks hf start left hn).symm.trans h
  · rintro ⟨hchain, hbreak⟩
    obtain ⟨rs, pn, n, hc, hn⟩ | ⟨c, n, hf, hn⟩ | hd := chain_or_break_or_diverge s level left ptr start
    · exact absurd (hchain rs pn n hc) (not_lt.2 hn)
    · exact absurd (hbreak c n hf) (not_lt.2 hn)
    · exact hd

end evalPtr

/-- Settles O25: a chain that ends or breaks decides EvalPtr, and `chain_or_break_or_diverge` leaves nothing else. -/
theorem evalPtrFollowsPointerChains : Obligations.EvalPtrFollowsPointerChains :=
  fun _ _ _ _ _ => ⟨fun _ _ _ => evalPtr_eq_page, fun _ => evalPtr_eq_fail, evalPtr_eq_diverge⟩

/-- Settles O26: a walk of more steps than memory has words has met some pointer twice (`endless_of_long`). -/
theorem exhaustedWalkNeverEnds : Obligations.ExhaustedWalkNeverEnds := by
  intro s level ptr start left hleft h more
  exact diverge_of_endless (endless_of_long hleft (pointerAfter_of_diverge h))

/-! ## The MULTI walk, level by level (R155, R160, R164) -/

theorem sectionPointerAddress_eq (s : State) (m : Mode) (sect : Nat) :
    sectionPointerAddress s m sect =
      (if m = .user then s.pager.ubase.toNat else s.pager.ebase.toNat) + s.cfg.sectOff + sect := by
  cases m <;> rfl

section multi
variable {s : State} {m : Mode} {sect : Nat} {pg : BitVec 9} {k : Kind}

theorem resolveMulti_of_missing (h : memRead s (sectionPointerAddress s m sect) = none) :
    resolveMulti s m sect pg k = .fail .nxmSectPtr := by simp only [resolveMulti, h]

theorem resolveMulti_of_breaks {sp : Word} {c : Cause} {n : Nat}
    (h : memRead s (sectionPointerAddress s m sect) = some sp) (hf : PtrFails s .sect sp c n)
    (hn : n ≤ indirectAllowance s.cfg) : resolveMulti s m sect pg k = .fail c := by
  simp only [resolveMulti, h, evalPtr_of_breaks hf _ _ hn]

theorem resolveMulti_of_chain {sp : Word} {rs : List (BitVec 4)} {pt n : Nat}
    (h : memRead s (sectionPointerAddress s m sect) = some sp) (hc : PtrChain s sp rs pt n)
    (hn : n ≤ indirectAllowance s.cfg) :
    resolveMulti s m sect pg k =
      resolvePagePointer s pt (allRights 0b1111 rs) (indirectAllowance s.cfg - n) pg k := by
  simp only [resolveMulti, h, evalPtr_of_chain_le hc hn]

variable {pt left : Nat} {rts : BitVec 4}

theorem resolvePagePointer_of_missing (h : memRead s (pt * 512 + pg.toNat) = none) :
    resolvePagePointer s pt rts left pg k = .fail .nxmPagePtr := by simp only [resolvePagePointer, h]

theorem resolvePagePointer_of_breaks {pp : Word} {c : Cause} {n : Nat} (h : memRead s (pt * 512 + pg.toNat) = some pp)
    (hf : PtrFails s .page pp c n) (hn : n ≤ left) : resolvePagePointer s pt rts left pg k = .fail c := by
  simp only [resolvePagePointer, h, evalPtr_of_breaks hf _ _ hn]

theorem resolvePagePointer_of_chain {pp : Word} {rs : List (BitVec 4)} {ppn n : Nat}
    (h : memRead s (pt * 512 + pg.toNat) = some pp) (hc : PtrChain s pp rs ppn n) (hn : n ≤ left) :
    resolvePagePointer s pt rts left pg k = resolveFinal s ppn (allRights rts rs) k := by
  simp only [resolvePagePointer, h, evalPtr_of_chain_le hc hn]

/-- Both chains end: the final level, with the rights of both. -/
theorem resolveMulti_of_chains {sp pp : Word} {rs1 rs2 : List (BitVec 4)} {ppn n1 n2 : Nat}
    (h1 : memRead s (sectionPointerAddress s m sect) = some sp) (hc1 : PtrChain s sp rs1 pt n1)
    (h2 : memRead s (pt * 512 + pg.toNat) = some pp) (hc2 : PtrChain s pp rs2 ppn n2)
    (hn : n1 + n2 ≤ indirectAllowance s.cfg) :
    resolveMulti s m sect pg k = resolveFinal s ppn (allRights 0b1111 (rs1 ++ rs2)) k := by
  rw [resolveMulti_of_chain h1 hc1 (by omega), resolvePagePointer_of_chain h2 hc2 (by omega), allRights_append]

end multi

/-- The age of a status record as a number (R162). -/
theorem statusAge_eq_zero {c : Word} : statusAge c = 0 ↔ c.toNat / 2 ^ 30 = 0 := by
  have hc := c.isLt
  rw [statusAge, ← BitVec.toNat_inj, BitVec.extractLsb'_toNat, Nat.shiftRight_eq_div_pow]
  simp
  omega

section final
variable {s : State} {ppn : Nat} (rts : BitVec 4) {k : Kind}

theorem resolveFinal_of_le (h : s.cfg.physPages ≤ ppn) : resolveFinal s ppn rts k = .fail .ppnRange :=
  inRange_of_le h _

variable (h : ppn < s.cfg.physPages)
include h

theorem resolveFinal_of_no_table (hcsb : s.pager.csb = 0) :
    resolveFinal s ppn rts k =
      if k = .write ∧ rts.getLsbD 2 = false then .fail .mlWriteRo else .ok ppn (rts.getLsbD 2) none := by
  rw [resolveFinal, inRange_of_lt h, if_pos hcsb]

theorem resolveFinal_of_no_record (hcsb : s.pager.csb ≠ 0) (hm : memRead s (s.pager.csb.toNat + ppn) = none) :
    resolveFinal s ppn rts k = .fail .nxmCst := by
  rw [resolveFinal, inRange_of_lt h, if_neg hcsb, hm]

theorem resolveFinal_of_record (hcsb : s.pager.csb ≠ 0) {c : Word}
    (hm : memRead s (s.pager.csb.toNat + ppn) = some c) :
    resolveFinal s ppn rts k =
      if c.toNat / 2 ^ 30 = 0 then .fail .mlAged
      else if k = .write ∧ rts.getLsbD 2 = false then .fail .mlWriteRo
      else .ok ppn (rts.getLsbD 2) (some (s.pager.csb.toNat + ppn, c)) := by
  rw [resolveFinal, inRange_of_lt h, if_neg hcsb, hm]
  simp only [checkStatus, statusAge_eq_zero]

end final

/-! ## The MULTI walk through PROBE (R160 to R168) -/

/-- Settles O28: each clause is the failure of one level of the walk, and `probe_of_resolve_fail`. -/
theorem multiWalkFailures : Obligations.MultiWalkFailures := by
  intro s m k va ctx hs hpge hgen p sectPtr Fails hsec
  have fails {c : Cause} (h : resolveMulti s m p.sect p.pg k = .fail c) : Fails c :=
    probe_of_resolve_fail hs hsec ((resolve_of_multi hpge m p k hgen).trans h)
  have addr : sectionPointerAddress s m p.sect = sectPtr := sectionPointerAddress_eq s m p.sect
  rw [← addr]
  refine ⟨fun h => fails (resolveMulti_of_missing h), fun sp hsp => ⟨?_, ?_⟩⟩
  · exact fun c n hf hn => fails (resolveMulti_of_breaks hsp hf hn)
  intro rs1 pt n1 hc1 hn1
  have pages := resolveMulti_of_chain (pg := p.pg) (k := k) hsp hc1 hn1
  refine ⟨fun h => fails (pages.trans (resolvePagePointer_of_missing h)), fun pp hpp => ⟨?_, ?_⟩⟩
  · exact fun c n hf hn => fails (pages.trans (resolvePagePointer_of_breaks hpp hf (by omega)))
  intro rs2 ppn n2 hc2 hn2 wperm ca
  have final := resolveMulti_of_chains (k := k) hsp hc1 hpp hc2 hn2
  refine ⟨fun h => ?_, fun h hcsb hca => ?_, fun h hcsb c hca hage => ?_, fun h hk hw hrec => ?_⟩
  · exact fails (final.trans (resolveFinal_of_le _ h))
  · exact fails (final.trans (resolveFinal_of_no_record _ h hcsb (memRead_eq_none.2 hca)))
  · exact fails (final.trans ((resolveFinal_of_record _ h hcsb hca).trans (if_pos hage)))
  · by_cases hcsb : s.pager.csb = 0
    · exact fails (final.trans ((resolveFinal_of_no_table _ h hcsb).trans (if_pos ⟨hk, hw⟩)))
    · obtain ⟨c, hca, hage⟩ := hrec.resolve_left hcsb
      refine fails (final.trans ((resolveFinal_of_record _ h hcsb hca).trans ?_))
      rw [if_neg hage, if_pos ⟨hk, hw⟩]

/-- The record masked, ORed and marked modified on a write (R165). -/
theorem statusUpdate_eq (s : State) (c : Word) (k : Kind) :
    statusUpdate s c k = ((c &&& s.pager.csm) ||| s.pager.pur) ||| (if k = .write then 1 else 0) := by
  by_cases hk : k = .write <;> simp [statusUpdate, hk]

/-- The commit phase writes the record it was given, and that word alone (R165). -/
theorem memRead_commitStatus {s : State} (hwf : Memory.wf s.mem) {ca : Nat} {c : Word} (h : memRead s ca = some c)
    (k : Kind) (a : Nat) :
    memRead (commitStatus (some (ca, c)) k s) a = if a = ca then some (statusUpdate s c k) else memRead s a := by
  obtain ⟨hlt, -⟩ := memRead_eq_some.1 h
  have hw := memWrite_eq_some.2 ⟨hlt, commitStatus_some h k⟩
  exact memRead_memWrite hwf hw a

theorem Installed.cfg_eq {s t : State} {m : Mode} {vp : Nat} {e : Entry} {r0 : Word} (h : Installed s t m vp e r0) :
    t.cfg = s.cfg := by
  obtain ⟨-, -, -, -, hcfg, -⟩ := h
  exact hcfg

/-- Settles O27: both chains end, so the final level decides: without a status table the entry is installed as the
rights give it, with one the record read is updated as well. -/
theorem multiWalkCompletes : Obligations.MultiWalkCompletes := by
  intro s m k va ctx sp pp rs1 rs2 pt ppn n1 n2 inv hs hpge hgen p wperm hsec hsp hc1 hpp hc2 hn hppn hk ha
  have final : resolve s m p k = resolveFinal s ppn (allRights 0b1111 (rs1 ++ rs2)) k := by
    rw [resolve_of_multi hpge m p k hgen]
    exact resolveMulti_of_chains (by rw [sectionPointerAddress_eq]; exact hsp) hc1 hpp hc2 hn
  have permitted : ¬ (k = .write ∧ wperm = false) := fun ⟨hwr, h⟩ => Bool.eq_false_iff.1 h (hk hwr)
  constructor
  · intro hcsb
    rw [resolveFinal_of_no_table _ hppn hcsb, if_neg permitted, ← inRange_of_lt hppn (.ok ..)] at final
    exact probe_of_page inv hs hsec final hppn ha
  · intro hcsb c hc hage c2 vw
    rw [resolveFinal_of_record _ hppn hcsb hc, if_neg hage, if_neg permitted] at final
    have written : statusUpdate s c k = c2 := statusUpdate_eq s c k
    have granted : grantedWrite s wperm (some (s.pager.csb.toNat + ppn, c)) k = vw := by rw [grantedWrite, written]
    obtain ⟨t, ht, hi, hmem, hev⟩ := probe_of_resolve_ok inv hs hsec final ha
    rw [granted] at hi
    have hc' : memRead (beginCommand s) (s.pager.csb.toNat + ppn) = some c := hc
    refine ⟨t, ht, hi, fun a => ?_, ?_⟩
    · rw [← written, memRead_congr hmem (hi.cfg_eq.trans (by simp))]
      exact memRead_commitStatus (s := beginCommand s) inv.memCanonical hc' k a
    · rw [← written, hev, commitStatus_some hc']
      rfl

/-! ## An illegal section (R140) -/

/-- With EXT the section is the top of the address, and the address stands as it is. -/
theorem decompose_of_ext {cfg : Config} (h : cfg.ext = true) (va : VAddr) :
    (decompose cfg va).va = va ∧ (decompose cfg va).sect = va.toNat / 2 ^ 18 := by
  have hva := va.isLt
  simp only [decompose, normaliseVa, h, if_true, BitVec.extractLsb'_toNat, Nat.shiftRight_eq_div_pow, true_and]
  omega

/-- Settles O29: the refill asks about the section before it resolves anything. -/
theorem illegalSectionIsReportedFirst : Obligations.IllegalSectionIsReportedFirst := by
  intro s m k va ctx hs hext hsect
  obtain ⟨haddr, hnum⟩ := decompose_of_ext hext va
  have hill : illegalSection s.cfg (decompose s.cfg va) = true := by
    rw [illegalSection, hext, hnum, decide_eq_true hsect]
    rfl
  refine ⟨_, ?_, softFailed_declareFault va k (modeMap m) .mlIllSect ctx⟩
  rw [exec_probe_running hs, probeEffect_modeMap, refill_of_illegal (s := beginCommand s) hill, beginCommand_cfg, haddr]
  rfl

end Sys2Proof.Machine

/-! # Cache maintenance and the pager registers (spec 42_maintenance.md R180 to R188) -/

namespace Sys2Proof.Machine

open Sys2Proof

/-! ## Frames of the updates -/

theorem unchanged_withPager (p : Pager) (s : State) : Unchanged [.pager] s { s with pager := p } :=
  unchanged_of_fields [.pager] rfl rfl (mem := by simp) (tlb := by simp) (pager := by simp) (acs := by simp)
    (fd := by simp) (abk := by simp) (hits := by simp) (sts := by simp) (halt := by simp)

theorem unchanged_select (nc np : BitVec 3) (s : State) : Unchanged [.acs] s (select nc np s) :=
  unchanged_of_fields [.acs] rfl rfl (mem := by simp) (tlb := by simp) (pager := by simp) (acs := by simp)
    (fd := by simp) (abk := by simp) (hits := by simp) (sts := by simp) (halt := by simp)

theorem unchanged_invalidateBoth (s : State) : Unchanged [.tlb, .abk] s (invalidateBoth s) :=
  unchanged_of_fields [.tlb, .abk] (by simp) (by simp) (mem := by simp) (tlb := by simp) (pager := by simp)
    (acs := by simp) (fd := by simp) (abk := by simp) (hits := by simp) (sts := by simp) (halt := by simp)

theorem unchanged_invalidateAddress (va : VAddr) (s : State) : Unchanged [.tlb, .abk] s (invalidateAddress va s) :=
  unchanged_of_fields [.tlb, .abk] (by simp) (by simp) (mem := by simp) (tlb := by simp) (pager := by simp)
    (acs := by simp) (fd := by simp) (abk := by simp) (hits := by simp) (sts := by simp) (halt := by simp)

/-- The latches apart, a command changes what its effect changes. -/
theorem Unchanged.answered {parts : List Part} {s t : State} (h : Unchanged parts (beginCommand s) t) (st : Status)
    (r0 r1 : Word) : Unchanged parts s (respond st r0 r1 t) := by
  simpa using ((unchanged_beginCommand s).trans h).trans (unchanged_respond st r0 r1 t)

/-! ## INVAL_ALL, and the invalidation every write of a pager register makes (R180, R182, R184, R186) -/

/-- A command that leaves the break alone and then invalidates both maps: `parts` is what it changed before. -/
theorem invalidateBoth_answered {parts : List Part} {s u : State} (h : Unchanged parts (beginCommand s) u)
    (hp : .abk ∉ parts) :
    AllInvalid (respond .ok 0 0 (invalidateBoth u)) ∧ SavedCleared s (respond .ok 0 0 (invalidateBoth u)) ∧
      Unchanged ([.tlb, .abk] ++ parts) s (respond .ok 0 0 (invalidateBoth u)) := by
  have hcfg : u.cfg = s.cfg := h.1
  have habk : u.abk = s.abk := h.2.2 .abk hp
  refine ⟨lookup_nil (by simp), ?_, ?_⟩
  · rw [SavedCleared, respond_abk, invalidateBoth_abk, hcfg, habk]
  · exact ((h.trans (unchanged_invalidateBoth u)).answered .ok 0 0).mono fun _ hx =>
      List.mem_append.2 (List.mem_append.1 hx).symm

/-- Settles O39: nothing is written before the invalidation. -/
theorem invalAllInvalidatesEveryEntry : Obligations.InvalAllInvalidatesEveryEntry := by
  intro s hs
  exact ⟨_, exec_plain_running (by simp) (by simp) (by simp) rfl hs, rfl, by simp,
    invalidateBoth_answered (Unchanged.refl [] _) (by simp)⟩

/-! ## INVAL_ONE (R181) -/

theorem invalidateAddress_of_illegal {s : State} {va : VAddr} (h : illegalSection s.cfg (decompose s.cfg va) = true) :
    invalidateAddress va s = s := if_pos h

theorem invalidateAddress_of_legal {s : State} {va : VAddr} (h : illegalSection s.cfg (decompose s.cfg va) = false) :
    invalidateAddress va s =
      invalidatePage .user (decompose s.cfg va).vp (invalidatePage .exec (decompose s.cfg va).vp s) :=
  if_neg (by simp [h])

theorem lookup_invalidatePage_both {s : State} (h : ∀ m, sparseWf Entry.invalid (tlbOf s m)) (vp : Nat) (m : Mode)
    (vp' : Nat) :
    lookup (invalidatePage .user vp (invalidatePage .exec vp s)) m vp' =
      if vp' = vp then Entry.invalid else lookup s m vp' := by
  rw [lookup_invalidatePage (invalidatePage_wf h .exec vp .user), lookup_invalidatePage (h .exec)]
  cases m <;> simp

/-- Settles O40, by whether the section is legal. -/
theorem invalOneInvalidatesThePageInBothMaps : Obligations.InvalOneInvalidatesThePageInBothMaps := by
  intro s va hs hwf p
  refine ⟨_, exec_plain_running (by simp) (by simp) (by simp) rfl hs, rfl, by simp,
    (unchanged_invalidateAddress va _).answered .ok 0 0, fun hsec => ?_, fun hsec => ⟨fun m vp => ?_, ?_⟩⟩
  · rw [plainUpdate, invalidateAddress_of_illegal (s := beginCommand s) hsec]
    exact unchanged_respond_beginCommand ..
  · rw [lookup_respond, plainUpdate, invalidateAddress_of_legal (s := beginCommand s) hsec,
      lookup_invalidatePage_both (tlbWf_beginCommand hwf), lookup_beginCommand]
    rfl
  · rw [respond_abk, plainUpdate, invalidateAddress_of_legal (s := beginCommand s) hsec, invalidatePage_both_abk]
    rfl

/-! ## EBR (R182, R183) -/

/-- Settles O41: the base is written, then both maps are invalidated. -/
theorem wrEbrLoadsTheBaseAndInvalidates : Obligations.WrEbrLoadsTheBaseAndInvalidates := by
  intro s ebp pge hs
  refine ⟨_, exec_plain_running (by simp) (by simp) (by simp) rfl hs, rfl, by simp, ?_,
    invalidateBoth_answered (unchanged_withPager _ _) (by simp)⟩
  simp [plainUpdate, baseOfPage_eq]

theorem ebrImage_eq (ebp : Ppn) (pge : Bool) :
    ebrImage ebp pge = BitVec.ofNat 36 (pge.toNat * 2 ^ 13 + ebp.toNat) := by
  apply BitVec.eq_of_toNat_eq
  have hpge := pge.toNat_le
  have hebp := ebp.isLt
  simp only [ebrImage, toNat_append_add, encodeBit_toNat, BitVec.ofNat_eq_ofNat, BitVec.toNat_ofNat]
  omega

/-- Settles O42: the answer is the image, `ebrImage_eq` its number. -/
theorem rdEbrReadsTheBaseAndTheEnable : Obligations.RdEbrReadsTheBaseAndTheEnable := by
  intro s hs
  refine ⟨_, exec_plain_running (by simp) (by simp) (by simp) rfl hs, ?_, rfl, unchanged_respond_beginCommand ..⟩
  rw [← ebrImage_eq]
  rfl

/-! ## UBR (R184, R185) -/

/-- The blocks are selected, or not, before the base is looked at. -/
theorem unchanged_selectIf (selAc : Bool) (cab pab : BitVec 3) (s : State) :
    Unchanged [.acs] s (if selAc then select cab pab s else s) := by
  cases selAc with
  | true => exact unchanged_select cab pab s
  | false => exact Unchanged.refl _ s

theorem writeUbr_acs (selAc ldUbr : Bool) (cab pab : BitVec 3) (ubp : Ppn) (s : State) :
    (writeUbr selAc ldUbr cab pab ubp s).acs = if selAc then selectBlocks cab pab s.acs else s.acs := by
  cases selAc <;> cases ldUbr <;> simp [writeUbr]

theorem writeUbr_load_pager (selAc : Bool) (cab pab : BitVec 3) (ubp : Ppn) (s : State) :
    (writeUbr selAc true cab pab ubp s).pager = { s.pager with ubp := ubp, ubase := baseOfPage ubp } := by
  cases selAc <;> simp [writeUbr]

/-- Settles O43, by LD_UBR; SEL_AC is `unchanged_selectIf`. -/
theorem wrUbrActsByItsFlags : Obligations.WrUbrActsByItsFlags := by
  intro s selAc ldUbr cab pab ubp hs
  have selected := unchanged_selectIf selAc cab pab (beginCommand s)
  refine ⟨_, exec_plain_running (by simp) (by simp) (by simp) rfl hs, rfl, by simp, writeUbr_acs .., ?_, ?_⟩
  · rintro rfl
    refine ⟨?_, ?_⟩
    · rw [← baseOfPage_eq]
      exact writeUbr_load_pager ..
    · obtain ⟨invalid, saved, frame⟩ := invalidateBoth_answered (selected.trans (unchanged_withPager _ _)) (by simp)
      exact ⟨invalid, saved, frame.mono (by decide)⟩
  · rintro rfl
    exact selected.answered .ok 0 0

theorem ubrImage_flags_eq (cab pab : BitVec 3) (ubp : Ppn) :
    ubrImage true true cab pab ubp =
      BitVec.ofNat 36 (2 ^ 35 + 2 ^ 33 + cab.toNat * 2 ^ 27 + pab.toNat * 2 ^ 24 + ubp.toNat) := by
  apply BitVec.eq_of_toNat_eq
  have hcab := cab.isLt
  have hpab := pab.isLt
  have hubp := ubp.isLt
  simp only [ubrImage, toNat_append_add, encodeBit_toNat, Bool.toNat_true, BitVec.ofNat_eq_ofNat,
    BitVec.toNat_ofNat]
  omega

/-- Settles O44: the answer is the image with both flags, `ubrImage_flags_eq` its number. -/
theorem rdUbrReadsTheBaseAndTheBlocks : Obligations.RdUbrReadsTheBaseAndTheBlocks := by
  intro s hs
  refine ⟨_, exec_plain_running (by simp) (by simp) (by simp) rfl hs, ?_, rfl, unchanged_respond_beginCommand ..⟩
  rw [← ubrImage_flags_eq]
  rfl

/-! ## The table registers (R99, R186, R187) -/

/-- An instruction the configuration lacks is answered ILLEGAL, whether the PU is halted or not (R99, R129). -/
theorem answersIllegal_of_not_legalHere {i : Instr} {s : State} (h : legalHere s.cfg i = false) :
    AnswersIllegal i s :=
  (prologueAnswersIllegalThenFatal i s).1 (legalHere_eq_false_iff.1 h)

theorem tableRegisterExists_eq_false {cfg : Config} {idx : BitVec 4} (h : ¬ LegalTableIndex cfg idx) :
    tableRegisterExists cfg idx = false :=
  Bool.eq_false_iff.2 (mt tableRegisterExists_iff.1 h)

theorem baseOfWord_eq (d : Word) : baseOfWord d = BitVec.ofNat 22 (d.toNat % 2 ^ 22) := by
  apply BitVec.eq_of_toNat_eq
  simp [baseOfWord]

theorem wordOfBase_eq (b : BaseAddr) : wordOfBase b = BitVec.ofNat 36 b.toNat := by
  apply BitVec.eq_of_toNat_eq
  have hb := b.isLt
  simp only [wordOfBase, toNat_append_add, BitVec.ofNat_eq_ofNat, BitVec.toNat_ofNat]
  omega

/-- Settles O46: each index by the row of `writeTable`; the invalidation whatever the index. -/
theorem wrTbWritesItsRegisterAndInvalidates : Obligations.WrTbWritesItsRegisterAndInvalidates := by
  intro s idx d b tb
  have hb : baseOfWord d = b := baseOfWord_eq d
  refine ⟨fun h => answersIllegal_of_not_legalHere (tableRegisterExists_eq_false h), fun h hs => ?_⟩
  obtain ⟨invalid, saved, frame⟩ := invalidateBoth_answered
    (unchanged_withPager (writeTable idx d s.pager) (beginCommand s)) (by simp)
  have written : (plainUpdate (.wrTb idx d) (beginCommand s)).pager = writeTable idx d s.pager := by simp [plainUpdate]
  refine ⟨_, exec_plain_running (by simp) (by simp) (by simp) (tableRegisterExists_iff.2 h) hs, rfl, by simp, invalid,
    saved, frame, ?_⟩
  simp only [respond_pager, written, ← hb]
  refine ⟨?_, ?_, ?_, ?_, ?_, ?_, ?_, ?_⟩ <;> rintro rfl <;> rfl

/-- Settles O47: each index by the row of `readTable`. -/
theorem rdTbReadsItsRegister : Obligations.RdTbReadsItsRegister := by
  intro s idx tb
  refine ⟨fun h => answersIllegal_of_not_legalHere (tableRegisterExists_eq_false h), fun h hs => ?_⟩
  refine ⟨_, exec_plain_running (by simp) (by simp) (by simp) (tableRegisterExists_iff.2 h) hs, rfl,
    unchanged_respond_beginCommand .., ?_⟩
  simp only [← wordOfBase_eq]
  refine ⟨?_, ?_, ?_, ?_, ?_, ?_, ?_, ?_⟩ <;> rintro rfl <;> rfl

/-! ## Who discards a valid entry (R188) -/

/-- The instructions R188 allows to discard valid entries; a refill, which replaces the one it installs, apart. -/
def mayDiscard : Instr → Bool
  | .invalAll | .invalOne _ | .wrEbr .. | .wrTb .. | .reset | .armAbk .. => true
  | .wrUbr _ ldUbr .. => ldUbr
  | .xlate .. | .probe .. | .rdEbr | .rdUbr | .rdTb _ | .selAcb .. | .acrd .. | .acwr .. => false
  | .disarmAbk | .sweep | .memdiag .. | .rdSts | .clrSts _ => false

theorem mayDiscard_iff {i : Instr} :
    mayDiscard i = true ↔ i = .invalAll ∨ (∃ va, i = .invalOne va) ∨ (∃ e p, i = .wrEbr e p) ∨
      (∃ a c p u, i = .wrUbr a true c p u) ∨ (∃ x d, i = .wrTb x d) ∨ i = .reset ∨ ∃ c va, i = .armAbk c va := by
  cases i <;> simp [mayDiscard]

/-- Disarm puts the saved pair back over an entry forced off or over the same pair (R223), so a valid entry stays. -/
theorem lookup_disarm_of_valid {s : State} (h : Inv s) {m : Mode} {vp : Nat} (hv : (lookup s m vp).acc ≠ .none) :
    lookup (disarm s) m vp = lookup s m vp := by
  rw [lookup_disarm h.tlbCanonical]
  split_ifs with hw
  · obtain ⟨hactive, rfl, haffected⟩ := hw
    have hsaved := (h.abkTrue hactive m haffected).resolve_left hv
    rw [← hsaved]
  · rfl

theorem lookup_plainUpdate_of_valid {s : State} (h : Inv s) {i : Instr} (hi : mayDiscard i = false) {m : Mode}
    {vp : Nat} (hv : (lookup s m vp).acc ≠ .none) : lookup (plainUpdate i s) m vp = lookup s m vp := by
  cases i with
  | invalAll | invalOne | wrEbr | wrTb | reset | armAbk => cases hi
  | wrUbr selAc ldUbr cab pab ubp =>
    obtain rfl : ldUbr = false := hi
    cases selAc <;> exact lookup_congr rfl m vp
  | disarmAbk => exact lookup_disarm_of_valid h hv
  | _ => exact lookup_congr rfl m vp

/-- The prologue by itself touches no cache (R129). -/
theorem runCommand_tlb_or_effect {legal : Bool} {f : State → Result} {s t : State}
    (ht : runCommand legal f s = .next t) : t.tlb = s.tlb ∨ f (beginCommand s) = .next t := by
  obtain ⟨-, he⟩ | ⟨-, -, he⟩ | ⟨-, -, he⟩ := runCommand_cases ht
  · cases he; exact .inl rfl
  · cases he; exact .inl rfl
  · exact .inr he.symm

theorem exec_plain_keeps_valid {s t : State} (h : Inv s) {i : Instr} (hx : ∀ m k va ctx, i ≠ .xlate m k va ctx)
    (hp : ∀ m k va ctx, i ≠ .probe m k va ctx) (hi : mayDiscard i = false) (ht : exec i s = .next t) {m : Mode}
    {vp : Nat} (hv : (lookup s m vp).acc ≠ .none) : lookup t m vp = lookup s m vp := by
  have hr : i ≠ .reset := by rintro rfl; cases hi
  rw [exec_eq_plainUpdate hx hp hr] at ht
  obtain hsame | he := runCommand_tlb_or_effect ht
  · exact lookup_congr hsame m vp
  · cases he
    rw [lookup_respond, lookup_plainUpdate_of_valid h.beginCommand hi (by rwa [lookup_beginCommand]),
      lookup_beginCommand]

/-- A reference to map `sel` changes no entry but the one a refill of it installs, which is valid (R140). -/
theorem ReferenceEnd.lookup_or_installed {isProbe : Bool} {sel : MapSel} {k : Kind} {va : VAddr} {ctx : Ctx}
    {s t : State} (hwf : ∀ m, sparseWf Entry.invalid (tlbOf s m))
    (h : ReferenceEnd isProbe sel k va ctx s (.next t)) (m : Mode) (vp : Nat) :
    lookup t m vp = lookup s m vp ∨
      (sel = modeMap m ∧ vp = (decompose s.cfg va).vp ∧ (lookup t m vp).acc.vr = true) := by
  cases h with
  | answered r0 => exact .inl (lookup_respond ..)
  | faulted addr c => exact .inl (lookup_congr (declareFault_tlb ..) m vp)
  | installed m' ppn wperm status hsel =>
    rw [lookup_respond, lookup_commitRefill (hwf m')]
    split_ifs with hc
    · obtain ⟨rfl, hvp⟩ := hc
      exact .inr ⟨hsel, hvp, rfl⟩
    · exact .inl rfl

theorem runCommand_reference_lookup {isProbe : Bool} {sel : MapSel} {k : Kind} {va : VAddr} {ctx : Ctx}
    {f : State → Result} (hf : ∀ u, ReferenceEnd isProbe sel k va ctx u (f u)) {s t : State} (h : Inv s)
    (ht : runCommand true f s = .next t) (m : Mode) (vp : Nat) :
    lookup t m vp = lookup s m vp ∨
      (sel = modeMap m ∧ vp = (decompose s.cfg va).vp ∧ (lookup t m vp).acc.vr = true) := by
  obtain hsame | he := runCommand_tlb_or_effect ht
  · exact .inl (lookup_congr hsame m vp)
  · have hend := hf (beginCommand s)
    rw [he] at hend
    simpa using hend.lookup_or_installed h.beginCommand.tlbCanonical m vp

/-- Settles O16: the two references by the ways they end, every other command by its update. -/
theorem noOtherCommandDiscardsAnEntry : Obligations.NoOtherCommandDiscardsAnEntry := by
  intro i s t h ht hall hone hebr hubr htb hreset harm m vp hv
  by_cases hx : ∃ sel k va ctx, i = .xlate sel k va ctx
  · obtain ⟨sel, k, va, ctx, rfl⟩ := hx
    exact (runCommand_reference_lookup (xlateEffect_ends sel k va ctx) h ht m vp).imp_right
      fun ⟨hsel, hvp, hvr⟩ => ⟨k, va, ctx, .inl (by rw [hsel]), hvp, hvr⟩
  by_cases hp : ∃ sel k va ctx, i = .probe sel k va ctx
  · obtain ⟨sel, k, va, ctx, rfl⟩ := hp
    exact (runCommand_reference_lookup (probeEffect_ends sel k va ctx) h ht m vp).imp_right
      fun ⟨hsel, hvp, hvr⟩ => ⟨k, va, ctx, .inr (by rw [hsel]), hvp, hvr⟩
  · push Not at hx hp
    have hi : mayDiscard i = false := by
      rw [← Bool.not_eq_true, mayDiscard_iff]
      push Not
      exact ⟨hall, hone, hebr, hubr, htb, hreset, harm⟩
    exact .inl (exec_plain_keeps_valid h hx hp hi ht hv)

end Sys2Proof.Machine

/-! # Accumulator blocks (spec 43_acblocks.md R200 to R205) -/

namespace Sys2Proof.Machine

open Sys2Proof

/-! ## Architectural values (R38) -/

@[simp] theorem archReg_current (f : AcFile) (r : BitVec 4) : archReg f f.cab r = f.shadow[r.toNat] := if_pos rfl

theorem archReg_of_ne {f : AcFile} {b : BitVec 3} (h : b ≠ f.cab) (r : BitVec 4) :
    archReg f b r = f.blk[b.toNat][r.toNat] := if_neg h

/-! ## Select (R200, R201, R204) -/

theorem selectBlocks_current (np : BitVec 3) (f : AcFile) :
    selectBlocks f.cab np f = { f with pab := np, plive := np == f.cab } := by
  simp [selectBlocks]

section switch
variable {f : AcFile} {nc : BitVec 3} (h : nc ≠ f.cab) (np : BitVec 3)
include h

theorem selectBlocks_blk_of_ne : (selectBlocks nc np f).blk = f.blk.set f.cab.toNat f.shadow := by
  simp [selectBlocks, h]

/-- The flush comes before the load, but it writes another block. -/
theorem selectBlocks_shadow_of_ne : (selectBlocks nc np f).shadow = f.blk[nc.toNat] := by
  have hold : f.cab.toNat ≠ nc.toNat := toNat_inj.not.2 (Ne.symm h)
  simp [selectBlocks, h, Vector.getElem_set_ne, hold]

theorem selectBlocks_old_block : (selectBlocks nc np f).blk[f.cab.toNat] = f.shadow := by
  simp [selectBlocks_blk_of_ne h]

theorem selectBlocks_other_block {b : BitVec 3} (hb : b ≠ f.cab) :
    (selectBlocks nc np f).blk[b.toNat] = f.blk[b.toNat] := by
  have hold : f.cab.toNat ≠ b.toNat := toNat_inj.not.2 (Ne.symm hb)
  simp [selectBlocks_blk_of_ne h, Vector.getElem_set_ne, hold]

/-- The block entering the shadow, the one leaving it and the others. -/
theorem archReg_selectBlocks_of_ne (b : BitVec 3) (r : BitVec 4) :
    archReg (selectBlocks nc np f) b r = archReg f b r := by
  by_cases hnew : b = nc
  · subst hnew
    rw [archReg_of_ne h, ← selectBlocks_shadow_of_ne h np, ← archReg_current, selectBlocks_cab]
  rw [archReg_of_ne (by simpa using hnew)]
  by_cases hold : b = f.cab
  · subst hold
    rw [selectBlocks_old_block h, archReg_current]
  · rw [selectBlocks_other_block h np hold, archReg_of_ne hold]

end switch

/-- Settles O49: a switch is `archReg_selectBlocks_of_ne`; without one nothing is copied. -/
theorem selectIsTransparent : Obligations.SelectIsTransparent := by
  intro f nc np b r
  by_cases hc : nc = f.cab
  · rw [hc, selectBlocks_current]
    rfl
  · exact archReg_selectBlocks_of_ne hc np b r

/-- Settles O48: `selectBlocks_current`, or the three rules of a switch. -/
theorem selAcbSwapsTheShadow : Obligations.SelAcbSwapsTheShadow := by
  intro s cab pab hs
  refine ⟨_, exec_plain_running (by simp) (by simp) (by simp) rfl hs, rfl, by simp,
    (unchanged_select cab pab (beginCommand s)).answered .ok 0 0, selectBlocks_cab .., selectBlocks_pab .., ?_, ?_, ?_⟩
  · simp [plainUpdate]
  · rintro rfl
    simp [plainUpdate, selectBlocks_current]
  · exact fun hc => ⟨selectBlocks_shadow_of_ne hc pab, selectBlocks_old_block hc pab,
      fun _ hb => selectBlocks_other_block hc pab hb⟩

/-! ## ACRD and ACWR (R202, R203) -/

theorem archReg_withShadow (f : AcFile) (r : BitVec 4) (d : Word) (b : BitVec 3) (r' : BitVec 4) :
    archReg { f with shadow := f.shadow.set r.toNat d } b r' = if b = f.cab ∧ r' = r then d else archReg f b r' := by
  by_cases hb : b = f.cab
  · simp [archReg, hb, Vector.getElem_set, toNat_inj, eq_comm]
  · simp [archReg, hb]

theorem archReg_withBlock {f : AcFile} {c : BitVec 3} (hc : c ≠ f.cab) (r : BitVec 4) (d : Word) (b : BitVec 3)
    (r' : BitVec 4) :
    archReg { f with blk := f.blk.set c.toNat (f.blk[c.toNat].set r.toNat d) } b r' =
      if b = c ∧ r' = r then d else archReg f b r' := by
  by_cases hb : b = c
  · subst hb
    simp [archReg, hc, Vector.getElem_set, toNat_inj, eq_comm]
  · have hne : c.toNat ≠ b.toNat := toNat_inj.not.2 (Ne.symm hb)
    simp [archReg, hb, Vector.getElem_set_ne, hne]

section context
variable {f : AcFile} (h : f.plive = (f.pab == f.cab)) (x : AcCtx) (r : BitVec 4)
include h

/-- The two places of an access: SHADOW for the current block, BLK[PAB] for the other one the previous context has. -/
theorem contextBlock_cases :
    (acUsesShadow f x = true ∧ contextBlock f x = f.cab) ∨
      (acUsesShadow f x = false ∧ contextBlock f x = f.pab ∧ f.pab ≠ f.cab) := by
  cases x with
  | current => exact .inl ⟨rfl, rfl⟩
  | previous =>
    by_cases hb : f.pab = f.cab
    · exact .inl ⟨by simp [acUsesShadow, h, hb], hb⟩
    · exact .inr ⟨by simp [acUsesShadow, h, hb], rfl, hb⟩

theorem acRead_eq_archReg : acRead f x r = archReg f (contextBlock f x) r := by
  obtain ⟨hplace, hb⟩ | ⟨hplace, hb, hne⟩ := contextBlock_cases h x
  · rw [hb, archReg_current, acRead, if_pos hplace]
  · rw [hb, archReg_of_ne hne, acRead, if_neg (by simp [hplace])]

theorem archReg_acWrite (d : Word) (b : BitVec 3) (r' : BitVec 4) :
    archReg (acWrite f x r d) b r' = if b = contextBlock f x ∧ r' = r then d else archReg f b r' := by
  obtain ⟨hplace, hb⟩ | ⟨hplace, hb, hne⟩ := contextBlock_cases h x
  · rw [hb, acWrite, if_pos hplace, archReg_withShadow]
  · rw [hb, acWrite, if_neg (by simp [hplace]), archReg_withBlock hne]

end context

theorem unchanged_withAcs (f : AcFile) (s : State) : Unchanged [.acs] s { s with acs := f } :=
  unchanged_of_fields [.acs] rfl rfl (mem := by simp) (tlb := by simp) (pager := by simp) (acs := by simp)
    (fd := by simp) (abk := by simp) (hits := by simp) (sts := by simp) (halt := by simp)

/-- Settles O50: the answer is what the context reads, `acRead_eq_archReg` its architectural value. -/
theorem acrdReadsTheArchitecturalRegister : Obligations.AcrdReadsTheArchitecturalRegister := by
  intro s x r hs hlive
  refine ⟨_, exec_plain_running (by simp) (by simp) (by simp) rfl hs, ?_, rfl, unchanged_respond_beginCommand ..⟩
  rw [← acRead_eq_archReg hlive]
  rfl

/-- Settles O51: `archReg_acWrite`, and the selectors are no part of the write. -/
theorem acwrWritesTheArchitecturalRegister : Obligations.AcwrWritesTheArchitecturalRegister := by
  intro s x r d hs hlive
  exact ⟨_, exec_plain_running (by simp) (by simp) (by simp) rfl hs, rfl, by simp,
    (unchanged_withAcs _ (beginCommand s)).answered .ok 0 0, acWrite_cab .., acWrite_pab .., acWrite_plive ..,
    archReg_acWrite hlive x r d⟩

/-! ## Who changes the file (R205) -/

/-- The commands that run Select (R205). -/
def RunsSelect (i : Instr) : Prop :=
  i = .reset ∨ (∃ c p, i = .selAcb c p) ∨ ∃ l c p u, i = .wrUbr true l c p u

/-- What an instruction may make of the accumulator file. -/
inductive AcsChange (i : Instr) (f : AcFile) : AcFile → Prop where
  | kept : AcsChange i f f
  | selected (nc np : BitVec 3) : RunsSelect i → AcsChange i f (selectBlocks nc np f)
  | written (x : AcCtx) (r : BitVec 4) (d : Word) : i = .acwr x r d → AcsChange i f (acWrite f x r d)

theorem AcsChange.of_eq {i : Instr} {f g : AcFile} (h : g = f) : AcsChange i f g := h ▸ .kept

theorem plainUpdate_acsChange (i : Instr) (s : State) : AcsChange i s.acs (plainUpdate i s).acs := by
  cases i with
  | selAcb cab pab => exact .selected cab pab (.inr (.inl ⟨cab, pab, rfl⟩))
  | acwr x r d => exact .written x r d rfl
  | wrUbr selAc ldUbr cab pab ubp =>
    simp only [plainUpdate, writeUbr_acs]
    cases selAc with
    | true => exact .selected cab pab (.inr (.inr ⟨ldUbr, cab, pab, ubp, rfl⟩))
    | false => exact .kept
  | _ => exact .of_eq (by simp [plainUpdate])

theorem ReferenceEnd.acs_eq {isProbe : Bool} {m : MapSel} {k : Kind} {va : VAddr} {ctx : Ctx} {s t : State}
    (h : ReferenceEnd isProbe m k va ctx s (.next t)) : t.acs = s.acs := by
  cases h with
  | answered r0 => rfl
  | faulted addr c => exact declareFault_acs ..
  | installed m' ppn wperm status => rw [respond_acs, commitRefill_acs]

/-- The prologue by itself changes nothing (R129). -/
theorem runCommand_unchanged_or_effect {legal : Bool} {f : State → Result} {s t : State}
    (ht : runCommand legal f s = .next t) : Unchanged [] s t ∨ f (beginCommand s) = .next t := by
  obtain ⟨-, he⟩ | ⟨-, -, he⟩ | ⟨-, -, he⟩ := runCommand_cases ht
  · cases he; exact .inl (unchanged_respond_beginCommand ..)
  · cases he; exact .inl (unchanged_respond_beginCommand ..)
  · exact .inr he.symm

theorem runCommand_acsChange {i : Instr} {legal : Bool} {f : State → Result} {s t : State}
    (hf : f (beginCommand s) = .next t → AcsChange i s.acs t.acs) (ht : runCommand legal f s = .next t) :
    AcsChange i s.acs t.acs := by
  obtain hsame | he := runCommand_unchanged_or_effect ht
  · exact .of_eq (hsame.2.2 .acs (by simp))
  · exact hf he

theorem runCommand_reference_acsChange {i : Instr} {isProbe : Bool} {m : MapSel} {k : Kind} {va : VAddr} {ctx : Ctx}
    {f : State → Result} (hf : ∀ u, ReferenceEnd isProbe m k va ctx u (f u)) {s t : State}
    (ht : runCommand true f s = .next t) : AcsChange i s.acs t.acs :=
  runCommand_acsChange (fun he => .of_eq (he ▸ hf (beginCommand s)).acs_eq) ht

theorem exec_acsChange {i : Instr} {s t : State} (ht : exec i s = .next t) : AcsChange i s.acs t.acs := by
  by_cases hx : ∃ m k va ctx, i = .xlate m k va ctx
  · obtain ⟨m, k, va, ctx, rfl⟩ := hx
    exact runCommand_reference_acsChange (xlateEffect_ends m k va ctx) ht
  by_cases hp : ∃ m k va ctx, i = .probe m k va ctx
  · obtain ⟨m, k, va, ctx, rfl⟩ := hp
    exact runCommand_reference_acsChange (probeEffect_ends m k va ctx) ht
  by_cases hr : i = .reset
  · subst hr
    cases ht
    exact .selected 0 0 (.inl rfl)
  push Not at hx hp
  rw [exec_eq_plainUpdate hx hp hr] at ht
  refine runCommand_acsChange ?_ ht
  rintro ⟨⟩
  exact plainUpdate_acsChange i (beginCommand s)

/-- Settles O13, by what may become of the file: Select keeps every architectural value (O49), ACWR the selectors. -/
theorem accumulatorsChangeOnlyByTheirCommands : Obligations.AccumulatorsChangeOnlyByTheirCommands := by
  intro i s t ht
  suffices hfile : ∀ g, AcsChange i s.acs g →
      ((g.cab ≠ s.acs.cab ∨ g.pab ≠ s.acs.pab) → RunsSelect i) ∧
      ((∀ x r d, i ≠ .acwr x r d) → ∀ b r, archReg g b r = archReg s.acs b r) from
    hfile t.acs (exec_acsChange ht)
  rintro g (_ | ⟨nc, np, hi⟩ | ⟨x, r, d, hi⟩)
  · simp
  · exact ⟨fun _ => hi, fun _ => selectIsTransparent s.acs nc np⟩
  · exact ⟨by simp, fun hw => absurd hi (hw x r d)⟩

end Sys2Proof.Machine

/-! # The address break (spec 44_addrbreak.md R215 to R225) -/

namespace Sys2Proof.Machine

open Sys2Proof

/-! ## The comparator (R221, R222) -/

theorem condKind_iff {cond : BitVec 4} {k : Kind} :
    condKind cond k = true ↔ (k = .fetch ∧ cond.getLsbD 3 = true) ∨ (k = .read ∧ cond.getLsbD 2 = true) ∨
      (k = .write ∧ cond.getLsbD 1 = true) := by
  cases k <;> simp [condKind, condF, condR, condW]

/-- The conjuncts of R222, with the mask in its bits. -/
theorem abkMatch_iff {s : State} {m : Mode} {p : VParts} {k : Kind} {nonint : Bool} :
    abkMatch s m p k nonint = true ↔
      s.cfg.hasAbk = true ∧ s.abk.active = true ∧ p.vp = s.abk.page ∧
        (s.cfg.abkGranule = .page ∨ p.va = s.abk.addr) ∧
        ((k = .fetch ∧ s.abk.cond.getLsbD 3 = true) ∨ (k = .read ∧ s.abk.cond.getLsbD 2 = true) ∨
          (k = .write ∧ s.abk.cond.getLsbD 1 = true)) ∧
        (s.abk.cond.getLsbD 0 = false ∨ m = .user) ∧ nonint = false := by
  simp only [abkMatch, Bool.and_eq_true, condKind_iff, and_assoc]
  simp [condU]

section walked
variable {s : State} {m : Mode} {k : Kind} {va : VAddr} {ctx : Ctx} {ppn : Nat} {wperm : Bool}
  {status : Option (Nat × Word)} (hs : s.halted = false) (hsec : illegalSection s.cfg (decompose s.cfg va) = false)
  (hr : resolve s m (decompose s.cfg va) k = .ok ppn wperm status)
include hs hsec hr

theorem probe_of_match (ha : abkMatch s m (decompose s.cfg va) k ctx.nonint = true) :
    ∃ t, exec (.probe (modeMap m) k va ctx) s = .next t ∧
      SoftFailed s t (decompose s.cfg va).va k (modeMap m) .abk := by
  refine ⟨_, ?_, softFailed_declareFault (decompose s.cfg va).va k (modeMap m) .abk ctx⟩
  rw [exec_probe_running hs, probeEffect_modeMap,
    refill_of_match (s := beginCommand s) hsec ((resolve_beginCommand ..).trans hr) ha]
  rfl

theorem probe_of_no_match (ha : abkMatch s m (decompose s.cfg va) k ctx.nonint = false) :
    ∃ t r0, exec (.probe (modeMap m) k va ctx) s = .next t ∧ Answers t .ok r0 0 ∧ t.fd = s.fd := by
  rw [exec_probe_running hs, probeEffect_modeMap,
    refill_of_ok (s := beginCommand s) hsec ((resolve_beginCommand ..).trans hr) ha]
  exact ⟨_, _, rfl, rfl, by simp⟩

end walked

/-- Settles O30: `abkMatch_iff`, and PROBE by whether the reference matches. -/
theorem matchingReferenceReportsTheBreak : Obligations.MatchingReferenceReportsTheBreak := by
  intro s m k va ctx p Matches
  have hm : abkMatch s m p k ctx.nonint = true ↔ Matches := abkMatch_iff
  refine ⟨hm, fun hs hsec ppn wperm status hr => ⟨fun h => ?_, fun h => ?_⟩⟩
  · exact probe_of_match hs hsec hr (hm.2 h)
  · exact probe_of_no_match hs hsec hr (Bool.eq_false_iff.2 (mt hm.1 h))

/-! ## DISARM_ABK (R216, R218) -/

theorem unchanged_disarm (s : State) : Unchanged [.tlb, .abk, .abkHits] s (disarm s) :=
  unchanged_of_fields [.tlb, .abk, .abkHits] (by simp) (by simp) (mem := by simp) (tlb := by simp) (pager := by simp)
    (acs := by simp) (fd := by simp) (abk := by simp) (hits := by simp) (sts := by simp) (halt := by simp)

/-- The entries Disarm leaves, as the statements name them. -/
theorem lookup_disarm_eq_entryDisarmed {s : State} (h : ∀ m, sparseWf Entry.invalid (tlbOf s m)) (m : Mode)
    (vp : Nat) : lookup (disarm s) m vp = entryDisarmed s m vp := by
  simp only [lookup_disarm h, entryDisarmed, affected_iff]

theorem entryDisarmed_beginCommand (s : State) (m : Mode) (vp : Nat) :
    entryDisarmed (beginCommand s) m vp = entryDisarmed s m vp := rfl

/-- DISARM_ABK of a running PU that has an address break is `disarm`. -/
theorem exec_disarmAbk_running {s : State} (hx : s.cfg.hasAbk = true) (hs : s.halted = false) :
    exec .disarmAbk s = .next (respond .ok 0 0 (disarm (beginCommand s))) :=
  exec_plain_running (by simp) (by simp) (by simp) hx hs

/-- Settles O53, by the prologue and `lookup_disarm`. -/
theorem disarmAbkRestoresTheSavedBits : Obligations.DisarmAbkRestoresTheSavedBits := by
  intro s
  refine ⟨fun hx => answersIllegal_of_not_legalHere hx, fun hx hs hwf => ?_⟩
  refine ⟨_, exec_disarmAbk_running hx hs, rfl, by simp, rfl, rfl, (unchanged_disarm _).answered .ok 0 0,
    fun m vp => ?_⟩
  rw [lookup_respond, lookup_disarm_eq_entryDisarmed (tlbWf_beginCommand hwf), entryDisarmed_beginCommand]
  rfl

/-! ## ARM_ABK (R217) -/

theorem unchanged_arm (cond : BitVec 4) (va : VAddr) (s : State) :
    Unchanged [.tlb, .abk, .abkHits] s (arm cond va s) :=
  unchanged_of_fields [.tlb, .abk, .abkHits] (by simp) (by simp) (mem := by simp) (tlb := by simp) (pager := by simp)
    (acs := by simp) (fd := by simp) (abk := by simp) (hits := by simp) (sts := by simp) (halt := by simp)

theorem arm_of_nothing_to_watch {cond : BitVec 4} {va : VAddr} {s : State}
    (h : condNonEmpty cond = false ∨ illegalSection s.cfg (decompose s.cfg va) = true) :
    arm cond va s = disarm s := by
  rw [arm_eq, if_neg]
  rintro ⟨hc, hsec⟩
  simp [hc, hsec] at h

theorem arm_of_watchable {cond : BitVec 4} {va : VAddr} {s : State} (hc : condNonEmpty cond = true)
    (hsec : illegalSection s.cfg (decompose s.cfg va) = false) :
    arm cond va s = armWatch cond (decompose s.cfg va) (disarm s) := by
  rw [arm_eq, if_pos ⟨hc, hsec⟩]

/-- ARM_ABK of a running PU that has an address break is `arm`. -/
theorem exec_armAbk_running {s : State} (hx : s.cfg.hasAbk = true) (hs : s.halted = false) (cond : BitVec 4)
    (va : VAddr) : exec (.armAbk cond va) s = .next (respond .ok 0 0 (arm cond va (beginCommand s))) :=
  exec_plain_running (by simp) (by simp) (by simp) hx hs

/-- The watch after Disarm and arming: the pairs saved are those of the entries Disarm left. -/
theorem armWatch_disarm_abk {s : State} (h : ∀ m, sparseWf Entry.invalid (tlbOf s m)) (cond : BitVec 4) (p : VParts) :
    (armWatch cond p (disarm s)).abk =
      { active := true, page := p.vp, addr := p.va, cond := cond
        savedExec := if cond.getLsbD 0 then .none else (entryDisarmed s .exec p.vp).acc
        savedUser := (entryDisarmed s .user p.vp).acc } := by
  rw [armWatch_abk (disarm_wf h), lookup_disarm_eq_entryDisarmed h, lookup_disarm_eq_entryDisarmed h]
  rw [affected, condU]
  cases cond.getLsbD 0 <;> rfl

theorem lookup_armWatch_disarm {s : State} (h : ∀ m, sparseWf Entry.invalid (tlbOf s m)) (cond : BitVec 4)
    (p : VParts) (m : Mode) (vp : Nat) :
    lookup (armWatch cond p (disarm s)) m vp =
      if vp = p.vp ∧ (m = .user ∨ cond.getLsbD 0 = false) then { entryDisarmed s m vp with acc := .none }
      else entryDisarmed s m vp := by
  simp only [lookup_armWatch (disarm_wf h), lookup_disarm_eq_entryDisarmed h, affected_iff]

/-- Settles O52, by the prologue and by whether there is something to watch. -/
theorem armAbkArmsTheWatch : Obligations.ArmAbkArmsTheWatch := by
  intro s cond va p
  refine ⟨fun hx => answersIllegal_of_not_legalHere hx, fun hx hs hwf => ?_⟩
  have hwf' := tlbWf_beginCommand hwf
  refine ⟨_, exec_armAbk_running hx hs cond va, rfl, by simp, by simp, (unchanged_arm cond va _).answered .ok 0 0,
    fun h => ?_, fun hc hsec => ?_⟩
  · rw [arm_of_nothing_to_watch (s := beginCommand s) h]
    exact ⟨rfl, fun m vp => by rw [lookup_respond, lookup_disarm_eq_entryDisarmed hwf', entryDisarmed_beginCommand]⟩
  · rw [arm_of_watchable (s := beginCommand s) hc hsec]
    exact ⟨armWatch_disarm_abk hwf' cond p,
      fun m vp => (lookup_respond ..).trans (lookup_armWatch_disarm hwf' cond p m vp)⟩

/-! ## Disarm undoes arming, and arming again repeats it (R225a, R225b)

`disarm_arm` is an equality of whole states, so that both laws follow from it. -/

/-- Caches in canonical form are equal when all their entries are. -/
theorem tlb_eq_of_lookup {s t : State} (hs : ∀ m, sparseWf Entry.invalid (tlbOf s m))
    (ht : ∀ m, sparseWf Entry.invalid (tlbOf t m)) (h : ∀ m vp, lookup t m vp = lookup s m vp) : t.tlb = s.tlb := by
  have same (m : Mode) : tlbOf t m = tlbOf s m := sparse_ext (ht m) (hs m) (h m)
  show (⟨tlbOf t .exec, tlbOf t .user⟩ : Tlbs) = ⟨tlbOf s .exec, tlbOf s .user⟩
  rw [same, same]

/-- The pair saved by arming is the one Disarm writes back, in each map the mask affects. -/
theorem lookup_disarm_armWatch {s : State} (h : ∀ m, sparseWf Entry.invalid (tlbOf s m)) (cond : BitVec 4)
    (p : VParts) (m : Mode) (vp : Nat) : lookup (disarm (armWatch cond p s)) m vp = lookup s m vp := by
  rw [lookup_disarm (armWatch_wf h cond p), armWatch_abk h, lookup_armWatch h]
  by_cases hw : vp = p.vp ∧ affected cond m = true
  · obtain ⟨rfl, ha⟩ := hw
    cases m <;> simp [ha, savedOf]
  · rw [if_neg fun hc => hw hc.2, if_neg hw]

theorem disarm_armWatch_tlb {s : State} (h : ∀ m, sparseWf Entry.invalid (tlbOf s m)) (cond : BitVec 4) (p : VParts) :
    (disarm (armWatch cond p s)).tlb = s.tlb :=
  tlb_eq_of_lookup h (disarm_wf (armWatch_wf h cond p)) (lookup_disarm_armWatch h cond p)

/-- Disarm changes the caches, the watch and the count. -/
theorem disarm_eq_update (s : State) : disarm s = { s with tlb := (disarm s).tlb, abk := Abk.idle, abkHits := 0 } := by
  simp only [disarm, restoreAccess]
  split_ifs <;> rfl

/-- Arming changes the caches and the watch. -/
theorem armWatch_eq_update (cond : BitVec 4) (p : VParts) (s : State) :
    armWatch cond p s = { s with tlb := (armWatch cond p s).tlb, abk := (armWatch cond p s).abk } := by
  simp only [armWatch, forceAccess]
  split_ifs <;> rfl

/-- A second Disarm finds no watch. -/
theorem disarm_disarm (s : State) : disarm (disarm s) = disarm s := by
  rw [disarm_eq_update (disarm s), disarm_tlb_of_inactive rfl]
  rfl

/-- Whatever ARM_ABK did after clearing the prior watch, Disarm undoes. -/
theorem disarm_arm {s : State} (h : ∀ m, sparseWf Entry.invalid (tlbOf s m)) (cond : BitVec 4) (va : VAddr) :
    disarm (arm cond va s) = disarm s := by
  rw [arm_eq]
  split_ifs
  · rw [disarm_eq_update, disarm_armWatch_tlb (disarm_wf h), armWatch_eq_update]
    rfl
  · exact disarm_disarm s

/-- Arming depends on the state only through what Disarm leaves of it. -/
theorem arm_arm {s : State} (h : ∀ m, sparseWf Entry.invalid (tlbOf s m)) (cond : BitVec 4) (va : VAddr) :
    arm cond va (arm cond va s) = arm cond va s := by
  rw [arm_eq cond va (arm cond va s), disarm_arm h, arm_cfg, ← arm_eq]

/-! ### The answer's latches play no part in either -/

theorem restoreAccess_respond (m : Mode) (st : Status) (r0 r1 : Word) (s : State) :
    restoreAccess m (respond st r0 r1 s) = respond st r0 r1 (restoreAccess m s) := by
  cases h : s.abk.active && affected s.abk.cond m with
  | false => simp [restoreAccess, h]
  | true =>
    simp only [restoreAccess, respond_abk, h, if_true]
    cases m <;> rfl

theorem disarm_respond (st : Status) (r0 r1 : Word) (s : State) :
    disarm (respond st r0 r1 s) = respond st r0 r1 (disarm s) := by
  simp only [disarm, restoreAccess_respond]
  rfl

theorem armWatch_respond (cond : BitVec 4) (p : VParts) (st : Status) (r0 r1 : Word) (s : State) :
    armWatch cond p (respond st r0 r1 s) = respond st r0 r1 (armWatch cond p s) := by
  simp only [armWatch, forceAccess]
  split_ifs <;> rfl

theorem arm_respond (cond : BitVec 4) (va : VAddr) (st : Status) (r0 r1 : Word) (s : State) :
    arm cond va (respond st r0 r1 s) = respond st r0 r1 (arm cond va s) := by
  rw [arm_eq, arm_eq, disarm_respond, armWatch_respond]
  exact (apply_ite (respond st r0 r1) ..).symm

theorem beginCommand_of_no_events {s : State} (h : s.events = []) : beginCommand s = s := by
  rw [beginCommand, ← h]

/-! ### The two commands in a row -/

/-- Settles O54, by `disarm_arm`; with no watch before, clearing it changed nothing. -/
theorem disarmAfterArmRestoresEveryEntry : Obligations.DisarmAfterArmRestoresEveryEntry := by
  intro s t cond va inv hs hx ha ht
  cases (exec_armAbk_running hx hs cond va).symm.trans ht
  refine ⟨_, exec_disarmAbk_running (by simpa using hx) (by simpa using hs), ?_, (inv.abkIdle ha).1.symm⟩
  rw [beginCommand_of_no_events (by simp), disarm_respond, disarm_arm (tlbWf_beginCommand inv.tlbCanonical)]
  exact disarm_tlb_of_inactive (s := beginCommand s) ha

/-- Settles O55, by `arm_arm`. -/
theorem armingTwiceIsArmingOnce : Obligations.ArmingTwiceIsArmingOnce := by
  intro s t cond va inv hs hx ht
  cases (exec_armAbk_running hx hs cond va).symm.trans ht
  refine ⟨_, exec_armAbk_running (by simpa using hx) (by simpa using hs) cond va, ?_⟩
  rw [beginCommand_of_no_events (by simp), arm_respond, arm_arm (tlbWf_beginCommand inv.tlbCanonical)]
  exact ⟨rfl, rfl⟩

end Sys2Proof.Machine

/-! # Diagnostics and the status register (spec 45_diagnostic.md R235 to R241) -/

namespace Sys2Proof.Machine

open Sys2Proof

theorem unchanged_withSts (bits : BitVec 3) (s : State) : Unchanged [.sts] s { s with sts := bits } :=
  unchanged_of_fields [.sts] rfl rfl (mem := by simp) (tlb := by simp) (pager := by simp) (acs := by simp)
    (fd := by simp) (abk := by simp) (hits := by simp) (sts := by simp) (halt := by simp)

/-! ## SWEEP, RD_STS, CLR_STS (R235, R239, R240) -/

/-- Settles O56: the bit is or-ed into STS, the other two are not in it. -/
theorem sweepSetsItsStatusBitOnly : Obligations.SweepSetsItsStatusBitOnly := by
  intro s hs
  have setBit (n : Nat) : (setSts stsSweepDone s).sts.getLsbD n = (s.sts.getLsbD n || stsSweepDone.getLsbD n) :=
    BitVec.getLsbD_or
  exact ⟨_, exec_plain_running (by simp) (by simp) (by simp) rfl hs, rfl, rfl, (setBit 0).trans (Bool.or_true _),
    (setBit 1).trans (Bool.or_false _), (setBit 2).trans (Bool.or_false _),
    (unchanged_withSts _ (beginCommand s)).answered .ok 0 0⟩

theorem stsImage_eq (sts : BitVec 3) : stsImage sts = BitVec.ofNat 36 sts.toNat := by
  apply BitVec.eq_of_toNat_eq
  have := sts.isLt
  simp only [stsImage, toNat_append_add, BitVec.ofNat_eq_ofNat, BitVec.toNat_ofNat]
  omega

/-- Settles O58: the answer is the image, `stsImage_eq` its number. -/
theorem rdStsReadsTheStatus : Obligations.RdStsReadsTheStatus := by
  intro s hs
  refine ⟨_, exec_plain_running (by simp) (by simp) (by simp) rfl hs, ?_, rfl, unchanged_respond_beginCommand ..⟩
  rw [← stsImage_eq]
  rfl

theorem clearSts_getLsbD (mask : BitVec 3) (s : State) (n : Nat) :
    (clearSts mask s).sts.getLsbD n = (s.sts.getLsbD n && !mask.getLsbD n) := by
  by_cases hn : n < 3
  · simp [hn]
  · simp [BitVec.getLsbD_of_ge s.sts n (by omega)]

/-- Settles O59, bit by bit (`clearSts_getLsbD`). -/
theorem clrStsClearsByMask : Obligations.ClrStsClearsByMask := by
  intro s mask hs
  exact ⟨_, exec_plain_running (by simp) (by simp) (by simp) rfl hs, rfl, rfl,
    (unchanged_withSts _ (beginCommand s)).answered .ok 0 0, clearSts_getLsbD mask s⟩

/-! ## Who sets and clears which bit (R241) -/

/-- The instruction is of those that set bit `n` of STS (R241). -/
def MaySetSts (i : Instr) : Nat → Prop
  | 0 => i = .sweep
  | 1 => (∃ m k va ctx, i = .xlate m k va ctx) ∨ ∃ m k va ctx, i = .probe m k va ctx
  | 2 => ∃ m k va ctx, i = .xlate m k va ctx
  | _ => False

/-- The instruction is of those that clear bits of STS (R241, R301). -/
def MayClearSts (i : Instr) : Prop := i = .reset ∨ ∃ mask, i = .clrSts mask

/-- What an instruction may make of STS. -/
structure StsChange (i : Instr) (b b' : BitVec 3) : Prop where
  set : ∀ n, b.getLsbD n = false → b'.getLsbD n = true → MaySetSts i n
  cleared : ∀ n, b.getLsbD n = true → b'.getLsbD n = false → MayClearSts i

namespace StsChange

theorem of_eq {i : Instr} {b b' : BitVec 3} (h : b' = b) : StsChange i b b' := by
  subst h
  exact ⟨by simp_all, by simp_all⟩

/-- Bit `n` of STS set. -/
theorem of_or {i : Instr} {n : Nat} (h : MaySetSts i n) (b : BitVec 3) : StsChange i b (b ||| BitVec.twoPow 3 n) := by
  refine ⟨fun n' hb hb' => ?_, fun n' hb hb' => by simp [hb] at hb'⟩
  have hn : n = n' := by simp_all [BitVec.getLsbD_twoPow]
  exact hn ▸ h

/-- Bits cleared and none set. -/
theorem of_mayClear {i : Instr} (h : MayClearSts i) {b b' : BitVec 3}
    (hb : ∀ n, b'.getLsbD n = true → b.getLsbD n = true) : StsChange i b b' :=
  ⟨fun n hf ht => by simp [hb n ht] at hf, fun _ _ _ => h⟩

/-- A bit changed over both is changed in one. -/
theorem trans {i : Instr} {b c d : BitVec 3} (h : StsChange i b c) (h' : StsChange i c d) : StsChange i b d := by
  constructor
  · intro n hb hd
    cases hc : c.getLsbD n with
    | true => exact h.set n hb hc
    | false => exact h'.set n hc hd
  · intro n hb hd
    cases hc : c.getLsbD n with
    | true => exact h'.cleared n hc hd
    | false => exact h.cleared n hb hc

end StsChange

theorem recordFault_stsChange {i : Instr} (h : MaySetSts i 1) (fd : FaultDesc) (s : State) :
    StsChange i s.sts (recordFault fd s).sts := by
  rw [recordFault_sts]
  split
  · exact .of_or h s.sts
  · exact .of_eq rfl

theorem trap_stsChange {i : Instr} (h : MaySetSts i 2) (fw : Word) (ctx : Ctx) (s : State) :
    StsChange i s.sts (trap fw ctx s).sts := by
  obtain ⟨-, -, -, -, -, -, -, -, hsame | hiopf, -⟩ := trap_spec fw ctx s
  · exact .of_eq hsame
  · rw [hiopf]
    exact .of_or h s.sts

/-- A reference sets no bit but NXM, where its fault carries that condition, and, if it may trap, IOPF (R262, R268). -/
theorem ReferenceEnd.stsChange {i : Instr} {isProbe : Bool} {m : MapSel} {k : Kind} {va : VAddr} {ctx : Ctx}
    {s t : State} (hnxm : MaySetSts i 1) (hiopf : isProbe = false → MaySetSts i 2)
    (h : ReferenceEnd isProbe m k va ctx s (.next t)) : StsChange i s.sts t.sts := by
  cases h with
  | answered r0 => exact .of_eq rfl
  | faulted addr c =>
    cases isProbe with
    | true => exact recordFault_stsChange hnxm _ s
    | false => exact (recordFault_stsChange hnxm _ s).trans (trap_stsChange (hiopf rfl) ..)
  | installed m' ppn wperm status => exact .of_eq (by simp)

theorem writeUbr_sts (selAc ldUbr : Bool) (cab pab : BitVec 3) (ubp : Ppn) (s : State) :
    (writeUbr selAc ldUbr cab pab ubp s).sts = s.sts := by
  cases selAc <;> cases ldUbr <;> simp [writeUbr]

theorem plainUpdate_stsChange (i : Instr) (s : State) : StsChange i s.sts (plainUpdate i s).sts := by
  cases i with
  | sweep => exact .of_or (n := 0) rfl s.sts
  | clrSts mask =>
    refine .of_mayClear (.inr ⟨mask, rfl⟩) fun n hn => ?_
    rw [plainUpdate, clearSts_getLsbD] at hn
    exact Bool.and_elim_left hn
  | wrUbr => exact .of_eq (writeUbr_sts ..)
  | _ => exact .of_eq (by simp [plainUpdate])

theorem runCommand_stsChange {i : Instr} {legal : Bool} {f : State → Result} {s t : State}
    (hf : f (beginCommand s) = .next t → StsChange i (beginCommand s).sts t.sts)
    (ht : runCommand legal f s = .next t) : StsChange i s.sts t.sts := by
  obtain hsame | he := runCommand_unchanged_or_effect ht
  · exact .of_eq (hsame.2.2 .sts (by simp))
  · exact hf he

theorem runCommand_reference_stsChange {i : Instr} {isProbe : Bool} {m : MapSel} {k : Kind} {va : VAddr} {ctx : Ctx}
    (hnxm : MaySetSts i 1) (hiopf : isProbe = false → MaySetSts i 2) {f : State → Result}
    (hf : ∀ u, ReferenceEnd isProbe m k va ctx u (f u)) {s t : State} (ht : runCommand true f s = .next t) :
    StsChange i s.sts t.sts :=
  runCommand_stsChange (fun he => (he ▸ hf (beginCommand s)).stsChange hnxm hiopf) ht

/-- No instruction sets or clears a bit of STS but those R241 names. -/
theorem exec_stsChange {i : Instr} {s t : State} (ht : exec i s = .next t) : StsChange i s.sts t.sts := by
  by_cases hx : ∃ m k va ctx, i = .xlate m k va ctx
  · obtain ⟨m, k, va, ctx, rfl⟩ := hx
    exact runCommand_reference_stsChange (.inl ⟨m, k, va, ctx, rfl⟩) (fun _ => ⟨m, k, va, ctx, rfl⟩)
      (xlateEffect_ends m k va ctx) ht
  by_cases hp : ∃ m k va ctx, i = .probe m k va ctx
  · obtain ⟨m, k, va, ctx, rfl⟩ := hp
    exact runCommand_reference_stsChange (.inr ⟨m, k, va, ctx, rfl⟩) (by simp) (probeEffect_ends m k va ctx) ht
  by_cases hr : i = .reset
  · subst hr
    cases ht
    exact .of_mayClear (.inl rfl) (by simp [pagerReset])
  push Not at hx hp
  rw [exec_eq_plainUpdate hx hp hr] at ht
  refine runCommand_stsChange ?_ ht
  rintro ⟨⟩
  exact plainUpdate_stsChange i (beginCommand s)

/-- Settles O14, by what may become of STS. -/
theorem statusBitsAreSetAndClearedByTheirCommandsOnly :
    Obligations.StatusBitsAreSetAndClearedByTheirCommandsOnly := by
  intro i s t ht
  have change := exec_stsChange ht
  exact ⟨change.set 0, change.set 1, change.set 2, change.cleared⟩

end Sys2Proof.Machine

/-! # Exceptions: the fault word and the trap sequence (spec 60_exceptions.md R250 to R280) -/

namespace Sys2Proof.Machine

open Sys2Proof

/-! ## The fault word and the classification (R253, R255) -/

theorem faultWord_toNat (fd : FaultDesc) :
    (faultWord fd).toNat =
      fd.map.code.toNat * 2 ^ 34 + fd.kind.code.toNat * 2 ^ 32 + (tagCode fd.tag).toNat * 2 ^ 29 +
        fd.isn.toNat * 2 ^ 28 + fd.nxm.toNat * 2 ^ 27 + fd.addr.toNat % 2 ^ 27 := by
  simp only [faultWord, toNat_append_add, encodeBit_toNat, BitVec.extractLsb'_toNat, Nat.shiftRight_zero]
  omega

/-- Settles O31: `faultWord_toNat` places the fields, the codes are those of R91 and R251. -/
theorem faultWordFields : Obligations.FaultWordFields := by
  intro fd map kind tag
  have hmap : fd.map.code.toNat = map := by unfold map; cases fd.map <;> rfl
  have hkind : fd.kind.code.toNat = kind := by unfold kind; cases fd.kind <;> rfl
  have htag : (tagCode fd.tag).toNat = tag := by unfold tag; cases fd.tag <;> rfl
  rw [faultWord_toNat, hmap, hkind, htag]

/-- Settles O32, cause by cause. -/
theorem classifyTable : Obligations.ClassifyTable := by
  intro c
  cases c <;> decide

/-! ## Who raises faults (R250) -/

theorem plainUpdate_fd (i : Instr) (s : State) : (plainUpdate i s).fd = s.fd := by
  cases i with
  | wrUbr selAc ldUbr cab pab ubp => cases selAc <;> cases ldUbr <;> simp [plainUpdate, writeUbr]
  | _ => simp [plainUpdate]

/-- The statuses of a command that raises no fault (R101, R129). -/
def RaisesNoFault (r : Response) : Prop := r.st ≠ .trap ∧ r.st ≠ .softfail ∧ r.st ≠ .intresume

/-- A command that is neither a reference nor RESET keeps FD and answers OK, ILLEGAL or FATAL. -/
theorem exec_plain_raises_no_fault {i : Instr} (hx : ∀ m k va ctx, i ≠ .xlate m k va ctx)
    (hp : ∀ m k va ctx, i ≠ .probe m k va ctx) (hr : i ≠ .reset) {s t : State} (ht : exec i s = .next t) :
    t.fd = s.fd ∧ ∀ r, t.resp = some r → RaisesNoFault r := by
  rw [exec_eq_plainUpdate hx hp hr] at ht
  obtain ⟨-, he⟩ | ⟨-, -, he⟩ | ⟨-, -, he⟩ := runCommand_cases ht
  · cases he
    exact ⟨rfl, by rintro r ⟨⟩; simp [RaisesNoFault]⟩
  · cases he
    exact ⟨rfl, by rintro r ⟨⟩; simp [RaisesNoFault]⟩
  · cases he
    exact ⟨plainUpdate_fd i _, by rintro r ⟨⟩; simp [RaisesNoFault]⟩

/-- Settles O12: RESET by its definition, every other command by its update and answer. -/
theorem onlyReferencesRaiseFaults : Obligations.OnlyReferencesRaiseFaults := by
  intro i s t ht hx hp
  have stays : t.halted = true → s.halted = true := fun hh => by
    by_contra hs
    simp [exec_plain_stays_running hx hp (by simpa using hs) ht] at hh
  by_cases hr : i = .reset
  · subst hr
    cases ht
    exact ⟨.inl ⟨rfl, rfl⟩, stays, by rintro r ⟨⟩; simp⟩
  · obtain ⟨hfd, hresp⟩ := exec_plain_raises_no_fault hx hp hr ht
    exact ⟨.inr hfd, stays, hresp⟩

/-! ## The undo hook (R266) -/

theorem noUndo_nil : NoUndo [] := fun _ _ _ => List.not_mem_nil

/-- The commit phase logs at most the write of a status record (R165). -/
theorem noUndo_commitRefill {s : State} {m : Mode} {vp : Nat} {k : Kind} {ppn : Nat} {wperm : Bool}
    {status : Option (Nat × Word)} (h : NoUndo s.events) : NoUndo (commitRefill m vp k ppn wperm status s).events := by
  have events : (commitRefill m vp k ppn wperm status s).events = (commitStatus status k s).events := by
    simp [commitRefill]
  rw [events]
  cases status with
  | none => exact h
  | some record =>
    obtain ⟨ca, c⟩ := record
    rw [commitStatus]
    cases hw : memWrite ca (statusUpdate s c k) s with
    | none => exact h
    | some t =>
      obtain ⟨-, rfl⟩ := memWrite_eq_some.1 hw
      intro q pc fl
      simpa using h q pc fl

/-- PROBE asks the hook for nothing (R127). -/
theorem ReferenceEnd.probe_noUndo {m : MapSel} {k : Kind} {va : VAddr} {ctx : Ctx} {s t : State} (hs : NoUndo s.events)
    (h : ReferenceEnd true m k va ctx s (.next t)) : NoUndo t.events := by
  cases h with
  | answered r0 => exact hs
  | faulted addr c => simpa [declareFault_false] using hs
  | installed m' ppn wperm status => exact noUndo_commitRefill hs

theorem exec_probe_noUndo {m : MapSel} {k : Kind} {va : VAddr} {ctx : Ctx} {s t : State}
    (ht : exec (.probe m k va ctx) s = .next t) : NoUndo t.events := by
  rw [exec_probe_eq] at ht
  obtain ⟨-, he⟩ | ⟨-, -, he⟩ | ⟨-, -, he⟩ := runCommand_cases ht
  · cases he; exact noUndo_nil
  · cases he; exact noUndo_nil
  · exact ReferenceEnd.probe_noUndo (s := beginCommand s) noUndo_nil (he ▸ probeEffect_ends m k va ctx _)

/-- The two ways an XLATE of a running PU ends: answered OK and the hook not asked, or the trap sequence of a fault. -/
theorem exec_xlate_ends {m : MapSel} {k : Kind} {va : VAddr} {ctx : Ctx} {s t : State} (hs : s.halted = false)
    (ht : exec (.xlate m k va ctx) s = .next t) :
    ((∃ r0, Answers t .ok r0 0) ∧ NoUndo t.events) ∨
      ∃ fd, t = trap (faultWord fd) ctx (recordFault fd (beginCommand s)) := by
  have hend := xlateEffect_ends m k va ctx (beginCommand s)
  rw [← exec_xlate_running hs, ht] at hend
  cases hend with
  | answered r0 => exact .inl ⟨⟨r0, rfl⟩, noUndo_nil⟩
  | installed m' ppn wperm status => exact .inl ⟨⟨_, rfl⟩, noUndo_commitRefill (s := beginCommand s) noUndo_nil⟩
  | faulted addr c => exact .inr ⟨describeFault addr k m c, declareFault_true ..⟩

/-- The events of a trap: the request to the hook where the sequence is undoable, then none (R264, R266). -/
theorem trap_events (fw : Word) (ctx : Ctx) (s : State) :
    ∃ later, NoUndo later ∧ (trap fw ctx s).events = (trapEntry ctx s).events ++ later := by
  obtain ⟨-, later, -, hlater, -, -, hevents, -⟩ := trap_spec fw ctx s
  exact ⟨later, hlater, hevents⟩

theorem trap_status (fw : Word) (ctx : Ctx) (s : State) :
    ∃ st r0 r1, (trap fw ctx s).resp = some ⟨st, r0, r1⟩ ∧ (st = .fatal ∨ st = .trap ∨ st = .intresume) := by
  obtain ⟨-, -, -, -, -, -, -, answer, -⟩ := trap_spec fw ctx s
  obtain ⟨code, -, -, -, hr⟩ | ⟨-, -, st, r0, r1, hr, hst⟩ := answer
  · exact ⟨_, _, _, hr, .inl rfl⟩
  · exact ⟨st, r0, r1, hr, .inr hst⟩

theorem trap_not_ok {fw : Word} {ctx : Ctx} {s : State} {r0 r1 : Word} : ¬ Answers (trap fw ctx s) .ok r0 r1 := by
  obtain ⟨st, q0, q1, hr, hst⟩ := trap_status fw ctx s
  intro hok
  cases hr.symm.trans hok
  simp at hst

/-- Settles O34, by how an XLATE ends; what is no XLATE logs no request. -/
theorem undoHookRunsOnceAndFirst : Obligations.UndoHookRunsOnceAndFirst := by
  intro i s t ht
  constructor
  · intro hx
    by_cases hp : ∃ m k va ctx, i = .probe m k va ctx
    · obtain ⟨m, k, va, ctx, rfl⟩ := hp
      exact exec_probe_noUndo ht
    · push Not at hp
      obtain ⟨-, hevents⟩ := exec_storesNothing_of_not_reference hx hp s t ht
      rw [hevents]
      exact noUndo_nil
  · rintro m k va ctx rfl hs q
    obtain ⟨hok, hnone⟩ | ⟨fd, rfl⟩ := exec_xlate_ends hs ht
    · exact ⟨fun _ => hnone, fun hfail => absurd hok hfail⟩
    · obtain ⟨later, hlater, hevents⟩ := trap_events (faultWord fd) ctx (recordFault fd (beginCommand s))
      have entry : (trapEntry ctx (recordFault fd (beginCommand s))).events =
          if q = .none then [] else [.undoReq q ctx.pc ctx.flags] := by
        simp [trapEntry_events, q]
      rw [hevents, entry]
      refine ⟨fun h => ?_, fun _ hq => ⟨later, by rw [if_neg hq]; rfl, hlater⟩⟩
      obtain hq : q = .none := h.resolve_left fun ⟨_, hok⟩ => trap_not_ok hok
      rw [if_pos hq]
      exact hlater


/-! ## A failed XLATE (R122, R275) -/

theorem StoredAt.memWord {as : List Nat} {s t : State} (h : StoredAt as s t) (hs : Memory.wf s.mem) {a : Nat}
    (ha : a ∉ as) : memWord t a = memWord s a := by
  obtain ⟨-, -, -, -, -, hsame, -⟩ := h
  exact hsame hs a ha

theorem StoredAt.memRead {as : List Nat} {s t : State} (h : StoredAt as s t) (hs : Memory.wf s.mem) {a : Nat}
    (ha : a ∉ as) : memRead t a = memRead s a := by
  rw [Machine.memRead, Machine.memRead, h.cfg, h.memWord hs ha]

/-- A trap stores to its own locations only. -/
theorem memRead_trap {s : State} (hs : Memory.wf s.mem) (fw : Word) (ctx : Ctx) {a : Nat} (ha : a ∉ trapStores s) :
    memRead (trap fw ctx s) a = memRead s a := by
  obtain ⟨u, -, hstored, -, hmem, -⟩ := trap_spec fw ctx s
  rw [memRead_congr hmem (by rw [trap_cfg, hstored.cfg]), hstored.memRead hs ha]

section recorded
variable (fd : FaultDesc) (s : State)

@[simp] theorem trapTableBase_recordFault : trapTableBase (recordFault fd (beginCommand s)) = trapTableBase s := by
  simp [trapTableBase]

@[simp] theorem trapStores_recordFault : trapStores (recordFault fd (beginCommand s)) = trapStores s := by
  simp [trapStores]

theorem memRead_recordFault (a : Nat) : memRead (recordFault fd (beginCommand s)) a = memRead s a :=
  memRead_congr (by simp) (by simp) a

theorem unchanged_trap (fw : Word) (ctx : Ctx) :
    Unchanged [.mem, .fd, .abkHits, .sts, .halt] s (trap fw ctx (recordFault fd (beginCommand s))) :=
  unchanged_of_fields _ (by simp) (by simp) (mem := by simp) (tlb := by simp) (pager := by simp) (acs := by simp)
    (fd := by simp) (abk := by simp) (hits := by simp) (sts := by simp) (halt := by simp)

end recorded

/-- Settles O38, by how an XLATE ends: answered OK, or by the trap sequence, which changes its own words only. -/
theorem failedXlateIsPrecise : Obligations.FailedXlateIsPrecise := by
  intro s t m k va ctx hwf hs ht
  obtain ⟨⟨r0, hok⟩, -⟩ | ⟨fd, rfl⟩ := exec_xlate_ends hs ht
  · refine ⟨fun r hr => ?_, fun hfail => absurd ⟨r0, hok⟩ hfail⟩
    cases hok.symm.trans hr
    simp
  · refine ⟨fun r hr => ?_, fun _ => ⟨unchanged_trap fd s _ ctx, fun a ha => ?_⟩⟩
    · obtain ⟨st, r0, r1, hst, hcases⟩ := trap_status (faultWord fd) ctx (recordFault fd (beginCommand s))
      cases hst.symm.trans hr
      obtain rfl | rfl | rfl := hcases <;> simp
    · rw [memRead_trap (by simpa using hwf) _ ctx (by simpa using ha), memRead_recordFault]

/-! ## A failing reference: PROBE soft-fails, XLATE takes the trap sequence (R262) -/

/-- The fault PROBE's refill reports is the one XLATE's refill traps with (R127, R140). -/
theorem refill_traps_of_softfail {m : Mode} {k : Kind} {va : VAddr} {ctx : Ctx} {s u : State} {w : Word}
    (hu : refill true m va k ctx s = .next u) (ha : Answers u .softfail w 0) :
    ∃ fd, w = faultWord fd ∧ u = respond .softfail w 0 (recordFault fd s) ∧
      refill false m va k ctx s = .next (trap w ctx (recordFault fd s)) := by
  obtain ⟨c, he, hc⟩ | ⟨ppn, wperm, status, -, -, -, he⟩ | ⟨-, -, he⟩ := refill_cases true m va k ctx s
  · cases he.symm.trans hu
    cases ha
    refine ⟨describeFault (decompose s.cfg va).va k (modeMap m) c, rfl, rfl, ?_⟩
    obtain ⟨hsec, rfl⟩ | ⟨hsec, hres⟩ | ⟨hsec, habk, rfl, ppn, wperm, status, hres⟩ := hc
    · rw [refill_of_illegal hsec]; rfl
    · rw [refill_of_fail hsec hres]; rfl
    · rw [refill_of_match hsec hres habk]; rfl
  · cases he.symm.trans hu
    cases ha
  · cases he.symm.trans hu

/-- The same of the physical map (R124). -/
theorem physMap_traps_of_softfail {k : Kind} {va : VAddr} {ctx : Ctx} {s : State} {w : Word}
    (ha : Answers (physMap true k va ctx s) .softfail w 0) :
    ∃ fd, w = faultWord fd ∧ physMap true k va ctx s = respond .softfail w 0 (recordFault fd s) ∧
      physMap false k va ctx s = trap w ctx (recordFault fd s) := by
  by_cases h : (physMapAddress va).toNat < s.cfg.physWords
  · simp [physMap, h, Answers] at ha
  · simp only [physMap, h] at ha ⊢
    cases ha
    exact ⟨_, rfl, rfl, rfl⟩

/-- A failing reference as XLATE: the fault PROBE reports is recorded and the trap sequence taken (R122, R127, R262). -/
theorem FailingReference.xlate {s u : State} {m : MapSel} {k : Kind} {va : VAddr} {ctx : Ctx} {w : Word}
    (hs : s.halted = false) (h : FailingReference s m k va ctx u w) :
    ∃ fd, w = faultWord fd ∧ u = respond .softfail w 0 (recordFault fd (beginCommand s)) ∧
      exec (.xlate m k va ctx) s = .next (trap w ctx (recordFault fd (beginCommand s))) := by
  obtain ⟨hu, ha, hmiss⟩ := h
  rw [exec_probe_running hs] at hu
  cases m with
  | phys =>
    cases hu
    obtain ⟨fd, hw, hprobe, hxlate⟩ := physMap_traps_of_softfail ha
    exact ⟨fd, hw, hprobe, by rw [exec_xlate_running hs, xlateEffect, hxlate]⟩
  | exec =>
    obtain ⟨fd, hw, rfl, hxlate⟩ := refill_traps_of_softfail hu ha
    exact ⟨fd, hw, rfl, (exec_xlate_of_miss (m := .exec) hs hmiss ctx).trans hxlate⟩
  | user =>
    obtain ⟨fd, hw, rfl, hxlate⟩ := refill_traps_of_softfail hu ha
    exact ⟨fd, hw, rfl, (exec_xlate_of_miss (m := .user) hs hmiss ctx).trans hxlate⟩

/-! ## Inside interrupt delivery (R268) -/

section entry
variable (ctx : Ctx) (s : State)

@[simp] theorem trapEntry_cfg : (trapEntry ctx s).cfg = s.cfg := by simp [trapEntry]
@[simp] theorem trapEntry_mem : (trapEntry ctx s).mem = s.mem := by simp [trapEntry]
@[simp] theorem trapEntry_pager : (trapEntry ctx s).pager = s.pager := by simp [trapEntry]
@[simp] theorem trapEntry_fd : (trapEntry ctx s).fd = s.fd := by simp [trapEntry]
@[simp] theorem trapEntry_abkHits : (trapEntry ctx s).abkHits = s.abkHits := by simp [trapEntry]
@[simp] theorem trapEntry_sts : (trapEntry ctx s).sts = s.sts := by simp [trapEntry]
@[simp] theorem trapEntry_halted : (trapEntry ctx s).halted = s.halted := by simp [trapEntry]

end entry

theorem trap_of_intDelivery {ctx : Ctx} {s : State} (h : ctx.seq = .intDelivery) (fw : Word) :
    trap fw ctx s = interruptAnomaly fw (trapEntry ctx s) := by
  have hq : effectiveSeq s.cfg ctx.seq = .intDelivery := by simp [effectiveSeq, h]
  obtain ⟨-, he⟩ | ⟨hne, -⟩ | ⟨hne, -⟩ := trap_cases fw ctx s
  · exact he
  · exact absurd hq hne
  · exact absurd hq hne

theorem interruptAnomaly_of_fatal {s : State} (h : s.cfg.intFault = .fatal) (fw : Word) :
    interruptAnomaly fw s = fatalStop .intFault s := by
  simp [interruptAnomaly, h]

theorem interruptAnomaly_of_statusResume {s : State} (h : s.cfg.intFault = .statusResume) (fw : Word) :
    interruptAnomaly fw s = respond .intresume fw 0 { setSts stsIopf s with inTrap := false } := by
  simp [interruptAnomaly, h]

/-- The events of the anomaly begin with those it finds. -/
theorem interruptAnomaly_events (fw : Word) (s : State) :
    ∃ later, (interruptAnomaly fw s).events = s.events ++ later := by
  cases h : s.cfg.intFault with
  | fatal => exact ⟨_, by rw [interruptAnomaly_of_fatal h, fatalStop_events]⟩
  | statusResume => exact ⟨[], by simp [interruptAnomaly_of_statusResume h]⟩

/-- Settles O35: the trap sequence goes to the anomaly with the request to the hook as its only event, and each policy is
read off its definition. -/
theorem faultInsideInterruptDelivery : Obligations.FaultInsideInterruptDelivery := by
  refine ⟨fun s u m k va ctx w hs hfail hseq => ?_, fun g => rfl⟩
  obtain ⟨fd, -, rfl, he⟩ := hfail.xlate hs
  rw [trap_of_intDelivery hseq] at he
  have request : (trapEntry ctx (recordFault fd (beginCommand s))).events =
      [.undoReq .intDelivery ctx.pc ctx.flags] := by
    simp [trapEntry_events, effectiveSeq, hseq]
  refine ⟨_, he, by simp, by simp, by simp, ?_, fun hp => ?_, fun hp => ?_⟩
  · obtain ⟨later, hevents⟩ := interruptAnomaly_events w (trapEntry ctx (recordFault fd (beginCommand s)))
    rw [hevents, request]
    rfl
  · rw [interruptAnomaly_of_statusResume (by simpa using hp)]
    exact ⟨rfl, by simp [stsIopf], rfl, by simpa using hs⟩
  · rw [interruptAnomaly_of_fatal (by simpa using hp)]
    exact ⟨rfl, by simp, rfl, rfl, rfl⟩

/-! ## The hit limit (R270) -/

/-- The count taken by the trap is compared with the limit (R226, R270). -/
theorem breakLimitExceeded_trapEntry {ctx : Ctx} {s : State} :
    breakLimitExceeded (countBreak (trapEntry ctx s)) = true ↔ ¬ WithinHitLimit s s.fd := by
  have hits := countBreak_trapEntry_abkHits ctx s
  unfold breakLimitExceeded WithinHitLimit
  rw [countBreak_cfg, trapEntry_cfg, countBreak_fd, trapEntry_fd, hits]
  cases s.cfg.abkHitLimit with
  | none => simp
  | some n => by_cases htag : s.fd.tag = .abk <;> simp [htag]

theorem trap_of_over_limit {ctx : Ctx} {s : State} (hq : effectiveSeq s.cfg ctx.seq ≠ .intDelivery)
    (hlimit : ¬ WithinHitLimit s s.fd) (fw : Word) :
    trap fw ctx s = fatalStop .abkLimit (countBreak (trapEntry ctx s)) := by
  obtain ⟨hint, -⟩ | ⟨-, -, he⟩ | ⟨-, hwithin, -⟩ := trap_cases fw ctx s
  · exact absurd hint hq
  · exact he
  · rw [breakLimitExceeded_trapEntry.2 hlimit] at hwithin
    cases hwithin

theorem trap_within_limit {ctx : Ctx} {s : State} (hq : effectiveSeq s.cfg ctx.seq ≠ .intDelivery)
    (hlimit : WithinHitLimit s s.fd) (fw : Word) :
    trap fw ctx s = trapDeliver fw (undoPair s.cfg (effectiveSeq s.cfg ctx.seq) ctx).1
      (undoPair s.cfg (effectiveSeq s.cfg ctx.seq) ctx).2 (countBreak (trapEntry ctx s)) := by
  obtain ⟨hint, -⟩ | ⟨-, hover, -⟩ | ⟨-, -, he⟩ := trap_cases fw ctx s
  · exact absurd hint hq
  · exact absurd hlimit (breakLimitExceeded_trapEntry.1 hover)
  · exact he

theorem withinHitLimit_recordFault {fd fd' : FaultDesc} {s : State} :
    WithinHitLimit (recordFault fd (beginCommand s)) fd' ↔ WithinHitLimit s fd' := by
  simp [WithinHitLimit]

/-- Settles O37: `trap_of_over_limit`, the count one above that of `s`. -/
theorem tooManyBreaksStopThePu : Obligations.TooManyBreaksStopThePu := by
  intro s u m k va ctx w n hs hfail hq htag hn hover
  obtain ⟨fd, -, rfl, he⟩ := hfail.xlate hs
  obtain htag : fd.tag = .abk := by simpa using htag
  have hlimit : ¬ WithinHitLimit s fd := fun hwithin => by
    have := hwithin htag n hn
    omega
  rw [trap_of_over_limit (by simpa using hq) (by simpa [withinHitLimit_recordFault] using hlimit)] at he
  exact ⟨_, he, rfl, rfl, rfl, by simp [htag], by simp⟩

/-! ## Delivery: the words stored and loaded (R264, R271 to R273) -/

theorem exists_memWrite {s : State} {a : Nat} (h : a < s.cfg.physWords) (w : Word) : ∃ t, memWrite a w s = some t :=
  ⟨_, memWrite_eq_some.2 ⟨h, rfl⟩⟩

theorem storedAt_memWrite {s t : State} {a : Nat} {w : Word} (h : memWrite a w s = some t) : StoredAt [a] s t :=
  (StoredAt.refl [a] s).write (by simp) h

theorem memRead_memWrite_same {s t : State} {a : Nat} {w : Word} (hs : Memory.wf s.mem)
    (h : memWrite a w s = some t) : memRead t a = some w := by
  rw [memRead_memWrite hs h, if_pos rfl]

theorem memRead_of_lt {s : State} {a : Nat} (h : a < s.cfg.physWords) : memRead s a = some (memWord s a) :=
  memRead_eq_some.2 ⟨h, rfl⟩

section offsets
variable {s : State}

theorem trapAreaExists_short (hext : s.cfg.ext = false) :
    TrapAreaExists s ↔ trapTableBase s + s.cfg.pfwOff < s.cfg.physWords ∧
      trapTableBase s + s.cfg.oldOff < s.cfg.physWords ∧ trapTableBase s + s.cfg.newOff < s.cfg.physWords := by
  simp [TrapAreaExists, Config.trapOffsets, hext]

theorem trapAreaExists_long (hext : s.cfg.ext = true) :
    TrapAreaExists s ↔ trapTableBase s + s.cfg.pfwOff < s.cfg.physWords ∧
      trapTableBase s + s.cfg.oldOff < s.cfg.physWords ∧ trapTableBase s + s.cfg.oldOff + 1 < s.cfg.physWords ∧
      trapTableBase s + s.cfg.newOff < s.cfg.physWords ∧ trapTableBase s + s.cfg.newOff + 1 < s.cfg.physWords := by
  simp [TrapAreaExists, Config.trapOffsets, hext, Nat.add_assoc]

theorem trapOffsets_distinct_short (h : s.cfg.trapOffsets.Nodup) (hext : s.cfg.ext = false) :
    s.cfg.pfwOff ≠ s.cfg.oldOff ∧ s.cfg.newOff ≠ s.cfg.pfwOff ∧ s.cfg.newOff ≠ s.cfg.oldOff := by
  simp only [Config.trapOffsets, hext, Bool.false_eq_true, if_false, List.nodup_cons, List.mem_cons, not_or] at h
  omega

theorem trapOffsets_distinct_long (h : s.cfg.trapOffsets.Nodup) (hext : s.cfg.ext = true) :
    (s.cfg.pfwOff ≠ s.cfg.oldOff ∧ s.cfg.pfwOff ≠ s.cfg.oldOff + 1) ∧
      (s.cfg.newOff ≠ s.cfg.pfwOff ∧ s.cfg.newOff ≠ s.cfg.oldOff ∧ s.cfg.newOff ≠ s.cfg.oldOff + 1) ∧
      s.cfg.newOff + 1 ≠ s.cfg.pfwOff ∧ s.cfg.newOff + 1 ≠ s.cfg.oldOff ∧ s.cfg.newOff + 1 ≠ s.cfg.oldOff + 1 := by
  simp only [Config.trapOffsets, hext, if_true, List.nodup_cons, List.mem_cons, not_or] at h
  omega

end offsets

section delivery
variable {tbase : Nat} {fw : Word} {pc : PcBits} {flags : FlagBits} {s : State}

/-- One word saved, one loaded (R272, R273). -/
theorem trapShort_of_exists (hwf : Memory.wf s.mem) (hold : tbase + s.cfg.oldOff < s.cfg.physWords)
    (hnew : tbase + s.cfg.newOff < s.cfg.physWords) (hne : s.cfg.newOff ≠ s.cfg.oldOff) :
    ∃ t, StoredAt [tbase + s.cfg.oldOff] s t ∧ memRead t (tbase + s.cfg.oldOff) = some (savedPair pc flags) ∧
      trapShort tbase pc flags s = trapReturn (loadedPcShort (memWord s (tbase + s.cfg.newOff)))
        (loadedFlags (memWord s (tbase + s.cfg.newOff))) t := by
  obtain ⟨t, hw⟩ := exists_memWrite hold (savedPair pc flags)
  have stored := storedAt_memWrite hw
  have hread : memRead t (tbase + s.cfg.newOff) = some (memWord s (tbase + s.cfg.newOff)) := by
    rw [stored.memRead hwf (by simpa using hne), memRead_of_lt hnew]
  exact ⟨t, stored, memRead_memWrite_same hwf hw, by simp [trapShort, hw, stored.cfg, hread]⟩

/-- A missing word of the one-word format stops the PU (R269). -/
theorem trapShort_of_missing
    (h : tbase + s.cfg.oldOff < s.cfg.physWords → s.cfg.physWords ≤ tbase + s.cfg.newOff) :
    ∃ t, StoredAt [tbase + s.cfg.oldOff] s t ∧ trapShort tbase pc flags s = fatalStop .refault t := by
  cases hw : memWrite (tbase + s.cfg.oldOff) (savedPair pc flags) s with
  | none => exact ⟨s, .refl _ s, by simp [trapShort, hw]⟩
  | some t =>
    obtain ⟨hold, -⟩ := memWrite_eq_some.1 hw
    have stored := storedAt_memWrite hw
    have hread : memRead t (tbase + s.cfg.newOff) = none := memRead_eq_none.2 (by rw [stored.cfg]; exact h hold)
    exact ⟨t, stored, by simp [trapShort, hw, stored.cfg, hread]⟩

/-- Two words saved, two loaded (R272, R273). -/
theorem trapLong_of_exists (hwf : Memory.wf s.mem) (hold : tbase + s.cfg.oldOff < s.cfg.physWords)
    (hold' : tbase + s.cfg.oldOff + 1 < s.cfg.physWords) (hnew : tbase + s.cfg.newOff < s.cfg.physWords)
    (hnew' : tbase + s.cfg.newOff + 1 < s.cfg.physWords)
    (hne : s.cfg.newOff ≠ s.cfg.oldOff ∧ s.cfg.newOff ≠ s.cfg.oldOff + 1)
    (hne' : s.cfg.newOff + 1 ≠ s.cfg.oldOff) :
    ∃ t, StoredAt [tbase + s.cfg.oldOff, tbase + s.cfg.oldOff + 1] s t ∧
      memRead t (tbase + s.cfg.oldOff) = some (savedFlags flags) ∧
      memRead t (tbase + s.cfg.oldOff + 1) = some (savedPc pc) ∧
      trapLong tbase pc flags s = trapReturn (loadedPc (memWord s (tbase + s.cfg.newOff + 1)))
        (loadedFlags (memWord s (tbase + s.cfg.newOff))) t := by
  obtain ⟨u, hu⟩ := exists_memWrite hold (savedFlags flags)
  have storedU := storedAt_memWrite hu
  obtain ⟨t, ht⟩ := exists_memWrite (s := u) (by rw [storedU.cfg]; exact hold') (savedPc pc)
  have wfU : Memory.wf u.mem := memWrite_wf hwf hu
  have stored : StoredAt [tbase + s.cfg.oldOff, tbase + s.cfg.oldOff + 1] s t :=
    (storedU.mono (by simp)).write (by simp) ht
  have hread : memRead t (tbase + s.cfg.newOff) = some (memWord s (tbase + s.cfg.newOff)) := by
    rw [stored.memRead hwf (by simp; omega), memRead_of_lt hnew]
  have hread' : memRead t (tbase + s.cfg.newOff + 1) = some (memWord s (tbase + s.cfg.newOff + 1)) := by
    rw [stored.memRead hwf (by simp; omega), memRead_of_lt hnew']
  refine ⟨t, stored, ?_, memRead_memWrite_same wfU ht, ?_⟩
  · rw [(storedAt_memWrite ht).memRead wfU (by simp), memRead_memWrite_same hwf hu]
  · simp [trapLong, trapLoadLong, hu, ht, stored.cfg, storedU.cfg, hread, hread']

/-- A missing word of the two-word format stops the PU (R269). -/
theorem trapLong_of_missing
    (h : tbase + s.cfg.oldOff + 1 < s.cfg.physWords → tbase + s.cfg.newOff < s.cfg.physWords →
      s.cfg.physWords ≤ tbase + s.cfg.newOff + 1) :
    ∃ t, StoredAt [tbase + s.cfg.oldOff, tbase + s.cfg.oldOff + 1] s t ∧
      trapLong tbase pc flags s = fatalStop .refault t := by
  cases hu : memWrite (tbase + s.cfg.oldOff) (savedFlags flags) s with
  | none => exact ⟨s, .refl _ s, by simp [trapLong, hu]⟩
  | some u =>
    have storedU := storedAt_memWrite hu
    cases ht : memWrite (tbase + s.cfg.oldOff + 1) (savedPc pc) u with
    | none => exact ⟨u, storedU.mono (by simp), by simp [trapLong, hu, storedU.cfg, ht]⟩
    | some t =>
      obtain ⟨hold', -⟩ := memWrite_eq_some.1 ht
      have stored : StoredAt [tbase + s.cfg.oldOff, tbase + s.cfg.oldOff + 1] s t :=
        (storedU.mono (by simp)).write (by simp) ht
      refine ⟨t, stored, ?_⟩
      simp only [trapLong, trapLoadLong, hu, ht, stored.cfg, storedU.cfg]
      cases hread : memRead t (tbase + s.cfg.newOff) with
      | none => rfl
      | some w =>
        obtain ⟨hnew, -⟩ := memRead_eq_some.1 hread
        have hread' : memRead t (tbase + s.cfg.newOff + 1) = none :=
          memRead_eq_none.2 (by rw [stored.cfg] at hnew ⊢; exact h (storedU.cfg ▸ hold') hnew)
        rw [hread']

/-- The words `t` holds and the answer it gives are those of a delivered trap of `s`: the fault word, the pair saved, the
pair loaded, in the format of EXT (R264, R272, R273). -/
structure Delivered (s t : State) (fw : Word) (pc : PcBits) (flags : FlagBits) : Prop where
  faultWord : memRead t (trapTableBase s + s.cfg.pfwOff) = some fw
  short : s.cfg.ext = false →
    memRead t (trapTableBase s + s.cfg.oldOff) = some (savedPair pc flags) ∧
    Answers t .trap (pcWord (loadedPcShort (memWord s (trapTableBase s + s.cfg.newOff))))
      (flagsWord (loadedFlags (memWord s (trapTableBase s + s.cfg.newOff))))
  long : s.cfg.ext = true →
    memRead t (trapTableBase s + s.cfg.oldOff) = some (savedFlags flags) ∧
    memRead t (trapTableBase s + s.cfg.oldOff + 1) = some (savedPc pc) ∧
    Answers t .trap (pcWord (loadedPc (memWord s (trapTableBase s + s.cfg.newOff + 1))))
      (flagsWord (loadedFlags (memWord s (trapTableBase s + s.cfg.newOff))))

theorem trapDeliver_short {u : State} (hu : memWrite (trapTableBase s + s.cfg.pfwOff) fw s = some u)
    (hext : s.cfg.ext = false) : trapDeliver fw pc flags s = trapShort (trapTableBase s) pc flags u := by
  simp [trapDeliver, hu, (storedAt_memWrite hu).cfg, hext]

theorem trapDeliver_long {u : State} (hu : memWrite (trapTableBase s + s.cfg.pfwOff) fw s = some u)
    (hext : s.cfg.ext = true) : trapDeliver fw pc flags s = trapLong (trapTableBase s) pc flags u := by
  simp [trapDeliver, hu, (storedAt_memWrite hu).cfg, hext]

/-- With the trap area in existing memory the trap is delivered, no word of it written twice nor loaded from where one
was saved (R271). -/
theorem trapDeliver_of_exists (hwf : Memory.wf s.mem) (hdistinct : s.cfg.trapOffsets.Nodup) (h : TrapAreaExists s) :
    Delivered s (trapDeliver fw pc flags s) fw pc flags := by
  obtain ⟨u, hu⟩ := exists_memWrite (h s.cfg.pfwOff (by unfold Config.trapOffsets; split <;> simp)) fw
  have storedU := storedAt_memWrite hu
  have wfU : Memory.wf u.mem := memWrite_wf hwf hu
  have readFw := memRead_memWrite_same hwf hu
  have hcfg := storedU.cfg
  cases hext : s.cfg.ext with
  | false =>
    obtain ⟨-, hold, hnew⟩ := (trapAreaExists_short hext).1 h
    obtain ⟨hpo, hnp, hno⟩ := trapOffsets_distinct_short hdistinct hext
    obtain ⟨t, stored, readOld, he⟩ := trapShort_of_exists (tbase := trapTableBase s) (pc := pc) (flags := flags) wfU
      (by rwa [hcfg]) (by rwa [hcfg]) (by rwa [hcfg])
    rw [hcfg] at stored readOld he
    rw [storedU.memWord hwf (by simpa using hnp)] at he
    rw [trapDeliver_short hu hext, he]
    exact ⟨(stored.memRead wfU (by simpa using hpo)).trans readFw, fun _ => ⟨readOld, rfl⟩, by simp [hext]⟩
  | true =>
    obtain ⟨-, hold, hold', hnew, hnew'⟩ := (trapAreaExists_long hext).1 h
    obtain ⟨hp, ⟨hnp, hno⟩, hnp', hno', -⟩ := trapOffsets_distinct_long hdistinct hext
    obtain ⟨t, stored, readOld, readOld', he⟩ := trapLong_of_exists (tbase := trapTableBase s) (pc := pc)
      (flags := flags) wfU (by rwa [hcfg]) (by rwa [hcfg]) (by rwa [hcfg]) (by rwa [hcfg]) (by rwa [hcfg])
      (by rwa [hcfg])
    rw [hcfg] at stored readOld readOld' he
    rw [storedU.memWord hwf (by simpa [Nat.add_assoc] using hnp'), storedU.memWord hwf (by simpa using hnp)] at he
    rw [trapDeliver_long hu hext, he]
    exact ⟨(stored.memRead wfU (by simpa [Nat.add_assoc] using hp)).trans readFw, by simp [hext],
      fun _ => ⟨readOld, readOld', rfl⟩⟩

/-- With a trap location missing the PU stops; the fault word stands where it could be written (R269). -/
theorem trapDeliver_of_missing (hwf : Memory.wf s.mem) (hdistinct : s.cfg.trapOffsets.Nodup) (h : ¬ TrapAreaExists s) :
    ∃ t, trapDeliver fw pc flags s = fatalStop .refault t ∧
      (s.cfg.physWords ≤ trapTableBase s + s.cfg.pfwOff → t.mem = s.mem) ∧
      (trapTableBase s + s.cfg.pfwOff < s.cfg.physWords →
        memRead t (trapTableBase s + s.cfg.pfwOff) = some fw) := by
  cases hu : memWrite (trapTableBase s + s.cfg.pfwOff) fw s with
  | none =>
    exact ⟨s, by simp [trapDeliver, hu], fun _ => rfl, fun hlt => absurd hlt (not_lt.2 (memWrite_eq_none.1 hu))⟩
  | some u =>
    obtain ⟨hpfw, -⟩ := memWrite_eq_some.1 hu
    have hcfg := (storedAt_memWrite hu).cfg
    have wfU : Memory.wf u.mem := memWrite_wf hwf hu
    have readFw := memRead_memWrite_same hwf hu
    cases hext : s.cfg.ext with
    | false =>
      rw [trapAreaExists_short hext] at h
      obtain ⟨hpo, -⟩ := trapOffsets_distinct_short hdistinct hext
      obtain ⟨t, stored, he⟩ := trapShort_of_missing (tbase := trapTableBase s) (pc := pc) (flags := flags) (s := u)
        (by rw [hcfg]; exact fun hold => not_lt.1 fun hnew => h ⟨hpfw, hold, hnew⟩)
      rw [hcfg] at stored
      exact ⟨t, (trapDeliver_short hu hext).trans he, fun hle => absurd hpfw (not_lt.2 hle),
        fun _ => (stored.memRead wfU (by simpa using hpo)).trans readFw⟩
    | true =>
      rw [trapAreaExists_long hext] at h
      obtain ⟨hp, -⟩ := trapOffsets_distinct_long hdistinct hext
      obtain ⟨t, stored, he⟩ := trapLong_of_missing (tbase := trapTableBase s) (pc := pc) (flags := flags) (s := u)
        (by rw [hcfg]; exact fun hold hnew => not_lt.1 fun hnew' => h ⟨hpfw, by omega, hold, hnew, hnew'⟩)
      rw [hcfg] at stored
      exact ⟨t, (trapDeliver_long hu hext).trans he, fun hle => absurd hpfw (not_lt.2 hle),
        fun _ => (stored.memRead wfU (by simpa [Nat.add_assoc] using hp)).trans readFw⟩

end delivery

/-! ## The trap of a failing reference (R264, R269) -/

/-- The state in which a running PU delivers the fault `fd`: recorded, the hook asked, the break counted (R262, R264). -/
def deliveryState (fd : FaultDesc) (ctx : Ctx) (s : State) : State :=
  countBreak (trapEntry ctx (recordFault fd (beginCommand s)))

section deliveryState
variable (fd : FaultDesc) (ctx : Ctx) (s : State)

@[simp] theorem deliveryState_cfg : (deliveryState fd ctx s).cfg = s.cfg := by simp [deliveryState]
@[simp] theorem deliveryState_mem : (deliveryState fd ctx s).mem = s.mem := by simp [deliveryState]
@[simp] theorem deliveryState_pager : (deliveryState fd ctx s).pager = s.pager := by simp [deliveryState]
@[simp] theorem deliveryState_fd : (deliveryState fd ctx s).fd = fd := by simp [deliveryState]
@[simp] theorem deliveryState_sts : (deliveryState fd ctx s).sts = (recordFault fd (beginCommand s)).sts := by
  simp [deliveryState]
@[simp] theorem deliveryState_abkHits :
    (deliveryState fd ctx s).abkHits = s.abkHits + (if fd.tag = .abk then 1 else 0) := by simp [deliveryState]

@[simp] theorem trapTableBase_deliveryState : trapTableBase (deliveryState fd ctx s) = trapTableBase s := by
  simp [trapTableBase]

@[simp] theorem memWord_deliveryState (a : Nat) : memWord (deliveryState fd ctx s) a = memWord s a :=
  memWord_congr (by simp) a

theorem trapAreaExists_deliveryState : TrapAreaExists (deliveryState fd ctx s) ↔ TrapAreaExists s := by
  simp [TrapAreaExists]

end deliveryState

/-- Outside interrupt delivery and within the hit limit, the trap of a fault is its delivery (R264). -/
theorem trap_recordFault_delivers {fd : FaultDesc} {ctx : Ctx} {s : State}
    (hq : effectiveSeq s.cfg ctx.seq ≠ .intDelivery) (hlimit : WithinHitLimit s fd) (fw : Word) :
    trap fw ctx (recordFault fd (beginCommand s)) =
      trapDeliver fw (undoPair s.cfg (effectiveSeq s.cfg ctx.seq) ctx).1
        (undoPair s.cfg (effectiveSeq s.cfg ctx.seq) ctx).2 (deliveryState fd ctx s) := by
  rw [trap_within_limit (by simpa using hq) (by simpa [withinHitLimit_recordFault] using hlimit), recordFault_cfg]
  rfl

/-- Settles O36: the trap is `trapDeliver`, which stops where a location is missing (`trapDeliver_of_missing`). -/
theorem missingTrapLocationIsARefault : Obligations.MissingTrapLocationIsARefault := by
  intro s u m k va ctx w inv hs hfail hq hlimit hmissing
  obtain ⟨fd, -, rfl, he⟩ := hfail.xlate hs
  rw [trap_recordFault_delivers hq (by simpa using hlimit)] at he
  obtain ⟨-, -, -, -, -, hdistinct⟩ := inv.config
  obtain ⟨t, hstop, hbeyond, hinside⟩ := trapDeliver_of_missing (fw := w)
    (pc := (undoPair s.cfg (effectiveSeq s.cfg ctx.seq) ctx).1)
    (flags := (undoPair s.cfg (effectiveSeq s.cfg ctx.seq) ctx).2) (s := deliveryState fd ctx s)
    (by simpa using inv.memCanonical) (by simpa using hdistinct) (by rwa [trapAreaExists_deliveryState])
  have hfd : t.fd = fd := by simpa using (congrArg State.fd hstop).symm
  have hsts : t.sts = (recordFault fd (beginCommand s)).sts := by simpa using (congrArg State.sts hstop).symm
  simp only [deliveryState_cfg, trapTableBase_deliveryState, deliveryState_mem] at hbeyond hinside
  rw [hstop] at he
  exact ⟨_, he, rfl, rfl, rfl, rfl, by simpa using hfd, hsts, by simp [hfd], hbeyond, hinside⟩

/-! ## The pairs as numbers (R272, R273) -/

theorem toNat_zero_append (m : Nat) {n : Nat} (x : BitVec n) : ((0 : BitVec m) ++ x).toNat = x.toNat := by
  rw [toNat_append_add]
  simp

theorem savedPair_toNat (pc : PcBits) (flags : FlagBits) :
    (savedPair pc flags).toNat = flags.toNat * 2 ^ 23 + pc.toNat % 2 ^ 18 := by
  simp only [savedPair, toNat_append_add, BitVec.extractLsb'_toNat, Nat.shiftRight_zero, BitVec.ofNat_eq_ofNat,
    BitVec.toNat_ofNat]
  omega

theorem savedFlags_toNat (flags : FlagBits) : (savedFlags flags).toNat = flags.toNat * 2 ^ 23 := by
  rw [savedFlags, toNat_append_add]
  simp

theorem savedPc_toNat (pc : PcBits) : (savedPc pc).toNat = pc.toNat := toNat_zero_append 6 pc

theorem pcWord_loadedPcShort (w : Word) : pcWord (loadedPcShort w) = BitVec.ofNat 36 (w.toNat % 2 ^ 18) := by
  apply BitVec.eq_of_toNat_eq
  rw [pcWord, loadedPcShort, toNat_zero_append, toNat_zero_append, BitVec.extractLsb'_toNat, BitVec.toNat_ofNat,
    Nat.shiftRight_zero]
  omega

theorem pcWord_loadedPc (w : Word) : pcWord (loadedPc w) = BitVec.ofNat 36 (w.toNat % 2 ^ 30) := by
  apply BitVec.eq_of_toNat_eq
  rw [pcWord, loadedPc, toNat_zero_append, BitVec.extractLsb'_toNat, BitVec.toNat_ofNat, Nat.shiftRight_zero]
  omega

theorem flagsWord_loadedFlags (w : Word) : flagsWord (loadedFlags w) = BitVec.ofNat 36 (w.toNat / 2 ^ 23) := by
  apply BitVec.eq_of_toNat_eq
  rw [flagsWord, loadedFlags, toNat_zero_append, BitVec.extractLsb'_toNat, BitVec.toNat_ofNat,
    Nat.shiftRight_eq_div_pow]
  omega

/-! ## The delivered trap (R264, R275) -/

/-- A part that is unchanged after all. -/
theorem Unchanged.of_part {p : Part} {parts : List Part} {s t : State} (h : Unchanged (p :: parts) s t)
    (hp : samePart s t p) : Unchanged parts s t := by
  obtain ⟨hcfg, hport, hsame⟩ := h
  refine ⟨hcfg, hport, fun q hq => ?_⟩
  by_cases hqp : q = p
  · exact hqp ▸ hp
  · exact hsame q (by simp [hqp, hq])

/-- A trap answered TRAP leaves the PU running, outside the sequence (R264). -/
theorem halt_of_trap_answer {fw : Word} {ctx : Ctx} {s : State} {r0 r1 : Word}
    (h : Answers (trap fw ctx s) .trap r0 r1) :
    (trap fw ctx s).halted = s.halted ∧ (trap fw ctx s).fatalCode = s.fatalCode ∧ (trap fw ctx s).inTrap = false := by
  obtain ⟨-, -, -, -, -, hin, -, answer, -⟩ := trap_spec fw ctx s
  obtain ⟨code, -, -, -, hr⟩ | ⟨hhalt, hcode, -⟩ := answer
  · cases hr.symm.trans h
  · exact ⟨hhalt, hcode, hin⟩

theorem Delivered.answers_trap {s t : State} {fw : Word} {pc : PcBits} {flags : FlagBits}
    (h : Delivered s t fw pc flags) : ∃ r0 r1, Answers t .trap r0 r1 := by
  cases hext : s.cfg.ext with
  | false => exact ⟨_, _, (h.short hext).2⟩
  | true => exact ⟨_, _, (h.long hext).2.2⟩

/-- The delivery reads the memory, the table base and the configuration the reference found. -/
theorem delivered_deliveryState {fd : FaultDesc} {ctx : Ctx} {s t : State} {fw : Word} {pc : PcBits}
    {flags : FlagBits} (h : Delivered (deliveryState fd ctx s) t fw pc flags) : Delivered s t fw pc flags := by
  obtain ⟨hfw, hshort, hlong⟩ := h
  simp only [deliveryState_cfg, trapTableBase_deliveryState, memWord_deliveryState] at hfw hshort hlong
  exact ⟨hfw, hshort, hlong⟩

/-- The trap of a fault whose trap area exists (R264, R271). -/
theorem trap_delivered {fd : FaultDesc} {ctx : Ctx} {s : State} (inv : Inv s)
    (hq : effectiveSeq s.cfg ctx.seq ≠ .intDelivery) (hlimit : WithinHitLimit s fd) (harea : TrapAreaExists s)
    (fw : Word) :
    Delivered s (trap fw ctx (recordFault fd (beginCommand s))) fw
      (undoPair s.cfg (effectiveSeq s.cfg ctx.seq) ctx).1 (undoPair s.cfg (effectiveSeq s.cfg ctx.seq) ctx).2 := by
  obtain ⟨-, -, -, -, -, hdistinct⟩ := inv.config
  rw [trap_recordFault_delivers hq hlimit]
  exact delivered_deliveryState (trapDeliver_of_exists (by simpa using inv.memCanonical) (by simpa using hdistinct)
    ((trapAreaExists_deliveryState fd ctx s).2 harea))

/-- Settles O33: `trap_delivered` gives the words and the answer, `unchanged_trap` and `memRead_trap` the frame. -/
theorem trapSavesTheOldPairAndLoadsTheNew : Obligations.TrapSavesTheOldPairAndLoadsTheNew := by
  intro s u m k va ctx w inv hs hfail hq hlimit harea q pair b new0 new1
  obtain ⟨fd, -, rfl, he⟩ := hfail.xlate hs
  obtain hlimit : WithinHitLimit s fd := by simpa using hlimit
  have delivers := trap_recordFault_delivers hq hlimit w
  have delivered := trap_delivered inv hq hlimit harea w
  obtain ⟨r0, r1, answer⟩ := delivered.answers_trap
  obtain ⟨hhalt, hcode, hin⟩ := halt_of_trap_answer answer
  have frame : Unchanged [.halt, .mem, .fd, .sts, .abkHits] s (trap w ctx (recordFault fd (beginCommand s))) :=
    (unchanged_trap fd s w ctx).mono (by simp)
  refine ⟨_, he, by simp, ?_, ?_, frame.of_part ⟨by simp [hhalt], by simp [hcode], by rw [hin, inv.notInTrap]⟩,
    delivered.faultWord, fun a ha => ?_, fun hext => ?_, fun hext => ?_⟩
  · simp [delivers]
  · simp [delivers]
  · rw [memRead_trap (by simpa using inv.memCanonical) w ctx (by simpa using ha), memRead_recordFault]
  · obtain ⟨hold, hresp⟩ := delivered.short hext
    rw [hold, Answers, hresp, pcWord_loadedPcShort, flagsWord_loadedFlags]
    exact ⟨congrArg some (savedPair_toNat _ _), rfl⟩
  · obtain ⟨hold, hold', hresp⟩ := delivered.long hext
    rw [hold, hold', Answers, hresp, pcWord_loadedPc, flagsWord_loadedFlags]
    exact ⟨congrArg some (savedFlags_toNat _), congrArg some (savedPc_toNat _), rfl⟩

end Sys2Proof.Machine

/-! # RESET (spec 70_reset_and_hazards.md R301) -/

namespace Sys2Proof.Machine

open Sys2Proof

/-! ## The "global pager reset", field by field -/

@[simp] theorem pagerReset_cfg (s : State) : (pagerReset s).cfg = s.cfg := rfl
@[simp] theorem pagerReset_mem (s : State) : (pagerReset s).mem = s.mem := rfl
@[simp] theorem pagerReset_tlb (s : State) : (pagerReset s).tlb = ⟨[], []⟩ := rfl
@[simp] theorem pagerReset_pager (s : State) : (pagerReset s).pager = Pager.reset := rfl
@[simp] theorem pagerReset_acs (s : State) : (pagerReset s).acs = selectBlocks 0 0 s.acs := rfl
@[simp] theorem pagerReset_fd (s : State) : (pagerReset s).fd = FaultDesc.idle := rfl
@[simp] theorem pagerReset_abk (s : State) : (pagerReset s).abk = Abk.idle := rfl
@[simp] theorem pagerReset_abkHits (s : State) : (pagerReset s).abkHits = 0 := rfl
@[simp] theorem pagerReset_sts (s : State) : (pagerReset s).sts = 0 := rfl
@[simp] theorem pagerReset_halted (s : State) : (pagerReset s).halted = false := rfl
@[simp] theorem pagerReset_fatalCode (s : State) : (pagerReset s).fatalCode = .none := rfl
@[simp] theorem pagerReset_inTrap (s : State) : (pagerReset s).inTrap = false := rfl
@[simp] theorem pagerReset_port (s : State) : (pagerReset s).port = s.port := rfl
@[simp] theorem pagerReset_events (s : State) : (pagerReset s).events = s.events := rfl

theorem allInvalid_pagerReset (s : State) : AllInvalid (pagerReset s) := lookup_nil (pagerReset_tlb s)

/-- The reset goes through Select (R200), which is transparent (R204). -/
theorem archReg_pagerReset (s : State) (b : BitVec 3) (r : BitVec 4) :
    archReg (pagerReset s).acs b r = archReg s.acs b r := selectIsTransparent s.acs 0 0 b r

/-! ## The command -/

/-- RESET is the one command without a prologue: neither a halt nor the configuration stops it (R129). -/
theorem exec_reset (s : State) : exec .reset s = .next (respond .ok 0 0 (pagerReset (beginCommand s))) := rfl

/-- Settles O60: the fields of `pagerReset`; `archReg_pagerReset` is the clause on the accumulators. -/
theorem resetClearsAllButTheAccumulators : Obligations.ResetClearsAllButTheAccumulators := by
  intro s
  refine ⟨_, exec_reset s, rfl, ?events, ?entries, ?pager, ?fault, ?watch, ?hits, ?status, ?halted, ?code, ?trap,
    ?cab, ?pab, ?plive, ?registers, ?mem, ?cfg, ?port⟩
  case entries => simpa [AllInvalid] using allInvalid_pagerReset (beginCommand s)
  case pager => simp [Pager.reset]
  case fault => simp [FaultDesc.idle]
  case watch => simp [Abk.idle, Access.none]
  case registers => simpa using archReg_pagerReset (beginCommand s)
  all_goals simp

end Sys2Proof.Machine
